-- ==== Sys2Proof/Word.lean ====
section
/-! DEFINITION. The word types of the block (00_scope.md R5, R10): bytes, 16-bit values and the two
kinds of register address. -/

namespace Sys2Proof

/-- A register datum, a payload byte, a short address byte: `u8`. -/
abbrev Byte := BitVec 8

/-- A PAN id, a short (station) address, a long address word: `u16`. -/
abbrev Half := BitVec 16

/-- A short-register address, `u6`, 0 to 63 (20_memory.md R50). -/
abbrev ShortAddr := BitVec 6

/-- A long-register address, `u10`, 0 to 1023 (20_memory.md R50). -/
abbrev LongAddr := BitVec 10

end Sys2Proof
end

