-- ==== Sys2Proof/Config.lean ====
section
/-! DEFINITION. What an implementation fixes (the configuration record `Cfg` of 00_scope.md R5 to R7),
the spec's default record `Cfg0` (92_eei_decisions.md, 95_test_vectors.md), and the free values the
environment answers with once no answer is supplied. -/

namespace Sys2Proof

/-- `POLL_TIE` (00_scope.md R6): which outcome wins when one poll iteration shows ready and expired. -/
inductive PollTie where
  | timeoutWins
  | readyWins
deriving DecidableEq, Repr

/-- A pin event of `PIN_PROLOGUE` (00_scope.md R6); `level` is `false` for 0 (low), `true` for 1 (high). -/
inductive PinEvent where
  | cs (level : Bool)
  | wake (level : Bool)
  | resetPin (level : Bool)
deriving DecidableEq, Repr

/-- The register-map parameters of 00_scope.md R7: the transceiver registers the block touches, each by
its role, and the byte values it writes to them or tests. -/
structure RegMap where
  regSoftRst : ShortAddr
  softRstBits : Byte
  regRxFlush : ShortAddr
  rxFlushInit : Byte
  rxFlushRx : Byte
  regPanIdH : ShortAddr
  regPanIdL : ShortAddr
  regSadrH : ShortAddr
  regSadrL : ShortAddr
  regEadr0 : ShortAddr
  regRfState : LongAddr
  rfStateMask : Byte
  rfStateRx : Byte
  regIntCon : ShortAddr
  intConAllOff : Byte
  regAckTmo : ShortAddr
  ackTmoVal : Byte
  regChannel : LongAddr
  regRfCtl : ShortAddr
  rfCtlRst : Byte
  rfCtlClr : Byte
  regRxMcr : ShortAddr
  regIntStat : ShortAddr
  regTxnCon : ShortAddr
  txnConTrigAck : Byte
  regBbReg1 : ShortAddr
  rxDecInvOn : Byte
  rxDecInvOff : Byte
  txFifoBase : LongAddr
  rxFifoBase : LongAddr
deriving DecidableEq, Repr

/-- The configuration record `Cfg` (00_scope.md R6, R7). Durations are natural numbers below `2^tickW`
(R8 line 1). -/
structure Cfg where
  tickW : Nat
  timeoutTicks : Nat
  settle1Ticks : Nat
  settle2Ticks : Nat
  pinPrologue : List PinEvent
  hdrLen : Nat
  maxBuf : Nat
  fc0 : Byte
  fc1 : Byte
  broadcast : Half
  chanValues : Vector Byte 16
  chUnset : Byte
  defMac : Vector Byte 8
  defKey : Vector Byte 16
  defSeq : Byte
  defChannel : Byte
  defPanId : Half
  defAddr : Half
  rfCfgLong : List (LongAddr × Byte)
  bbCfgShort : List (ShortAddr × Byte)
  trailerRead : Bool
  pollTie : PollTie
  map : RegMap
deriving DecidableEq, Repr

/-- `TRAILER_LEN = 4` (00_scope.md R5): the fixed length of the receive trailer. -/
def trailerLen : Nat := 4

/-- The default register map (92_eei_decisions.md D17). DESIGN CHOICE of the spec, from general
knowledge; no claim rests on a value of it. -/
def RegMap.map0 : RegMap where
  regSoftRst := 0x2A
  softRstBits := 0x07
  regRxFlush := 0x0D
  rxFlushInit := 0x01
  rxFlushRx := 0x04
  regPanIdH := 0x02
  regPanIdL := 0x01
  regSadrH := 0x04
  regSadrL := 0x03
  regEadr0 := 0x05
  regRfState := 0x20F
  rfStateMask := 0xE0
  rfStateRx := 0xA0
  regIntCon := 0x32
  intConAllOff := 0xFF
  regAckTmo := 0x12
  ackTmoVal := 0x39
  regChannel := 0x200
  regRfCtl := 0x36
  rfCtlRst := 0x04
  rfCtlClr := 0x00
  regRxMcr := 0x00
  regIntStat := 0x31
  regTxnCon := 0x1B
  txnConTrigAck := 0x05
  regBbReg1 := 0x39
  rxDecInvOn := 0x04
  rxDecInvOff := 0x00
  txFifoBase := 0x000
  rxFifoBase := 0x300

/-- `Cfg0`, the record of the spec's defaults (95_test_vectors.md, head; 92_eei_decisions.md D8, D10 to
D13, D17 to D21, D26 to D28, D30). DESIGN CHOICE [2]: it is the record `State.reset` carries. -/
def Cfg.cfg0 : Cfg where
  tickW := 32
  timeoutTicks := 100
  settle1Ticks := 1
  settle2Ticks := 1
  pinPrologue := [.cs true, .wake true, .resetPin true]
  hdrLen := 11
  maxBuf := 116
  fc0 := 0x61
  fc1 := 0x88
  broadcast := 0xFFFF
  chanValues := #v[0x03, 0x13, 0x23, 0x33, 0x43, 0x53, 0x63, 0x73,
    0x83, 0x93, 0xA3, 0xB3, 0xC3, 0xD3, 0xE3, 0xF3]
  chUnset := 0x00
  defMac := #v[0x01, 0x02, 0x03, 0x04, 0x05, 0x06, 0x07, 0x08]
  defKey := #v[0x00, 0x01, 0x02, 0x03, 0x04, 0x05, 0x06, 0x07,
    0x08, 0x09, 0x0A, 0x0B, 0x0C, 0x0D, 0x0E, 0x0F]
  defSeq := 0x01
  defChannel := 0x03
  defPanId := 0x1234
  defAddr := 0x0001
  rfCfgLong := [(0x201, 0x01), (0x202, 0x80), (0x203, 0x00), (0x206, 0x90), (0x207, 0x80),
    (0x208, 0x10), (0x220, 0x21)]
  bbCfgShort := [(0x3A, 0x80), (0x3F, 0x60), (0x3E, 0x40), (0x18, 0x98), (0x2E, 0x95)]
  trailerRead := true
  pollTie := .timeoutWins
  map := RegMap.map0

/-- FREE VALUE [1]: the `ok` answer of the `n`-th `W1` or `W2` event after the supplied answers have
run out (20_memory.md R52, R53; 00_scope.md R11 "draw"). -/
opaque Config.freeOk : Nat → Bool

/-- FREE VALUE [1]: the answer `(ok, b)` of the `n`-th `R1` event after the supplied answers have run
out (20_memory.md R54). -/
opaque Config.freeRead : Nat → Bool × Byte

/-- FREE VALUE [1]: the answer of the `n`-th `INT` event after the supplied answers have run out
(20_memory.md R56). -/
opaque Config.freePending : Nat → Bool

/-- FREE VALUE [1]: the answer of the `n`-th `NOW` event after the supplied answers have run out
(20_memory.md R56); `Io.now` takes it modulo `2^TICK_W`. -/
opaque Config.freeTick : Nat → Nat

end Sys2Proof
end

