-- ==== Sys2Proof/Syntax.lean ====
section
/-! DEFINITION. The operations of the block: one constructor per row of spec/opcode_table.json, 12 host
commands (30_encoding.md R96) and 12 unit operations (R98, R99), each with the operands its rule names. -/

namespace Sys2Proof

/-- The complete operation set (30_encoding.md R98). The `len` operand of `TX` is the length of its
payload list (R101). A duration is a `u(TICK_W)`, kept as a natural number below `2^TICK_W`
(`Instr.wf`). -/
inductive Instr where
  /-- `INIT` (42_init.md R140). -/
  | init
  /-- `SET.CH ch` (43_config.md R172). -/
  | setCh (ch : Byte)
  /-- `SET.PAN pan` (43_config.md R173). -/
  | setPan (pan : Half)
  /-- `SET.ADDR addr` (43_config.md R174). -/
  | setAddr (addr : Half)
  /-- `SET.SEQ seq` (43_config.md R175). -/
  | setSeq (seq : Byte)
  /-- `SET.MAC mac` (43_config.md R176). -/
  | setMac (mac : Vector Byte 8)
  /-- `SET.KEY key` (43_config.md R177). -/
  | setKey (key : Vector Byte 16)
  /-- `TX dst, dpan, org, payload` (44_builder.md R190). -/
  | tx (dst : Half) (dpan : Option Half) (org : Option Half) (payload : List Byte)
  /-- `ISNEW` (45_parser.md R200). -/
  | isNew
  /-- `RX` (45_parser.md R201). -/
  | rx
  /-- `GETLAST` (45_parser.md R210). -/
  | getLast
  /-- `DISCOVER` (45_parser.md R211). -/
  | discover
  /-- `DLY.INIT d` (40_delay.md R111). -/
  | dlyInit (d : Nat)
  /-- `DLY.READ` (40_delay.md R112). -/
  | dlyRead
  /-- `DLY.RESET` (40_delay.md R113). -/
  | dlyReset
  /-- `DLY.WRITE d` (40_delay.md R114). -/
  | dlyWrite (d : Nat)
  /-- `ENC.SR r` (41_codec_regaccess.md R121). -/
  | encSr (r : ShortAddr)
  /-- `ENC.SW r` (41_codec_regaccess.md R122). -/
  | encSw (r : ShortAddr)
  /-- `ENC.LR r` (41_codec_regaccess.md R123). -/
  | encLr (r : LongAddr)
  /-- `ENC.LW r` (41_codec_regaccess.md R124). -/
  | encLw (r : LongAddr)
  /-- `RA.SRD a, null` (41_codec_regaccess.md R126). -/
  | raSrd (a : ShortAddr) (null : Bool)
  /-- `RA.SWR a, v` (41_codec_regaccess.md R127). -/
  | raSwr (a : ShortAddr) (v : Byte)
  /-- `RA.LRD a, null` (41_codec_regaccess.md R128). -/
  | raLrd (a : LongAddr) (null : Bool)
  /-- `RA.LWR a, v` (41_codec_regaccess.md R129). -/
  | raLwr (a : LongAddr) (v : Byte)
deriving DecidableEq, Repr

end Sys2Proof
end

