-- ==== Sys2Proof/WellFormed.lean ====
section
/-! DEFINITION. Well-formedness of the configuration record (00_scope.md R8) and of an operation's
operands. -/

namespace Sys2Proof

/-- Whether every element of a byte list is zero (43_config.md R176, R177). -/
def allZero (bs : List Byte) : Bool := bs.all (· == 0)

/-- No element of the list occurs twice. -/
def noRepeats : List Byte → Bool
  | [] => true
  | b :: bs => !bs.contains b && noRepeats bs

/-- R8 line 1: the tick counter has a width, and the durations are ticks. -/
def Cfg.wfTicks (c : Cfg) : Bool :=
  decide (1 ≤ c.tickW) && decide (c.timeoutTicks < 2 ^ c.tickW) &&
    decide (c.settle1Ticks < 2 ^ c.tickW) && decide (c.settle2Ticks < 2 ^ c.tickW)

/-- R8 line 2: the eight MAC registers are short addresses (every other address is one by its type). -/
def Cfg.wfAddrs (c : Cfg) : Bool := decide (c.map.regEadr0.toNat + 7 ≤ 63)

/-- R8 line 3: the total-frame-length byte does not wrap, and the transmit frame fits. -/
def Cfg.wfTx (c : Cfg) : Bool :=
  decide (1 ≤ c.maxBuf) && decide (c.hdrLen + c.maxBuf ≤ 255) &&
    decide (c.map.txFifoBase.toNat + c.hdrLen + c.maxBuf ≤ 1023)

/-- R8 line 4: every receive FIFO position `RX` reads is a long address. -/
def Cfg.wfRx (c : Cfg) : Bool :=
  decide (1 ≤ c.hdrLen) && decide (c.map.rxFifoBase.toNat + 9 ≤ 1023) &&
    decide (c.map.rxFifoBase.toNat + (c.hdrLen - 1) + c.maxBuf - 1 + trailerLen ≤ 1023)

/-- R8 line 5: the channel values are distinct, none is the sentinel, and the default is one of them. -/
def Cfg.wfChannels (c : Cfg) : Bool :=
  noRepeats c.chanValues.toList && !c.chanValues.toList.contains c.chUnset &&
    c.chanValues.toList.contains c.defChannel

/-- R8 line 6: the factory defaults meet the invariant of `id` (10_state.md R22). -/
def Cfg.wfDefaults (c : Cfg) : Bool :=
  !(c.defPanId == c.broadcast) && !(c.defAddr == c.broadcast) &&
    !allZero c.defMac.toList && !allZero c.defKey.toList

/-- Well-formedness of `Cfg` (00_scope.md R8, lines 1 to 6). -/
def Cfg.wf (c : Cfg) : Bool :=
  c.wfTicks && c.wfAddrs && c.wfTx && c.wfRx && c.wfChannels && c.wfDefaults

/-- Well-formedness of an operation under a configuration: a duration is a `u(TICK_W)` (40_delay.md
R111, R114), and the length of a payload is a `u8` (44_builder.md R190). Every other operand is in range
by its type (41_codec_regaccess.md R125). -/
def Instr.wf (c : Cfg) : Instr → Bool
  | .dlyInit d => decide (d < 2 ^ c.tickW)
  | .dlyWrite d => decide (d < 2 ^ c.tickW)
  | .tx _ _ _ payload => decide (payload.length < 256)
  | .init => true
  | .setCh _ => true
  | .setPan _ => true
  | .setAddr _ => true
  | .setSeq _ => true
  | .setMac _ => true
  | .setKey _ => true
  | .isNew => true
  | .rx => true
  | .getLast => true
  | .discover => true
  | .dlyRead => true
  | .dlyReset => true
  | .encSr _ => true
  | .encSw _ => true
  | .encLr _ => true
  | .encLw _ => true
  | .raSrd _ _ => true
  | .raSwr _ _ => true
  | .raLrd _ _ => true
  | .raLwr _ _ => true

end Sys2Proof
end

