-- ==== Sys2Proof/Decode.lean ====
section
/-! DEFINITION. Encodings (30_encoding.md): the bus address words and their inverse (R81, R83, R85), the
words presented at the block's ports (R96, R97, R99), the decoder, total on any word and rejecting by
name, and after it the encoder. -/

namespace Sys2Proof

/-! ## Bytes of 16-bit values and of durations -/

/-- `hi8(w) = w[15:8]` (00_scope.md R10). -/
def hi8 (w : Half) : Byte := w.extractLsb' 8 8

/-- `lo8(w) = w[7:0]` (00_scope.md R10). -/
def lo8 (w : Half) : Byte := w.extractLsb' 0 8

/-- `{hi, lo}`: the 16-bit value with `hi` in bits 15:8 (00_scope.md R10, 30_encoding.md R94). -/
def joinBytes (hi lo : Byte) : Half := hi ++ lo

/-- How many operand bytes carry a `u(TICK_W)` [7]. -/
def Cfg.tickBytes (c : Cfg) : Nat := (c.tickW + 7) / 8

/-- The number whose bytes, lowest first, are listed. -/
def leNat : List Byte → Nat
  | [] => 0
  | b :: bs => b.toNat + 256 * leNat bs

/-- The `k` lowest bytes of `n`, lowest first. -/
def leBytes (n : Nat) : Nat → List Byte
  | 0 => []
  | k + 1 => BitVec.ofNat 8 n :: leBytes (n / 256) k

/-! ## Bus address words -/

/-- `ENC.SR(r) = (zext_8(r) << 1) & 0x7E` (41_codec_regaccess.md R121, format `SA8` of R81). -/
def shortReadWord (r : ShortAddr) : Byte := ((r.setWidth 8) <<< 1) &&& 0x7E#8

/-- `ENC.SW(r) = (zext_8(r) << 1) | 0x01` (41_codec_regaccess.md R122). -/
def shortWriteWord (r : ShortAddr) : Byte := ((r.setWidth 8) <<< 1) ||| 0x01#8

/-- `ENC.LR(r) = (zext_16(r) << 5) | 0x8000` (41_codec_regaccess.md R123, format `LA16` of R83). -/
def longReadWord (r : LongAddr) : Half := ((r.setWidth 16) <<< 5) ||| 0x8000#16

/-- `ENC.LW(r) = (zext_16(r) << 5) | 0x8010` (41_codec_regaccess.md R124). -/
def longWriteWord (r : LongAddr) : Half := ((r.setWidth 16) <<< 5) ||| 0x8010#16

/-- `DEC.S(b)`, defined when `b[7] = 0`: the address `b[6:1]` and whether it is a write (30_encoding.md
R85). -/
def decShort (b : Byte) : Option (ShortAddr × Bool) :=
  if b.getLsbD 7 then none else some (b.extractLsb' 1 6, b.getLsbD 0)

/-- `DEC.L(w)`, defined when `w[15] = 1`: the address `w[14:5]` and whether it is a write; `w[3:0]` is
ignored (30_encoding.md R85, R87). -/
def decLong (w : Half) : Option (LongAddr × Bool) :=
  if w.getLsbD 15 then some (w.extractLsb' 5 10, w.getLsbD 4) else none

/-! ## Words at the ports -/

/-- What is presented at one of the block's ports. The codes are the spec's (30_encoding.md R96, R99,
R81, R83); the lanes of the operand bytes are the model's DESIGN CHOICE [7]: bytes in the order of the
operands, multi-byte numbers low byte first, an optional value or a flag led by a byte 0 or 1, and
bytes past the operands ignored. `bus` is an address word as its bytes go on the bus, high byte first
(20_memory.md R59). -/
inductive PortWord where
  /-- The host command port, `cmd : u4` (30_encoding.md R96). -/
  | host (cmd : BitVec 4) (operands : List Byte)
  /-- The select of unit `DLY` (30_encoding.md R99). -/
  | dly (op : BitVec 2) (operands : List Byte)
  /-- The select `{space, rw}` of unit `AC` (30_encoding.md R99). -/
  | ac (sel : BitVec 2) (operands : List Byte)
  /-- The select `{space, rw}` of unit `RA` (30_encoding.md R99). -/
  | ra (sel : BitVec 2) (operands : List Byte)
  /-- An address word by its bytes (30_encoding.md R80 to R86). -/
  | bus (bytes : List Byte)
deriving DecidableEq, Repr

/-- Why the decoder rejects a word. -/
inductive DecodeError where
  /-- A reserved command code `0x0`, `0xD` to `0xF` (30_encoding.md R100). -/
  | reservedCommand
  /-- Fewer operand bytes than the operation's operands take [7]. -/
  | operandMissing
  /-- A flag byte that is neither 0 nor 1 [7]. -/
  | flagRange
  /-- An address above 63 or above 1023 (41_codec_regaccess.md R125). -/
  | addressRange
  /-- A duration that is no `u(TICK_W)` (40_delay.md R111). -/
  | durationRange
  /-- Bytes that are no address word: none, or not of the format's length (30_encoding.md R80, R86). -/
  | notAddressWord
deriving DecidableEq, Repr

/-! ## Operand lanes -/

/-- One byte off the operand lanes. -/
def takeByte : List Byte → Except DecodeError (Byte × List Byte)
  | b :: rest => .ok (b, rest)
  | [] => .error .operandMissing

/-- A 16-bit operand, low byte first. -/
def takeHalf : List Byte → Except DecodeError (Half × List Byte)
  | lo :: hi :: rest => .ok (joinBytes hi lo, rest)
  | _ => .error .operandMissing

/-- A boolean operand: a byte 0 or 1. -/
def takeFlag : List Byte → Except DecodeError (Bool × List Byte)
  | b :: rest => if b = 0 then .ok (false, rest) else if b = 1 then .ok (true, rest) else .error .flagRange
  | [] => .error .operandMissing

/-- An `option u16` operand: a valid bit and a `u16`, ignored when the bit is 0 (30_encoding.md R97). -/
def takeOptHalf (bs : List Byte) : Except DecodeError (Option Half × List Byte) :=
  match takeFlag bs with
  | .error e => .error e
  | .ok (valid, rest) =>
    match takeHalf rest with
    | .error e => .error e
    | .ok (h, rest') => .ok (if valid then some h else none, rest')

/-- A byte-array operand of fixed length. -/
def takeArray (n : Nat) (bs : List Byte) : Except DecodeError (Vector Byte n × List Byte) :=
  if h : n ≤ bs.length then .ok (⟨(bs.take n).toArray, by simp [h]⟩, bs.drop n)
  else .error .operandMissing

/-- A short address operand, one byte, at most 63 (41_codec_regaccess.md R125). -/
def takeShortAddr (bs : List Byte) : Except DecodeError (ShortAddr × List Byte) :=
  match takeByte bs with
  | .error e => .error e
  | .ok (b, rest) => if b.toNat ≤ 63 then .ok (b.setWidth 6, rest) else .error .addressRange

/-- A long address operand, two bytes, at most 1023 (41_codec_regaccess.md R125). -/
def takeLongAddr (bs : List Byte) : Except DecodeError (LongAddr × List Byte) :=
  match takeHalf bs with
  | .error e => .error e
  | .ok (h, rest) => if h.toNat ≤ 1023 then .ok (h.setWidth 10, rest) else .error .addressRange

/-- A duration operand, `u(TICK_W)` (40_delay.md R111, R114). -/
def takeDuration (c : Cfg) (bs : List Byte) : Except DecodeError Nat :=
  if c.tickBytes ≤ bs.length then
    if leNat (bs.take c.tickBytes) < 2 ^ c.tickW then .ok (leNat (bs.take c.tickBytes))
    else .error .durationRange
  else .error .operandMissing

/-- The operands of `TX` (30_encoding.md R96): `dst`, `dpan`, `org`, `len` and `len` payload bytes. -/
def takeTx (bs : List Byte) : Except DecodeError Instr :=
  match takeHalf bs with
  | .error e => .error e
  | .ok (dst, r1) =>
    match takeOptHalf r1 with
    | .error e => .error e
    | .ok (dpan, r2) =>
      match takeOptHalf r2 with
      | .error e => .error e
      | .ok (org, r3) =>
        match takeByte r3 with
        | .error e => .error e
        | .ok (len, r4) =>
          if len.toNat ≤ r4.length then .ok (.tx dst dpan org (r4.take len.toNat))
          else .error .operandMissing

/-- The operands of an `RA` read: an address and the null-destination flag (30_encoding.md R99). -/
def takeRead {α : Type} (take : List Byte → Except DecodeError (α × List Byte)) (mk : α → Bool → Instr)
    (bs : List Byte) : Except DecodeError Instr :=
  match take bs with
  | .error e => .error e
  | .ok (a, rest) => (takeFlag rest).map fun p => mk a p.1

/-- The operands of an `RA` write: an address and a byte. -/
def takeWrite {α : Type} (take : List Byte → Except DecodeError (α × List Byte)) (mk : α → Byte → Instr)
    (bs : List Byte) : Except DecodeError Instr :=
  match take bs with
  | .error e => .error e
  | .ok (a, rest) => (takeByte rest).map fun p => mk a p.1

/-! ## The decoder -/

/-- The host command port (30_encoding.md R96): code, then operands; reserved codes are refused
(R100). -/
def decodeHost (cmd : BitVec 4) (bs : List Byte) : Except DecodeError Instr :=
  match cmd.toNat with
  | 0x1 => .ok .init
  | 0x2 => (takeByte bs).map fun p => .setCh p.1
  | 0x3 => (takeHalf bs).map fun p => .setPan p.1
  | 0x4 => (takeHalf bs).map fun p => .setAddr p.1
  | 0x5 => (takeByte bs).map fun p => .setSeq p.1
  | 0x6 => (takeArray 8 bs).map fun p => .setMac p.1
  | 0x7 => (takeArray 16 bs).map fun p => .setKey p.1
  | 0x8 => takeTx bs
  | 0x9 => .ok .isNew
  | 0xA => .ok .rx
  | 0xB => .ok .getLast
  | 0xC => .ok .discover
  | _ => .error .reservedCommand

/-- The select of `DLY` (30_encoding.md R99). -/
def decodeDly (c : Cfg) (op : BitVec 2) (bs : List Byte) : Except DecodeError Instr :=
  match op.toNat with
  | 0 => (takeDuration c bs).map .dlyInit
  | 1 => .ok .dlyRead
  | 2 => .ok .dlyReset
  | _ => (takeDuration c bs).map .dlyWrite

/-- The select `{space, rw}` of `AC` (30_encoding.md R99). -/
def decodeAc (sel : BitVec 2) (bs : List Byte) : Except DecodeError Instr :=
  match sel.toNat with
  | 0 => (takeShortAddr bs).map fun p => .encSr p.1
  | 1 => (takeShortAddr bs).map fun p => .encSw p.1
  | 2 => (takeLongAddr bs).map fun p => .encLr p.1
  | _ => (takeLongAddr bs).map fun p => .encLw p.1

/-- The select `{space, rw}` of `RA` (30_encoding.md R99). -/
def decodeRa (sel : BitVec 2) (bs : List Byte) : Except DecodeError Instr :=
  match sel.toNat with
  | 0 => takeRead takeShortAddr .raSrd bs
  | 1 => takeWrite takeShortAddr .raSwr bs
  | 2 => takeRead takeLongAddr .raLrd bs
  | _ => takeWrite takeLongAddr .raLwr bs

/-- An address word by its bytes: bit 7 of the first tells the format, hence the length (30_encoding.md
R86). -/
def decodeBus : List Byte → Except DecodeError Instr
  | [b] =>
    match decShort b with
    | some (r, write) => .ok (if write then .encSw r else .encSr r)
    | none => .error .notAddressWord
  | [hi, lo] =>
    match decLong (joinBytes hi lo) with
    | some (r, write) => .ok (if write then .encLw r else .encLr r)
    | none => .error .notAddressWord
  | _ => .error .notAddressWord

/-- The decoder, total on any word at any port. -/
def decode (c : Cfg) : PortWord → Except DecodeError Instr
  | .host cmd bs => decodeHost cmd bs
  | .dly op bs => decodeDly c op bs
  | .ac sel bs => decodeAc sel bs
  | .ra sel bs => decodeRa sel bs
  | .bus bs => decodeBus bs

/-! ## The encoder -/

/-- A 16-bit operand on its lanes, low byte first. -/
def putHalf (h : Half) : List Byte := [lo8 h, hi8 h]

/-- A boolean operand on its lane. -/
def putFlag (b : Bool) : List Byte := if b then [1] else [0]

/-- An `option u16` operand on its lanes (30_encoding.md R97). -/
def putOptHalf : Option Half → List Byte
  | none => [0, 0, 0]
  | some h => 1 :: putHalf h

/-- The word of an operation: at its unit's port, the four `ENC` operations as the bus patterns of
spec/opcode_table.json (30_encoding.md R81, R83, R96, R99). -/
def encode (c : Cfg) : Instr → PortWord
  | .init => .host 0x1#4 []
  | .setCh ch => .host 0x2#4 [ch]
  | .setPan pan => .host 0x3#4 (putHalf pan)
  | .setAddr addr => .host 0x4#4 (putHalf addr)
  | .setSeq seq => .host 0x5#4 [seq]
  | .setMac mac => .host 0x6#4 mac.toList
  | .setKey key => .host 0x7#4 key.toList
  | .tx dst dpan org payload =>
    .host 0x8#4 (putHalf dst ++ putOptHalf dpan ++ putOptHalf org ++
      BitVec.ofNat 8 payload.length :: payload)
  | .isNew => .host 0x9#4 []
  | .rx => .host 0xA#4 []
  | .getLast => .host 0xB#4 []
  | .discover => .host 0xC#4 []
  | .dlyInit d => .dly 0#2 (leBytes d c.tickBytes)
  | .dlyRead => .dly 1#2 []
  | .dlyReset => .dly 2#2 []
  | .dlyWrite d => .dly 3#2 (leBytes d c.tickBytes)
  | .encSr r => .bus [shortReadWord r]
  | .encSw r => .bus [shortWriteWord r]
  | .encLr r => .bus [hi8 (longReadWord r), lo8 (longReadWord r)]
  | .encLw r => .bus [hi8 (longWriteWord r), lo8 (longWriteWord r)]
  | .raSrd a null => .ra 0#2 (a.setWidth 8 :: putFlag null)
  | .raSwr a v => .ra 1#2 [a.setWidth 8, v]
  | .raLrd a null => .ra 2#2 (putHalf (a.setWidth 16) ++ putFlag null)
  | .raLwr a v => .ra 3#2 (putHalf (a.setWidth 16) ++ [v])

/-- The select code of an `ENC` operation at `AC`'s own select (30_encoding.md R99), the second way to
name one; `none` for the operations of the other units. -/
def encodeAcSelect : Instr → Option PortWord
  | .encSr r => some (.ac 0#2 [r.setWidth 8])
  | .encSw r => some (.ac 1#2 [r.setWidth 8])
  | .encLr r => some (.ac 2#2 (putHalf (r.setWidth 16)))
  | .encLw r => some (.ac 3#2 (putHalf (r.setWidth 16)))
  | _ => none

/-! ## Rows of the opcode table -/

/-- The port word of a row of spec/opcode_table.json given by its bits alone, operands zero. The table's
codes belong to four ports and overlap (`INIT`, `DLY.READ`, `ENC.SW` and `RA.SWR` are all 1), so the
port is the model's reading [8]: 16 bits are an `LA16` word, 4 bits a command code, 2 bits a `DLY`
select; 8 bits are a command code where they are one of the twelve, and an `SA8` byte otherwise. -/
def tableWord (c : Cfg) (nbits w : Nat) : PortWord :=
  if nbits = 16 then .bus [BitVec.ofNat 8 (w / 256), BitVec.ofNat 8 w]
  else if nbits = 4 then .host (BitVec.ofNat 4 w) (List.replicate 16 0)
  else if nbits = 2 then .dly (BitVec.ofNat 2 w) (List.replicate c.tickBytes 0)
  else if 1 ≤ w ∧ w ≤ 12 then .host (BitVec.ofNat 4 w) (List.replicate 16 0)
  else .bus [BitVec.ofNat 8 w]

/-- The instruction the decoder reads from the bits of a table row (`tableWord`). -/
def decodeTableWord (nbits w : Nat) : Option Instr :=
  match decode Cfg.cfg0 (tableWord Cfg.cfg0 nbits w) with
  | .ok i => some i
  | .error _ => none

/-- The row of spec/opcode_table.json an operation belongs to, as its match and mask. -/
def tableRow : Instr → Nat × Nat
  | .init => (0x1, 0xF)
  | .setCh _ => (0x2, 0xF)
  | .setPan _ => (0x3, 0xF)
  | .setAddr _ => (0x4, 0xF)
  | .setSeq _ => (0x5, 0xF)
  | .setMac _ => (0x6, 0xF)
  | .setKey _ => (0x7, 0xF)
  | .tx _ _ _ _ => (0x8, 0xF)
  | .isNew => (0x9, 0xF)
  | .rx => (0xA, 0xF)
  | .getLast => (0xB, 0xF)
  | .discover => (0xC, 0xF)
  | .dlyInit _ => (0x0, 0x3)
  | .dlyRead => (0x1, 0x3)
  | .dlyReset => (0x2, 0x3)
  | .dlyWrite _ => (0x3, 0x3)
  | .encSr _ => (0x00, 0x81)
  | .encSw _ => (0x01, 0x81)
  | .encLr _ => (0x8000, 0x801F)
  | .encLw _ => (0x8010, 0x801F)
  | .raSrd _ _ => (0x0, 0x3)
  | .raSwr _ _ => (0x1, 0x3)
  | .raLrd _ _ => (0x2, 0x3)
  | .raLwr _ _ => (0x3, 0x3)

/-- The bits of a port word that spec/opcode_table.json numbers: the code at a select port, the address
word on the bus. -/
def PortWord.tableBits : PortWord → Nat
  | .host cmd _ => cmd.toNat
  | .dly op _ => op.toNat
  | .ac sel _ => sel.toNat
  | .ra sel _ => sel.toNat
  | .bus [b] => b.toNat
  | .bus [hi, lo] => (joinBytes hi lo).toNat
  | .bus _ => 0

end Sys2Proof
end

