-- ==== Sys2Proof/Machine/State.lean ====
section
/-! DEFINITION. The state of the block (10_state.md), as plain data, with the model's own fields that
carry the configuration, the host's program, the port's answer, the environment's coming answers and the
trace of events; the reasons a step stops; reset (10_state.md R34). -/

namespace Sys2Proof.Machine

/-- RadioIdentity `id`, owned by unit `CS` (10_state.md R21). -/
structure RadioIdentity where
  mac : Vector Byte 8
  key : Vector Byte 16
  pan : Half
  addr : Half
  seq : Byte
  chan : Byte
deriving DecidableEq, Repr

/-- OutboundFrame `txf`, the last-built frame (10_state.md R24). -/
structure OutboundFrame where
  dstAddr : Half
  dstPan : Option Half
  orgAddr : Option Half
  buf : List Byte
  len : Byte
deriving DecidableEq, Repr

/-- InboundFrame `rxf`, the last decoded frame (10_state.md R25). -/
structure InboundFrame where
  src : Half
  buf : List Byte
  len : Byte
deriving DecidableEq, Repr

/-- DriverStatus `status` (10_state.md R27). -/
inductive DriverStatus where
  | uninit
  | initOk
  | timeout
deriving DecidableEq, Repr

/-- The sequencer step register `step` (10_state.md R28): `idle` is 0, `stepN` is N. -/
inductive SeqStep where
  | idle
  | step1
  | step2
  | step3
  | step4
  | step5
  | step6
  | step7
  | step8
  | step9
  | step10
  | step11
deriving DecidableEq, Repr

/-- DelayState `dly` (10_state.md R29); ticks are naturals below `2^TICK_W` [10]. -/
structure DelayState where
  start : Nat
  duration : Nat
  running : Bool
deriving DecidableEq, Repr

/-- The result codes (00_scope.md R12). -/
inductive Result where
  | ok
  | initOk
  | txCompleted
  | msgPresent
  | bufEmpty
  | invalidValue
  | invalidArg
  | transportFail
  | noDest
  | noPayload
  | tooLong
  | timeout
  | notReady
  | decodeError
deriving DecidableEq, Repr

/-- What an operation hands back to its caller [5]. -/
inductive Answer where
  /-- A result code (30_encoding.md R103): every command but `GETLAST`, and the `RA` writes. -/
  | result (r : Result)
  /-- `GETLAST`: the result `OK` and the reference to the last frame (45_parser.md R210). The view is the
  live register `rxf` (10_state.md R26), read by `State.lastFrame`. -/
  | okView
  /-- `DLY.INIT`, `DLY.RESET`, `DLY.WRITE` end without a result (40_delay.md R111, R113, R114). -/
  | done
  /-- `DLY.READ`: whether the delay has expired (40_delay.md R112). -/
  | expired (b : Bool)
  /-- `ENC.SR`, `ENC.SW`: the short address byte (41_codec_regaccess.md R121, R122). -/
  | shortWord (b : Byte)
  /-- `ENC.LR`, `ENC.LW`: the long address word (41_codec_regaccess.md R123, R124). -/
  | longWord (w : Half)
  /-- `RA.SRD`, `RA.LRD`: the result code, and the byte when the read had a destination
  (41_codec_regaccess.md R126, R128, R132). -/
  | read (r : Result) (b : Option Byte)
deriving DecidableEq, Repr

/-- An event with the environment's answer to it (20_memory.md R51 to R56). A level is `false` for 0
(low), `true` for 1 (high). -/
inductive Event where
  | cs (level : Bool)
  | w1 (b : Byte) (ok : Bool)
  | w2 (w : Half) (ok : Bool)
  | r1 (ok : Bool) (b : Byte)
  | wake (level : Bool)
  | resetPin (level : Bool)
  | int (pending : Bool)
  | now (t : Nat)
deriving DecidableEq, Repr

/-- The environment's coming answers to one kind of event [1]: the listed ones in order, then free
values, `drawn` of which have been used. -/
structure Feed (α : Type) where
  given : List α
  drawn : Nat
deriving DecidableEq, Repr

/-- The block's edge: the environment's coming answers to `W1` and `W2` (`oks`), `R1` (`reads`), `INT`
(`pins`) and `NOW` (`ticks`) [1], and the trace of the events emitted so far, oldest first [6]. -/
structure Io where
  oks : Feed Bool
  reads : Feed (Bool × Byte)
  pins : Feed Bool
  ticks : Feed Nat
  trace : List Event
deriving DecidableEq, Repr

/-- What the outside does to the block, one item at a time [4]. The first item of the inbox is what it does
now. -/
inductive Input where
  /-- A word is presented at a port, now: an idle block takes it, a busy one refuses it
  (70_reset_and_hazards.md R266). -/
  | request (w : PortWord)
  /-- A pulse of the reset input (70_reset_and_hazards.md R250). -/
  | reset
  /-- Nothing is presented until the command in progress has returned its result: a host that keeps to
  20_memory.md R66. -/
  | await
deriving DecidableEq, Repr

/-- The state: the block's registers `id`, `txf`, `rxf`, `status`, `stepReg`, `dly` (10_state.md R20) and
the model's own fields `cfg` [2], `inbox` [4], `answer` [5], `io` [1] [6]. -/
structure State where
  cfg : Cfg
  id : RadioIdentity
  txf : OutboundFrame
  rxf : InboundFrame
  status : DriverStatus
  stepReg : SeqStep
  dly : DelayState
  inbox : List Input
  answer : Option Answer
  io : Io
deriving DecidableEq, Repr

/-- The block never faults: "a result code is an ordinary return value, not a fault" (60_exceptions.md
R240). No reason of a fault exists, so no step answers one (safe). -/
inductive Fault : Type
deriving DecidableEq, Repr

/-- Why a step is refused: the things with no meaning of 60_exceptions.md R240. Each is safe: the model
claims nothing of what the spec gives no meaning. -/
inductive Refusal where
  /-- An instruction without a meaning yet, raised by an arm of `exec` only (safe). No arm raises it. -/
  | notModelled (mnemonic : String)
  /-- The configuration fails a line of 00_scope.md R8; raised by every operation and by `step` (safe). -/
  | illFormedCfg
  /-- A word presented while a command is in progress (20_memory.md R66, 70_reset_and_hazards.md R266);
  raised by `step` for every word, and by the twelve host commands (safe). -/
  | busy
  /-- `DLY.READ` with the timer not running (40_delay.md R116); raised by `execDlyRead` (safe). -/
  | delayNotRunning
  /-- A duration that is no `u(TICK_W)` (40_delay.md R111, R114); raised by `execDlyInit` and
  `execDlyWrite` (safe). -/
  | durationRange
  /-- A register address that is no long address (41_codec_regaccess.md R125); raised by `execTx` when
  the last frame position lies beyond address 1023 [12] (safe). -/
  | addressRange
  /-- A port word the decoder rejects (30_encoding.md R100, 41_codec_regaccess.md R125); raised by `step`
  (safe). -/
  | rejectedWord (why : DecodeError)
deriving DecidableEq, Repr

/-- `n` zero bytes. -/
def zeroBytes (n : Nat) : List Byte := List.replicate n 0#8

/-- The block just after power-on under configuration `c` (10_state.md R34): `id.chan`, `status`, `step`
and `dly.running` as the spec gives them; every register it leaves unspecified at zero or absent, DESIGN
CHOICE [3]; the model's own fields empty. -/
def State.powerOn (c : Cfg) : State where
  cfg := c
  id := { mac := Vector.replicate 8 0#8, key := Vector.replicate 16 0#8, pan := 0#16, addr := 0#16,
          seq := 0#8, chan := c.chUnset }
  txf := { dstAddr := 0#16, dstPan := none, orgAddr := none, buf := zeroBytes c.maxBuf, len := 0#8 }
  rxf := { src := 0#16, buf := zeroBytes c.maxBuf, len := 0#8 }
  status := .uninit
  stepReg := .idle
  dly := { start := 0, duration := 0, running := false }
  inbox := []
  answer := none
  io := { oks := ⟨[], 0⟩, reads := ⟨[], 0⟩, pins := ⟨[], 0⟩, ticks := ⟨[], 0⟩, trace := [] }

/-- The machine right after reset: power-on under the spec's default configuration [2]. -/
def State.reset : State := State.powerOn Cfg.cfg0

end Sys2Proof.Machine
end

