-- ==== Sys2Proof/Machine/Operands.lean ====
section
/-! DEFINITION. Operand forms: FIFO positions (20_memory.md R50), optional operands (44_builder.md R193),
byte arrays laid over a buffer, and the frame layout `TXF` (30_encoding.md R88). -/

namespace Sys2Proof.Machine

/-- Whether position `p` of a FIFO at `base` is a long address (20_memory.md R50, 41_codec_regaccess.md
R125). -/
def positionOk (base : LongAddr) (p : Nat) : Bool := decide (base.toNat + p ≤ 1023)

/-- The long address of position `p` of a FIFO at `base` (20_memory.md R50). -/
def position (base : LongAddr) (p : Nat) : LongAddr := BitVec.ofNat 10 (base.toNat + p)

/-- An optional operand with its substitute: the caller's value, or the store's own (44_builder.md
R193). -/
def substitute (operand : Option Half) (own : Half) : Half := operand.getD own

/-- `buf[i] <- bs[i]` for every `i` below the length of `bs`, the rest of `buf` kept (44_builder.md R192,
45_parser.md R206). -/
def overlay (bs buf : List Byte) : List Byte := bs ++ buf.drop bs.length

/-- The transmit FIFO frame, position 0 first (30_encoding.md R88). -/
def frameBytes (c : Cfg) (seq : Byte) (pan dst org : Half) (payload : List Byte) : List Byte :=
  [BitVec.ofNat 8 c.hdrLen, BitVec.ofNat 8 (payload.length + c.hdrLen), c.fc0, c.fc1, seq,
    lo8 pan, hi8 pan, lo8 dst, hi8 dst, lo8 org, hi8 org] ++ payload ++ [0#8]

/-- Bytes at the consecutive positions of a FIFO from position `p` on, each with its long address. -/
def atPositions (base : LongAddr) (p : Nat) : List Byte → List (LongAddr × Byte)
  | [] => []
  | b :: bs => (position base p, b) :: atPositions base (p + 1) bs

/-- The long addresses of `n` consecutive positions of a FIFO from position `p` on. -/
def positions (base : LongAddr) (p : Nat) : Nat → List LongAddr
  | 0 => []
  | n + 1 => position base p :: positions base (p + 1) n

/-- The eight MAC registers with their bytes: `S[REG_EADR0 + i]` takes `mac[i]` (42_init.md R151). -/
def macWrites (first : ShortAddr) (i : Nat) : List Byte → List (ShortAddr × Byte)
  | [] => []
  | b :: bs => (BitVec.ofNat 6 (first.toNat + i), b) :: macWrites first (i + 1) bs

/-- Whether a byte is one of the 16 channel values (43_config.md R172). -/
def isChannel (c : Cfg) (ch : Byte) : Bool := c.chanValues.toList.contains ch

/-- Subtraction in `u(TICK_W)`, modulo `2^w` (40_delay.md R112). -/
def tickSub (w t start : Nat) : Nat := (t + (2 ^ w - start % 2 ^ w)) % 2 ^ w

end Sys2Proof.Machine
end

