-- ==== Sys2Proof/Machine/Flags.lean ====
section
/-! DEFINITION. The flag-like predicates (10_state.md R30), the codes of status, step and results
(R27, R28, 30_encoding.md R103), and the outcomes computed from the environment's answers
(41_codec_regaccess.md R131, 42_init.md R145). -/

namespace Sys2Proof.Machine

/-- "Defaults not yet loaded": `id.chan = CH_UNSET` (10_state.md R23). -/
def State.defaultsUnset (s : State) : Bool := s.id.chan == s.cfg.chUnset

/-- The gate: `status = INIT_OK` (10_state.md R27, 60_exceptions.md R232). -/
def State.ready (s : State) : Bool := s.status == .initOk

/-- No command is in progress: `step = 0` (10_state.md R28). -/
def State.isIdle (s : State) : Bool := s.stepReg == .idle

/-- The two-bit coding of `status` (10_state.md R27). -/
def DriverStatus.code : DriverStatus → BitVec 2
  | .uninit => 0#2
  | .initOk => 1#2
  | .timeout => 2#2

/-- The `u4` value of `step` (10_state.md R28). -/
def SeqStep.code : SeqStep → BitVec 4
  | .idle => 0#4
  | .step1 => 1#4
  | .step2 => 2#4
  | .step3 => 3#4
  | .step4 => 4#4
  | .step5 => 5#4
  | .step6 => 6#4
  | .step7 => 7#4
  | .step8 => 8#4
  | .step9 => 9#4
  | .step10 => 10#4
  | .step11 => 11#4

/-- The result codes on `res : u4` (30_encoding.md R103). -/
def Result.code : Result → BitVec 4
  | .ok => 0x0#4
  | .initOk => 0x1#4
  | .txCompleted => 0x2#4
  | .msgPresent => 0x3#4
  | .bufEmpty => 0x4#4
  | .invalidValue => 0x5#4
  | .invalidArg => 0x6#4
  | .transportFail => 0x7#4
  | .noDest => 0x8#4
  | .noPayload => 0x9#4
  | .tooLong => 0xA#4
  | .timeout => 0xB#4
  | .notReady => 0xC#4
  | .decodeError => 0xD#4

/-- The value on `res : u4` for an answer; the `DLY` and `ENC` operations have none (60_exceptions.md
R221). -/
def Answer.res : Answer → Option (BitVec 4)
  | .result r => some r.code
  | .okView => some Result.ok.code
  | .done => none
  | .expired _ => none
  | .shortWord _ => none
  | .longWord _ => none
  | .read r _ => some r.code

/-- The result of a transaction from its two transfers' answers (41_codec_regaccess.md R131). -/
def transferResult (ok1 ok2 : Bool) : Result := if ok1 && ok2 then .ok else .transportFail

/-- `INT` mapped to the result of `ISNEW` (45_parser.md R200). -/
def pendingResult (pending : Bool) : Result := if pending then .msgPresent else .bufEmpty

/-- The three outcomes of one poll iteration (42_init.md R145). -/
inductive PollOutcome where
  | ready
  | timedOut
  | waiting
deriving DecidableEq, Repr

/-- The outcome of one poll iteration, the tie decided by `POLL_TIE` (42_init.md R145, R146). -/
def pollOutcome (tie : PollTie) (ready expired : Bool) : PollOutcome :=
  match ready, expired with
  | true, false => .ready
  | false, true => .timedOut
  | false, false => .waiting
  | true, true =>
    match tie with
    | .readyWins => .ready
    | .timeoutWins => .timedOut

/-- Step 2's condition: the reset bits read back clear (42_init.md R148). -/
def resetClear (c : Cfg) (v : Byte) : Bool := v &&& c.map.softRstBits == 0#8

/-- Step 7's condition: the RX-state bits equal the RX-ready value (42_init.md R155). -/
def rxStateReady (c : Cfg) (v : Byte) : Bool := v &&& c.map.rfStateMask == c.map.rfStateRx

/-- The length check of `RX`: `flen < 4`, or more payload than the buffer holds (45_parser.md R205). -/
def badLength (c : Cfg) (flen : Byte) : Bool :=
  decide (flen.toNat < trailerLen) || decide (c.maxBuf < flen.toNat - trailerLen)

end Sys2Proof.Machine
end

