-- ==== Sys2Proof/Machine/Ops.lean ====
section
/-! DEFINITION. The named operations every meaning is built from: asking the environment and emitting
events (20_memory.md R51 to R56), the four transactions (41_codec_regaccess.md R126 to R131) and the
pseudo-operations over them (30_encoding.md R102), updates of single registers, the delay
(40_delay.md), the default loader (43_config.md R171), returning a result (the block's counterpart of
taking an exception, 00_scope.md R11, 60_exceptions.md R220), the guards every operation passes, and the
reset input (70_reset_and_hazards.md R250). -/

namespace Sys2Proof.Machine

/-- What a step or a meaning answers. -/
abbrev Out := Host.Outcome State Fault Refusal

/-! ## The environment's answers -/

/-- The next answer of a feed, and the feed after it: the head of the listed answers, or a free value
[1]. -/
def Feed.next {α : Type} (free : Nat → α) (q : Feed α) : α × Feed α :=
  match q.given with
  | a :: rest => (a, { q with given := rest })
  | [] => (free q.drawn, { q with drawn := q.drawn + 1 })

/-- The `k`-th answer to come, counted from 0. -/
def Feed.nth {α : Type} (free : Nat → α) (q : Feed α) (k : Nat) : α :=
  match q.given[k]? with
  | some a => a
  | none => free (q.drawn + (k - q.given.length))

/-- A feed after `k` answers have been taken. -/
def Feed.skip {α : Type} (q : Feed α) (k : Nat) : Feed α :=
  ⟨q.given.drop k, q.drawn + (k - q.given.length)⟩

/-- The `k`-th `ok` answer to come. -/
def Io.okAt (io : Io) (k : Nat) : Bool := io.oks.nth Config.freeOk k

/-- The `k`-th `R1` answer to come. -/
def Io.readAt (io : Io) (k : Nat) : Bool × Byte := io.reads.nth Config.freeRead k

/-- The `k`-th `INT` answer to come. -/
def Io.pinAt (io : Io) (k : Nat) : Bool := io.pins.nth Config.freePending k

/-- The `k`-th `NOW` answer to come, a `u(w)` (20_memory.md R56). -/
def Io.tickAt (w : Nat) (io : Io) (k : Nat) : Nat := io.ticks.nth Config.freeTick k % 2 ^ w

/-! ## Events -/

/-- `emit E` (00_scope.md R11): the event joins the trace. -/
def Io.emit (e : Event) (io : Io) : Io := { io with trace := io.trace ++ [e] }

/-- `emit CS(level)` (20_memory.md R55). -/
def Io.cs (level : Bool) (io : Io) : Io := io.emit (.cs level)

/-- `emit W1(b) -> ok` (20_memory.md R52). -/
def Io.w1 (b : Byte) (io : Io) : Bool × Io :=
  let a := io.oks.next Config.freeOk
  (a.1, Io.emit (.w1 b a.1) { io with oks := a.2 })

/-- `emit W2(w) -> ok` (20_memory.md R53). -/
def Io.w2 (w : Half) (io : Io) : Bool × Io :=
  let a := io.oks.next Config.freeOk
  (a.1, Io.emit (.w2 w a.1) { io with oks := a.2 })

/-- `emit R1() -> (ok, b)` (20_memory.md R54). -/
def Io.r1 (io : Io) : (Bool × Byte) × Io :=
  let a := io.reads.next Config.freeRead
  (a.1, Io.emit (.r1 a.1.1 a.1.2) { io with reads := a.2 })

/-- `emit INT() -> pending` (20_memory.md R56). -/
def Io.int (io : Io) : Bool × Io :=
  let a := io.pins.next Config.freePending
  (a.1, Io.emit (.int a.1) { io with pins := a.2 })

/-- `emit NOW() -> t`, `t` a `u(w)` (20_memory.md R56) [10]. -/
def Io.now (w : Nat) (io : Io) : Nat × Io :=
  let a := io.ticks.next Config.freeTick
  (a.1 % 2 ^ w, Io.emit (.now (a.1 % 2 ^ w)) { io with ticks := a.2 })

/-- One event of `PIN_PROLOGUE` (42_init.md R143). -/
def PinEvent.event : PinEvent → Event
  | .cs level => .cs level
  | .wake level => .wake level
  | .resetPin level => .resetPin level

/-- The bytes an event puts on the bus, in order: the long address word high byte first (20_memory.md
R59). -/
def Event.wireBytes : Event → List Byte
  | .w1 b _ => [b]
  | .w2 w _ => [hi8 w, lo8 w]
  | .cs _ => []
  | .r1 _ _ => []
  | .wake _ => []
  | .resetPin _ => []
  | .int _ => []
  | .now _ => []

/-! ## Transactions -/

/-- `RA.SWR(a, v)` (41_codec_regaccess.md R127). -/
def Io.shortWrite (a : ShortAddr) (v : Byte) (io : Io) : Result × Io :=
  let t1 := (io.cs false).w1 (shortWriteWord a)
  let t2 := t1.2.w1 v
  (transferResult t1.1 t2.1, t2.2.cs true)

/-- `RA.SRD(a, false)` (41_codec_regaccess.md R126): the result code and the byte delivered. -/
def Io.shortRead (a : ShortAddr) (io : Io) : (Result × Byte) × Io :=
  let t1 := (io.cs false).w1 (shortReadWord a)
  let t2 := t1.2.r1
  ((transferResult t1.1 t2.1.1, t2.1.2), t2.2.cs true)

/-- `RA.LWR(a, v)` (41_codec_regaccess.md R129). -/
def Io.longWrite (a : LongAddr) (v : Byte) (io : Io) : Result × Io :=
  let t1 := (io.cs false).w2 (longWriteWord a)
  let t2 := t1.2.w1 v
  (transferResult t1.1 t2.1, t2.2.cs true)

/-- `RA.LRD(a, false)` (41_codec_regaccess.md R128): the result code and the byte delivered. -/
def Io.longRead (a : LongAddr) (io : Io) : (Result × Byte) × Io :=
  let t1 := (io.cs false).w2 (longReadWord a)
  let t2 := t1.2.r1
  ((transferResult t1.1 t2.1.1, t2.1.2), t2.2.cs true)

/-- `SWrite(a, v)`: the write with its result code dropped (30_encoding.md R102). -/
def Io.sWrite (a : ShortAddr) (v : Byte) (io : Io) : Io := (io.shortWrite a v).2

/-- `SRead(a)`: the byte of the read, its result code dropped (30_encoding.md R102). -/
def Io.sRead (a : ShortAddr) (io : Io) : Byte × Io := ((io.shortRead a).1.2, (io.shortRead a).2)

/-- `LWrite(a, v)` (30_encoding.md R102). -/
def Io.lWrite (a : LongAddr) (v : Byte) (io : Io) : Io := (io.longWrite a v).2

/-- `LRead(a)` (30_encoding.md R102). -/
def Io.lRead (a : LongAddr) (io : Io) : Byte × Io := ((io.longRead a).1.2, (io.longRead a).2)

/-- `SWrite` for every entry of a list, in list order. -/
def Io.sWrites : List (ShortAddr × Byte) → Io → Io
  | [], io => io
  | (a, v) :: rest, io => (io.sWrite a v).sWrites rest

/-- `LWrite` for every entry of a list, in list order. -/
def Io.lWrites : List (LongAddr × Byte) → Io → Io
  | [], io => io
  | (a, v) :: rest, io => (io.lWrite a v).lWrites rest

/-- `LRead` for every address of a list, in list order, and the bytes read. -/
def Io.lReads : List LongAddr → Io → List Byte × Io
  | [], io => ([], io)
  | a :: rest, io =>
    let r := io.lRead a
    let rs := r.2.lReads rest
    (r.1 :: rs.1, rs.2)

/-! ## Single registers -/

/-- The block's edge after an action on it. -/
def State.withIo (s : State) (io : Io) : State := { s with io := io }

/-- `id <- v`. -/
def State.withId (s : State) (v : RadioIdentity) : State := { s with id := v }

/-- `txf <- v`. -/
def State.withTxf (s : State) (v : OutboundFrame) : State := { s with txf := v }

/-- `rxf <- v`. -/
def State.withRxf (s : State) (v : InboundFrame) : State := { s with rxf := v }

/-- `status <- v`. -/
def State.withStatus (s : State) (v : DriverStatus) : State := { s with status := v }

/-- `step <- v`. -/
def State.withStep (s : State) (v : SeqStep) : State := { s with stepReg := v }

/-- `dly <- v`. -/
def State.withDly (s : State) (v : DelayState) : State := { s with dly := v }

/-- The inputs still to be presented. -/
def State.withInbox (s : State) (v : List Input) : State := { s with inbox := v }

/-- What the port answers. -/
def State.withAnswer (s : State) (v : Option Answer) : State := { s with answer := v }

/-- The operation hands back `a`. -/
def State.give (s : State) (a : Answer) : State := s.withAnswer (some a)

/-- `return RES`: the command ends with its result code. The block has no trap; this is its one
counterpart of taking an exception (00_scope.md R11, 60_exceptions.md R220). -/
def State.ret (s : State) (r : Result) : State := s.give (.result r)

/-- The `GETLAST` view, the live register (30_encoding.md R97, 10_state.md R26): source, length,
buffer. -/
def State.lastFrame (s : State) : Half × Byte × List Byte := (s.rxf.src, s.rxf.len, s.rxf.buf)

/-! ## The delay -/

/-- `DLY.INIT(d)` (40_delay.md R111). -/
def State.delayInit (d : Nat) (s : State) : State :=
  let n := s.io.now s.cfg.tickW
  (s.withIo n.2).withDly { start := n.1, duration := d, running := true }

/-- `DLY.RESET()` (40_delay.md R113). -/
def State.delayReset (s : State) : State :=
  let n := s.io.now s.cfg.tickW
  (s.withIo n.2).withDly { s.dly with start := n.1, running := true }

/-- The elapsed check at tick `t` (40_delay.md R112): `elapsed >= duration` in `u(w)`. -/
def DelayState.expiredAt (w t : Nat) (d : DelayState) : Bool := decide (d.duration ≤ tickSub w t d.start)

/-- `DLY.READ()` of a running timer (40_delay.md R112): the answer, and the state with its `NOW`. -/
def State.delayRead (s : State) : Bool × State :=
  let n := s.io.now s.cfg.tickW
  (s.dly.expiredAt s.cfg.tickW n.1, s.withIo n.2)

/-! ## The default loader -/

/-- The factory defaults (43_config.md R171). -/
def factoryId (c : Cfg) : RadioIdentity where
  mac := c.defMac
  key := c.defKey
  pan := c.defPanId
  addr := c.defAddr
  seq := c.defSeq
  chan := c.defChannel

/-- `LOADDEF` (43_config.md R171). -/
def State.loadDef (s : State) : State := if s.defaultsUnset then s.withId (factoryId s.cfg) else s

/-! ## Guards -/

/-- A unit operation: refused under an ill-formed configuration (00_scope.md R8). Driven alone [14], it
finds no command in its way. -/
def unitOp (s : State) (body : State → Out) : Out :=
  if s.cfg.wf then body s else .refused .illFormedCfg

/-- A host command: refused under an ill-formed configuration (00_scope.md R8) and while another command
is in progress (20_memory.md R66). -/
def command (s : State) (body : State → Out) : Out :=
  if s.cfg.wf then (if s.isIdle then body s else .refused .busy) else .refused .illFormedCfg

/-- A gated command: `NOT_READY` at once unless `status = INIT_OK` (60_exceptions.md R232). -/
def gated (s : State) (body : State → Out) : Out :=
  command s fun s => if s.ready then body s else .next (s.ret .notReady)

/-! ## The reset input -/

/-- The reset input (70_reset_and_hazards.md R250, R251): every register as after power-on, no event, a
command in progress gone; the configuration, the environment and the inputs still to come stay. -/
def State.resetInput (s : State) : State :=
  ((State.powerOn s.cfg).withIo s.io).withInbox s.inbox

end Sys2Proof.Machine
end

