-- ==== Sys2Proof/Machine/Builder.lean ====
section
/-! DEFINITION. Unit `PB` (44_builder.md): `TX`. -/

namespace Sys2Proof.Machine

/-- The outbound-frame register after an accepted `TX` (44_builder.md R192). -/
def builtFrame (old : OutboundFrame) (dst : Half) (dpan org : Option Half) (payload : List Byte) :
    OutboundFrame where
  dstAddr := dst
  dstPan := dpan
  orgAddr := org
  buf := overlay payload old.buf
  len := BitVec.ofNat 8 payload.length

/-- The frame an accepted `TX` writes, its optional operands substituted (44_builder.md R193). -/
def State.txFrame (s : State) (dst : Half) (dpan org : Option Half) (payload : List Byte) : List Byte :=
  frameBytes s.cfg s.id.seq (substitute dpan s.id.pan) dst (substitute org s.id.addr) payload

/-- An accepted `TX` (44_builder.md R192 to R195): the register, the FIFO writes, the sequence number, the
trigger. -/
def txAccepted (s : State) (dst : Half) (dpan org : Option Half) (payload : List Byte) : State :=
  let writes := atPositions s.cfg.map.txFifoBase 0 (s.txFrame dst dpan org payload)
  let io := (s.io.lWrites writes).sWrite s.cfg.map.regTxnCon s.cfg.map.txnConTrigAck
  (((s.withTxf (builtFrame s.txf dst dpan org payload)).withIo io).withId
    { s.id with seq := s.id.seq + 1#8 }).ret .txCompleted

/-- `TX dst, dpan, org, payload` (44_builder.md R190): the checks of R191 in their order, then the frame. A
frame whose last position is no long address is refused [12]. -/
def execTx (dst : Half) (dpan org : Option Half) (payload : List Byte) (s : State) : Out :=
  gated s fun s =>
    if dst = 0#16 then .next (s.ret .noDest)
    else if payload.length = 0 then .next (s.ret .noPayload)
    else if s.cfg.maxBuf < payload.length then .next (s.ret .tooLong)
    else if positionOk s.cfg.map.txFifoBase (11 + payload.length) then
      .next (txAccepted s dst dpan org payload)
    else .refused .addressRange

end Sys2Proof.Machine
end

