-- ==== Sys2Proof/Machine/Codec.lean ====
section
/-! DEFINITION. Unit `AC` (41_codec_regaccess.md R121 to R124): the four encoders. They hand back an
address word; no event, no other effect: the unit has no state, so no flag and no register is written
(R120, 10_state.md R31). -/

namespace Sys2Proof.Machine

/-- `ENC.SR r` (41_codec_regaccess.md R121). -/
def execEncSr (r : ShortAddr) (s : State) : Out :=
  unitOp s fun s => .next (s.give (.shortWord (shortReadWord r)))

/-- `ENC.SW r` (41_codec_regaccess.md R122). -/
def execEncSw (r : ShortAddr) (s : State) : Out :=
  unitOp s fun s => .next (s.give (.shortWord (shortWriteWord r)))

/-- `ENC.LR r` (41_codec_regaccess.md R123). -/
def execEncLr (r : LongAddr) (s : State) : Out :=
  unitOp s fun s => .next (s.give (.longWord (longReadWord r)))

/-- `ENC.LW r` (41_codec_regaccess.md R124). -/
def execEncLw (r : LongAddr) (s : State) : Out :=
  unitOp s fun s => .next (s.give (.longWord (longWriteWord r)))

end Sys2Proof.Machine
end

