-- ==== Sys2Proof/Machine/ConfigStore.lean ====
section
/-! DEFINITION. Unit `CS` (43_config.md): the six setters. Each validates, then loads the defaults, then
stores (R178); a rejected setter changes nothing, and none emits an event. -/

namespace Sys2Proof.Machine

/-- An accepted setter: `LOADDEF`, then the store, then `OK` (43_config.md R178). -/
def State.store (s : State) (f : RadioIdentity → RadioIdentity) : State :=
  (s.loadDef.withId (f s.loadDef.id)).ret .ok

/-- A setter: a value that fails its check is `INVALID_VALUE` (43_config.md R170). -/
def setter (s : State) (valid : State → Bool) (f : RadioIdentity → RadioIdentity) : Out :=
  command s fun s => if valid s then .next (s.store f) else .next (s.ret .invalidValue)

/-- `SET.CH ch` (43_config.md R172): valid is membership in the 16 channel values. -/
def execSetCh (ch : Byte) (s : State) : Out :=
  setter s (fun s => isChannel s.cfg ch) fun id => { id with chan := ch }

/-- `SET.PAN pan` (43_config.md R173): valid is anything but the broadcast value. -/
def execSetPan (pan : Half) (s : State) : Out :=
  setter s (fun s => !(pan == s.cfg.broadcast)) fun id => { id with pan := pan }

/-- `SET.ADDR addr` (43_config.md R174): valid is anything but the broadcast value. -/
def execSetAddr (addr : Half) (s : State) : Out :=
  setter s (fun s => !(addr == s.cfg.broadcast)) fun id => { id with addr := addr }

/-- `SET.SEQ seq` (43_config.md R175): every value is accepted. -/
def execSetSeq (seq : Byte) (s : State) : Out :=
  setter s (fun _ => true) fun id => { id with seq := seq }

/-- `SET.MAC mac` (43_config.md R176): valid is any array with a non-zero byte. -/
def execSetMac (mac : Vector Byte 8) (s : State) : Out :=
  setter s (fun _ => !allZero mac.toList) fun id => { id with mac := mac }

/-- `SET.KEY key` (43_config.md R177): valid is any array with a non-zero byte. -/
def execSetKey (key : Vector Byte 16) (s : State) : Out :=
  setter s (fun _ => !allZero key.toList) fun id => { id with key := key }

end Sys2Proof.Machine
end

