-- ==== Sys2Proof/Machine/Delay.lean ====
section
/-! DEFINITION. Unit `DLY` (40_delay.md): `DLY.INIT`, `DLY.READ`, `DLY.RESET`, `DLY.WRITE`. -/

namespace Sys2Proof.Machine

/-- `DLY.INIT d` (40_delay.md R111); `d` is a `u(TICK_W)`. -/
def execDlyInit (d : Nat) (s : State) : Out :=
  unitOp s fun s =>
    if d < 2 ^ s.cfg.tickW then .next ((s.delayInit d).give .done) else .refused .durationRange

/-- `DLY.READ` (40_delay.md R112); with the timer not running it is refused (R116). -/
def execDlyRead (s : State) : Out :=
  unitOp s fun s =>
    if s.dly.running then .next (s.delayRead.2.give (.expired s.delayRead.1)) else .refused .delayNotRunning

/-- `DLY.RESET` (40_delay.md R113). -/
def execDlyReset (s : State) : Out :=
  unitOp s fun s => .next (s.delayReset.give .done)

/-- `DLY.WRITE d` (40_delay.md R114); `d` is a `u(TICK_W)`. -/
def execDlyWrite (d : Nat) (s : State) : Out :=
  unitOp s fun s =>
    if d < 2 ^ s.cfg.tickW then .next ((s.withDly { s.dly with duration := d }).give .done)
    else .refused .durationRange

end Sys2Proof.Machine
end

