-- ==== Sys2Proof/Machine/Init.lean ====
section
/-! DEFINITION. Unit `IS` (42_init.md): `INIT`, a straight line of 11 steps with two polling loops (steps 2
and 7) and two settle waits (steps 3 and 9). The loops have no bound in iterations (R146), so the
sequencer moves one loop iteration at a time: `sequencerStep` makes the iteration the step register is
at, with the straight-line steps that follow when the loop ends, and leaves the register at the next
loop. `execInit` accepts the command and goes on for as long as the supplied ticks last; a sequencer
still in a loop then goes on with the machine's next steps [9]. -/

namespace Sys2Proof.Machine

/-- An action on the block's edge inside a step. -/
def State.edge (s : State) (f : Io → Io) : State := s.withIo (f s.io)

/-- One iteration of `Poll(read, cond)` (42_init.md R145): the read, then the elapsed check, both; then
on, or `TIMEOUT`, or the next iteration. -/
def pollIteration (read : Io → Byte × Io) (cond : Byte → Bool) (onReady : State → State) (s : State) :
    State :=
  let v := read s.io
  let e := (s.withIo v.2).delayRead
  match pollOutcome s.cfg.pollTie (cond v.1) e.1 with
  | .ready => onReady e.2
  | .timedOut => ((e.2.withStatus .timeout).withStep .idle).ret .timeout
  | .waiting => e.2

/-- One iteration of `Wait(d)` (42_init.md R144): one elapsed check, then on or the next iteration. -/
def waitIteration (onExpired : State → State) (s : State) : State :=
  let e := s.delayRead
  if e.1 then onExpired e.2 else e.2

/-- The pin prologue (42_init.md R143). -/
def pinPrologue (s : State) : State :=
  s.edge fun io => s.cfg.pinPrologue.foldl (fun io e => io.emit (PinEvent.event e)) io

/-- Step 1, software reset (42_init.md R147). -/
def initStep1 (s : State) : State :=
  (s.withStep .step1).edge (Io.sWrite s.cfg.map.regSoftRst s.cfg.map.softRstBits)

/-- Step 2, its delay started (42_init.md R148, R145). -/
def initStep2 (s : State) : State := (s.withStep .step2).delayInit s.cfg.timeoutTicks

/-- Step 3, its delay started (42_init.md R149, R144). -/
def initStep3 (s : State) : State := (s.withStep .step3).delayInit s.cfg.settle1Ticks

/-- Step 3 after its wait: flush the receive FIFO (42_init.md R149). -/
def initStep3Flush (s : State) : State :=
  s.edge (Io.sWrite s.cfg.map.regRxFlush s.cfg.map.rxFlushInit)

/-- Step 4, addressing (42_init.md R150). -/
def initStep4 (s : State) : State :=
  (s.withStep .step4).edge (Io.sWrites
    [(s.cfg.map.regPanIdH, hi8 s.id.pan), (s.cfg.map.regPanIdL, lo8 s.id.pan),
      (s.cfg.map.regSadrH, hi8 s.id.addr), (s.cfg.map.regSadrL, lo8 s.id.addr)])

/-- Step 5, MAC (42_init.md R151). -/
def initStep5 (s : State) : State :=
  (s.withStep .step5).edge (Io.sWrites (macWrites s.cfg.map.regEadr0 0 s.id.mac.toList))

/-- Step 6, RF configuration, then baseband configuration (42_init.md R152, R153). -/
def initStep6 (s : State) : State :=
  (s.withStep .step6).edge fun io => (io.lWrites s.cfg.rfCfgLong).sWrites s.cfg.bbCfgShort

/-- Step 7, its delay started (42_init.md R155, R145). -/
def initStep7 (s : State) : State := (s.withStep .step7).delayInit s.cfg.timeoutTicks

/-- Step 8, interrupts and ack timeout (42_init.md R156). -/
def initStep8 (s : State) : State :=
  (s.withStep .step8).edge (Io.sWrites
    [(s.cfg.map.regIntCon, s.cfg.map.intConAllOff), (s.cfg.map.regAckTmo, s.cfg.map.ackTmoVal)])

/-- Step 9, the channel and the RF-reset-hold pulse, then its delay started (42_init.md R157, R144). -/
def initStep9 (s : State) : State :=
  ((s.withStep .step9).edge fun io =>
    (io.lWrite s.cfg.map.regChannel s.id.chan).sWrites
      [(s.cfg.map.regRfCtl, s.cfg.map.rfCtlRst), (s.cfg.map.regRfCtl, s.cfg.map.rfCtlClr)]).delayInit
    s.cfg.settle2Ticks

/-- Step 10, receive mode (42_init.md R158). -/
def initStep10 (s : State) : State := (s.withStep .step10).edge (Io.sWrite s.cfg.map.regRxMcr 0x00#8)

/-- Step 11, clear flags and record success (42_init.md R159). -/
def initStep11 (s : State) : State :=
  ((((s.withStep .step11).edge fun io => (io.sRead s.cfg.map.regIntStat).2).withStatus .initOk).withStep
    .idle).ret .initOk

/-- From step 4 to the loop of step 7. -/
def initFrom4 (s : State) : State := initStep7 (initStep6 (initStep5 (initStep4 s)))

/-- The sequencer's next move: the loop iteration the step register is at, with the straight line that
follows it. At a step that is no loop it makes that step from its start. -/
def sequencerStep (s : State) : State :=
  match s.stepReg with
  | .idle => s
  | .step1 => initStep2 (initStep1 s)
  | .step2 => pollIteration (Io.sRead s.cfg.map.regSoftRst) (resetClear s.cfg) initStep3 s
  | .step3 => waitIteration (fun s => initFrom4 (initStep3Flush s)) s
  | .step4 => initFrom4 s
  | .step5 => initStep7 (initStep6 (initStep5 s))
  | .step6 => initStep7 (initStep6 s)
  | .step7 =>
    pollIteration (Io.lRead s.cfg.map.regRfState) (rxStateReady s.cfg)
      (fun s => initStep9 (initStep8 s)) s
  | .step8 => initStep9 (initStep8 s)
  | .step9 => waitIteration (fun s => initStep11 (initStep10 s)) s
  | .step10 => initStep11 (initStep10 s)
  | .step11 => initStep11 s

/-- At most `n` moves of the sequencer, none once it is idle. -/
def sequencerRun : Nat → State → State
  | 0, s => s
  | n + 1, s => if s.isIdle then s else sequencerRun n (sequencerStep s)

/-- `INIT` up to its first loop: `LOADDEF`, the pin prologue, step 1, and step 2's delay (42_init.md R140,
R142, R143, R147, R148). The port has no answer until the command ends. -/
def initBegin (s : State) : State :=
  initStep2 (initStep1 (pinPrologue (s.loadDef.withAnswer none)))

/-- `INIT` (42_init.md R140), for as long as the supplied ticks last [9]. -/
def execInit (s : State) : Out :=
  command s fun s => .next (sequencerRun s.io.ticks.given.length (initBegin s))

end Sys2Proof.Machine
end

