-- ==== Sys2Proof/Machine/Parser.lean ====
section
/-! DEFINITION. Unit `PP` (45_parser.md): `ISNEW`, `RX`, `GETLAST`, `DISCOVER`. -/

namespace Sys2Proof.Machine

/-- `ISNEW` (45_parser.md R200). -/
def execIsNew (s : State) : Out :=
  gated s fun s => .next ((s.withIo s.io.int.2).ret (pendingResult s.io.int.1))

/-- `RX`'s prologue (45_parser.md R203): decode inversion on, then the data flush. -/
def rxPrologue (c : Cfg) (io : Io) : Io :=
  io.sWrites [(c.map.regBbReg1, c.map.rxDecInvOn), (c.map.regRxFlush, c.map.rxFlushRx)]

/-- `RX`'s epilogue (45_parser.md R208): decode inversion off, then the interrupt status read and
dropped. -/
def rxEpilogue (c : Cfg) (io : Io) : Io :=
  ((io.sWrite c.map.regBbReg1 c.map.rxDecInvOff).sRead c.map.regIntStat).2

/-- `RX`'s payload and trailer reads for `n` payload bytes (45_parser.md R206, R207): the payload, and the
edge after the trailer reads, if they are made. -/
def rxPayload (c : Cfg) (n : Nat) (io : Io) : List Byte × Io :=
  let p := io.lReads (positions c.map.rxFifoBase (c.hdrLen - 1) n)
  if c.trailerRead then
    (p.1, (p.2.lReads (positions c.map.rxFifoBase (c.hdrLen - 1 + n) trailerLen)).2)
  else p

/-- `RX` past its gate (45_parser.md R203 to R208). -/
def rxRun (s : State) : State :=
  let c := s.cfg
  let flen := (rxPrologue c s.io).lRead (position c.map.rxFifoBase 0)
  let b9 := flen.2.lRead (position c.map.rxFifoBase 9)
  let b8 := b9.2.lRead (position c.map.rxFifoBase 8)
  let src := joinBytes b9.1 b8.1
  if badLength c flen.1 then
    ((s.withRxf { s.rxf with src := src, len := 0#8 }).withIo (rxEpilogue c b8.2)).ret .decodeError
  else
    let n := flen.1.toNat - trailerLen
    let p := rxPayload c n b8.2
    ((s.withRxf { src := src, buf := overlay p.1 s.rxf.buf, len := BitVec.ofNat 8 n }).withIo
      (rxEpilogue c p.2)).ret .ok

/-- `RX` (45_parser.md R201). -/
def execRx (s : State) : Out := gated s fun s => .next (rxRun s)

/-- `GETLAST` (45_parser.md R210): `OK` and the reference to the last frame, not gated. -/
def execGetLast (s : State) : Out := command s fun s => .next (s.give .okView)

/-- `DISCOVER` (45_parser.md R211): past the gate, nothing but `OK`. -/
def execDiscover (s : State) : Out := gated s fun s => .next (s.ret .ok)

end Sys2Proof.Machine
end

