-- ==== Sys2Proof/Machine/RegAccess.lean ====
section
/-! DEFINITION. Unit `RA` (41_codec_regaccess.md R126 to R133): the four transactions. A read with a null
destination is rejected before any bus activity (R130). The unit has no state: an operation changes the
block's edge and its answer, no flag and no register (R120, 10_state.md R31). -/

namespace Sys2Proof.Machine

/-- `RA.SRD a, null` (41_codec_regaccess.md R126). -/
def execRaSrd (a : ShortAddr) (null : Bool) (s : State) : Out :=
  unitOp s fun s =>
    if null then .next (s.give (.read .invalidArg none))
    else
      let r := s.io.shortRead a
      .next ((s.withIo r.2).give (.read r.1.1 (some r.1.2)))

/-- `RA.SWR a, v` (41_codec_regaccess.md R127). -/
def execRaSwr (a : ShortAddr) (v : Byte) (s : State) : Out :=
  unitOp s fun s =>
    let r := s.io.shortWrite a v
    .next ((s.withIo r.2).ret r.1)

/-- `RA.LRD a, null` (41_codec_regaccess.md R128). -/
def execRaLrd (a : LongAddr) (null : Bool) (s : State) : Out :=
  unitOp s fun s =>
    if null then .next (s.give (.read .invalidArg none))
    else
      let r := s.io.longRead a
      .next ((s.withIo r.2).give (.read r.1.1 (some r.1.2)))

/-- `RA.LWR a, v` (41_codec_regaccess.md R129). -/
def execRaLwr (a : LongAddr) (v : Byte) (s : State) : Out :=
  unitOp s fun s =>
    let r := s.io.longWrite a v
    .next ((s.withIo r.2).ret r.1)

end Sys2Proof.Machine
end

