-- ==== Sys2Proof/Machine/Dispatch.lean ====
section
/-! DEFINITION. One operation of the block: one arm per row of spec/opcode_table.json. -/

namespace Sys2Proof.Machine

def exec (i : Instr) (s : State) : Host.Outcome State Fault Refusal :=
  match i with
  | .init => Sys2Proof.Machine.execInit s
  | .setCh ch => Sys2Proof.Machine.execSetCh ch s
  | .setPan pan => Sys2Proof.Machine.execSetPan pan s
  | .setAddr addr => Sys2Proof.Machine.execSetAddr addr s
  | .setSeq seq => Sys2Proof.Machine.execSetSeq seq s
  | .setMac mac => Sys2Proof.Machine.execSetMac mac s
  | .setKey key => Sys2Proof.Machine.execSetKey key s
  | .tx dst dpan org payload => Sys2Proof.Machine.execTx dst dpan org payload s
  | .isNew => Sys2Proof.Machine.execIsNew s
  | .rx => Sys2Proof.Machine.execRx s
  | .getLast => Sys2Proof.Machine.execGetLast s
  | .discover => Sys2Proof.Machine.execDiscover s
  | .dlyInit d => Sys2Proof.Machine.execDlyInit d s
  | .dlyRead => Sys2Proof.Machine.execDlyRead s
  | .dlyReset => Sys2Proof.Machine.execDlyReset s
  | .dlyWrite d => Sys2Proof.Machine.execDlyWrite d s
  | .encSr r => Sys2Proof.Machine.execEncSr r s
  | .encSw r => Sys2Proof.Machine.execEncSw r s
  | .encLr r => Sys2Proof.Machine.execEncLr r s
  | .encLw r => Sys2Proof.Machine.execEncLw r s
  | .raSrd a null => Sys2Proof.Machine.execRaSrd a null s
  | .raSwr a v => Sys2Proof.Machine.execRaSwr a v s
  | .raLrd a null => Sys2Proof.Machine.execRaLrd a null s
  | .raLwr a v => Sys2Proof.Machine.execRaLwr a v s

end Sys2Proof.Machine
end

