-- ==== Sys2Proof/Machine/Fetch.lean ====
section
/-! DEFINITION. What the machine does next: the next input, or the sequencer's next move (20_memory.md
R66; 70_reset_and_hazards.md R250, R252). -/

namespace Sys2Proof.Machine

/-- What a step finds to do. -/
inductive Next where
  /-- The configuration is ill-formed: nothing (00_scope.md R8). -/
  | illFormed
  /-- A pulse of the reset input, at any time (70_reset_and_hazards.md R250); the state with it taken. -/
  | reset (s : State)
  /-- An `INIT` in progress goes on, nothing being presented. -/
  | sequencer
  /-- A word is presented while an `INIT` is in progress, which has no meaning (20_memory.md R66;
  70_reset_and_hazards.md R266): it is not even decoded. -/
  | busy
  /-- Nothing is presented to an idle block: it waits (70_reset_and_hazards.md R252); the state with a host's
  waiting done. -/
  | idle (s : State)
  /-- A presented word that names an operation; the state with the word taken. -/
  | run (i : Instr) (s : State)
  /-- A presented word the decoder rejects. -/
  | rejected (why : DecodeError)
deriving DecidableEq, Repr

/-- A presented port word, decoded. -/
def present (w : PortWord) (s : State) : Next :=
  match decode s.cfg w with
  | .ok i => .run i s
  | .error why => .rejected why

/-- The next thing to do. -/
def nextAction (s : State) : Next :=
  if s.cfg.wf then
    match s.inbox with
    | .reset :: rest => .reset (s.withInbox rest)
    | .request w :: rest => if s.isIdle then present w (s.withInbox rest) else .busy
    | .await :: rest => if s.isIdle then .idle (s.withInbox rest) else .sequencer
    | [] => if s.isIdle then .idle s else .sequencer
  else .illFormed

/-- The word of an opcode-table row presented as the next input of an idle block, all lanes past the
table's bits zero [8]. -/
def State.presentTableWord (s : State) (nbits w : Nat) : State :=
  (s.withStep .idle).withInbox (.request (tableWord s.cfg nbits w) :: s.inbox)

end Sys2Proof.Machine
end

