-- ==== Sys2Proof/Machine/Step.lean ====
section
/-! DEFINITION. One step of the machine: one command or unit operation, one pulse of the reset input, one
move of the sequencer inside an `INIT`, or an idle step. -/

namespace Sys2Proof.Machine

/-- One step. -/
def step (s : State) : Host.Outcome State Fault Refusal :=
  match nextAction s with
  | .illFormed => .refused .illFormedCfg
  | .reset t => .next t.resetInput
  | .sequencer => .next (sequencerStep s)
  | .busy => .refused .busy
  | .idle t => .next t
  | .run i t => exec i t
  | .rejected why => .refused (.rejectedWord why)

/-- `s` with the table word `w` presented as the next input of the idle block: the next step decodes and
runs it [4] [8]. -/
def State.withFetchWord (s : State) (nbits w : Nat) : State := s.presentTableWord nbits w

end Sys2Proof.Machine
end

