-- ==== Sys2Proof/Safety.lean ====
section
/-! DEFINITION. The terms claims use: the calls a trace is made of, the transaction shapes, the bracket
discipline of the bus, the invariant of the machine, and which operations touch which register. -/

namespace Sys2Proof

/-! ## Kinds of operations -/

/-- The unit operations of `RA`, the only ones that hand back a transport result (60_exceptions.md
R223). -/
def Instr.isRegAccess : Instr → Bool
  | .raSrd _ _ => true
  | .raSwr _ _ => true
  | .raLrd _ _ => true
  | .raLwr _ _ => true
  | .init => false
  | .setCh _ => false
  | .setPan _ => false
  | .setAddr _ => false
  | .setSeq _ => false
  | .setMac _ => false
  | .setKey _ => false
  | .tx _ _ _ _ => false
  | .isNew => false
  | .rx => false
  | .getLast => false
  | .discover => false
  | .dlyInit _ => false
  | .dlyRead => false
  | .dlyReset => false
  | .dlyWrite _ => false
  | .encSr _ => false
  | .encSw _ => false
  | .encLr _ => false
  | .encLw _ => false

/-- The twelve host commands (30_encoding.md R96). -/
def Instr.isCommand : Instr → Bool
  | .init => true
  | .setCh _ => true
  | .setPan _ => true
  | .setAddr _ => true
  | .setSeq _ => true
  | .setMac _ => true
  | .setKey _ => true
  | .tx _ _ _ _ => true
  | .isNew => true
  | .rx => true
  | .getLast => true
  | .discover => true
  | .dlyInit _ => false
  | .dlyRead => false
  | .dlyReset => false
  | .dlyWrite _ => false
  | .encSr _ => false
  | .encSw _ => false
  | .encLr _ => false
  | .encLw _ => false
  | .raSrd _ _ => false
  | .raSwr _ _ => false
  | .raLrd _ _ => false
  | .raLwr _ _ => false

/-- The six setters (43_config.md R170). -/
def Instr.isSetter : Instr → Bool
  | .setCh _ => true
  | .setPan _ => true
  | .setAddr _ => true
  | .setSeq _ => true
  | .setMac _ => true
  | .setKey _ => true
  | .init => false
  | .tx _ _ _ _ => false
  | .isNew => false
  | .rx => false
  | .getLast => false
  | .discover => false
  | .dlyInit _ => false
  | .dlyRead => false
  | .dlyReset => false
  | .dlyWrite _ => false
  | .encSr _ => false
  | .encSw _ => false
  | .encLr _ => false
  | .encLw _ => false
  | .raSrd _ _ => false
  | .raSwr _ _ => false
  | .raLrd _ _ => false
  | .raLwr _ _ => false

/-- The operations of `AC` and `RA`, the two units without state (41_codec_regaccess.md R120). -/
def Instr.isAddressUnit : Instr → Bool
  | .encSr _ => true
  | .encSw _ => true
  | .encLr _ => true
  | .encLw _ => true
  | .raSrd _ _ => true
  | .raSwr _ _ => true
  | .raLrd _ _ => true
  | .raLwr _ _ => true
  | .init => false
  | .setCh _ => false
  | .setPan _ => false
  | .setAddr _ => false
  | .setSeq _ => false
  | .setMac _ => false
  | .setKey _ => false
  | .tx _ _ _ _ => false
  | .isNew => false
  | .rx => false
  | .getLast => false
  | .discover => false
  | .dlyInit _ => false
  | .dlyRead => false
  | .dlyReset => false
  | .dlyWrite _ => false

/-- The operations that write `dly` (10_state.md R31). -/
def Instr.writesDelay : Instr → Bool
  | .init => true
  | .dlyInit _ => true
  | .dlyReset => true
  | .dlyWrite _ => true
  | .setCh _ => false
  | .setPan _ => false
  | .setAddr _ => false
  | .setSeq _ => false
  | .setMac _ => false
  | .setKey _ => false
  | .tx _ _ _ _ => false
  | .isNew => false
  | .rx => false
  | .getLast => false
  | .discover => false
  | .dlyRead => false
  | .encSr _ => false
  | .encSw _ => false
  | .encLr _ => false
  | .encLw _ => false
  | .raSrd _ _ => false
  | .raSwr _ _ => false
  | .raLrd _ _ => false
  | .raLwr _ _ => false

end Sys2Proof

namespace Sys2Proof.Machine

/-- The results an operation can return on `res` (30_encoding.md R96, column "results it can return";
60_exceptions.md R221); the `DLY` and `ENC` operations have no result code. -/
def results : Instr → List Result
  | .init => [.initOk, .timeout]
  | .setCh _ => [.ok, .invalidValue]
  | .setPan _ => [.ok, .invalidValue]
  | .setAddr _ => [.ok, .invalidValue]
  | .setSeq _ => [.ok]
  | .setMac _ => [.ok, .invalidValue]
  | .setKey _ => [.ok, .invalidValue]
  | .tx _ _ _ _ => [.txCompleted, .notReady, .noDest, .noPayload, .tooLong]
  | .isNew => [.msgPresent, .bufEmpty, .notReady]
  | .rx => [.ok, .notReady, .decodeError]
  | .getLast => [.ok]
  | .discover => [.ok, .notReady]
  | .dlyInit _ => []
  | .dlyRead => []
  | .dlyReset => []
  | .dlyWrite _ => []
  | .encSr _ => []
  | .encSw _ => []
  | .encLr _ => []
  | .encLw _ => []
  | .raSrd _ _ => [.ok, .transportFail, .invalidArg]
  | .raSwr _ _ => [.ok, .transportFail]
  | .raLrd _ _ => [.ok, .transportFail, .invalidArg]
  | .raLwr _ _ => [.ok, .transportFail]

/-- The number on the result port, while there is an answer that has one (30_encoding.md R103). -/
def State.resultPort (s : State) : Option (BitVec 4) := s.answer.bind Answer.res

/-! ## Calls -/

/-- An event without the environment's answer to it: what the block does, whatever it is answered
(20_memory.md R51). -/
inductive Call where
  | cs (level : Bool)
  | w1 (b : Byte)
  | w2 (w : Half)
  | r1
  | wake (level : Bool)
  | resetPin (level : Bool)
  | int
  | now
deriving DecidableEq, Repr

/-- The call of an event. -/
def Event.call : Event → Call
  | .cs level => .cs level
  | .w1 b _ => .w1 b
  | .w2 w _ => .w2 w
  | .r1 _ _ => .r1
  | .wake level => .wake level
  | .resetPin level => .resetPin level
  | .int _ => .int
  | .now _ => .now

/-- The calls made so far, oldest first. -/
def Io.calls (io : Io) : List Call := io.trace.map Event.call

/-- The four shapes of a transaction (20_memory.md R57). -/
def shortWriteCalls (a : ShortAddr) (v : Byte) : List Call :=
  [.cs false, .w1 (shortWriteWord a), .w1 v, .cs true]

/-- A short read (20_memory.md R57). -/
def shortReadCalls (a : ShortAddr) : List Call := [.cs false, .w1 (shortReadWord a), .r1, .cs true]

/-- A long write (20_memory.md R57). -/
def longWriteCalls (a : LongAddr) (v : Byte) : List Call :=
  [.cs false, .w2 (longWriteWord a), .w1 v, .cs true]

/-- A long read (20_memory.md R57). -/
def longReadCalls (a : LongAddr) : List Call := [.cs false, .w2 (longReadWord a), .r1, .cs true]

/-- The calls of a list of short writes, in order. -/
def shortWritesCalls (ws : List (ShortAddr × Byte)) : List Call :=
  ws.flatMap fun w => shortWriteCalls w.1 w.2

/-- The calls of a list of long writes, in order. -/
def longWritesCalls (ws : List (LongAddr × Byte)) : List Call :=
  ws.flatMap fun w => longWriteCalls w.1 w.2

/-- The calls of a list of long reads, in order. -/
def longReadsCalls (as : List LongAddr) : List Call := as.flatMap longReadCalls

/-- The call of a pin event. -/
def PinEvent.call (e : PinEvent) : Call := (PinEvent.event e).call

/-- Where the bus is inside a transaction (20_memory.md R57). -/
inductive BusPhase where
  /-- Deselected: between transactions. -/
  | free
  /-- Selected, nothing transferred yet. -/
  | selected
  /-- The address transfer was made. -/
  | addressed
  /-- The data transfer was made. -/
  | moved
  /-- A call out of its place. -/
  | broken
deriving DecidableEq, Repr

/-- Between transactions: a selection opens one, and a transfer is out of its place. -/
def BusPhase.afterFree : Call → BusPhase
  | .cs level => if level then .free else .selected
  | .w1 _ => .broken
  | .w2 _ => .broken
  | .r1 => .broken
  | .wake _ => .free
  | .resetPin _ => .free
  | .int => .free
  | .now => .free

/-- After the selection: the address transfer, one byte or one word. -/
def BusPhase.afterSelected : Call → BusPhase
  | .w1 _ => .addressed
  | .w2 _ => .addressed
  | .cs _ => .broken
  | .r1 => .broken
  | .wake _ => .broken
  | .resetPin _ => .broken
  | .int => .broken
  | .now => .broken

/-- After the address transfer: the data transfer, one byte out or in. -/
def BusPhase.afterAddressed : Call → BusPhase
  | .w1 _ => .moved
  | .r1 => .moved
  | .cs _ => .broken
  | .w2 _ => .broken
  | .wake _ => .broken
  | .resetPin _ => .broken
  | .int => .broken
  | .now => .broken

/-- After the data transfer: the deselection. -/
def BusPhase.afterMoved : Call → BusPhase
  | .cs level => if level then .free else .broken
  | .w1 _ => .broken
  | .w2 _ => .broken
  | .r1 => .broken
  | .wake _ => .broken
  | .resetPin _ => .broken
  | .int => .broken
  | .now => .broken

/-- The bus after one more call: a transaction is `CS(0)`, one address transfer, one data transfer,
`CS(1)` (20_memory.md R57). -/
def BusPhase.after : BusPhase → Call → BusPhase
  | .free => BusPhase.afterFree
  | .selected => BusPhase.afterSelected
  | .addressed => BusPhase.afterAddressed
  | .moved => BusPhase.afterMoved
  | .broken => fun _ => .broken

/-- The bus after a list of calls, from the phase `p`. -/
def BusPhase.run (p : BusPhase) (calls : List Call) : BusPhase := calls.foldl BusPhase.after p

/-- Every chip-select bracket is a whole transaction, and between transactions there is no transfer
(20_memory.md R57, R58; 41_codec_regaccess.md R133). -/
def bracketed (calls : List Call) : Prop := BusPhase.free.run calls = .free

/-! ## The calls of `INIT` -/

/-- Before the first poll: the pin prologue, step 1, and the start of step 2's delay (42_init.md R143, R147,
R148). -/
def callsToPoll2 (c : Cfg) : List Call :=
  c.pinPrologue.map PinEvent.call ++ shortWriteCalls c.map.regSoftRst c.map.softRstBits ++ [.now]

/-- `k` iterations of step 2's poll (42_init.md R145, R148). -/
def poll2Calls (c : Cfg) (k : Nat) : List Call :=
  (List.replicate k (shortReadCalls c.map.regSoftRst ++ [.now])).flatten

/-- Between the polls: step 3's wait of `w` elapsed checks and its flush, steps 4 to 6, and the start of
step 7's delay (42_init.md R149 to R153, R155). -/
def callsToPoll7 (c : Cfg) (v : RadioIdentity) (w : Nat) : List Call :=
  .now :: List.replicate w .now ++ shortWriteCalls c.map.regRxFlush c.map.rxFlushInit ++
    shortWriteCalls c.map.regPanIdH (hi8 v.pan) ++ shortWriteCalls c.map.regPanIdL (lo8 v.pan) ++
    shortWriteCalls c.map.regSadrH (hi8 v.addr) ++ shortWriteCalls c.map.regSadrL (lo8 v.addr) ++
    (v.mac.toList.zipIdx.flatMap fun b =>
      shortWriteCalls (BitVec.ofNat 6 (c.map.regEadr0.toNat + b.2)) b.1) ++
    longWritesCalls c.rfCfgLong ++ shortWritesCalls c.bbCfgShort ++ [.now]

/-- `k` iterations of step 7's poll (42_init.md R145, R155). -/
def poll7Calls (c : Cfg) (k : Nat) : List Call :=
  (List.replicate k (longReadCalls c.map.regRfState ++ [.now])).flatten

/-- After the second poll: step 8, step 9 with its wait of `w` elapsed checks, steps 10 and 11 (42_init.md
R156 to R159). -/
def callsToEnd (c : Cfg) (v : RadioIdentity) (w : Nat) : List Call :=
  shortWriteCalls c.map.regIntCon c.map.intConAllOff ++ shortWriteCalls c.map.regAckTmo c.map.ackTmoVal ++
    longWriteCalls c.map.regChannel v.chan ++ shortWriteCalls c.map.regRfCtl c.map.rfCtlRst ++
    shortWriteCalls c.map.regRfCtl c.map.rfCtlClr ++ .now :: List.replicate w .now ++
    shortWriteCalls c.map.regRxMcr 0x00#8 ++ shortReadCalls c.map.regIntStat

/-- The outcomes of the iterations of a poll started at tick `start`, given the bytes read and the ticks
seen (42_init.md R145). -/
def pollOutcomes (c : Cfg) (cond : Byte → Bool) (start : Nat) (reads : List (Bool × Byte))
    (ticks : List Nat) : List PollOutcome :=
  List.zipWith (fun r t => pollOutcome c.pollTie (cond r.2)
    (decide (c.timeoutTicks ≤ tickSub c.tickW t start))) reads ticks

/-- Whether each elapsed check of a wait of `d` ticks started at tick `start` shows it expired (42_init.md
R144). -/
def waitExpiries (c : Cfg) (d start : Nat) (ticks : List Nat) : List Bool :=
  ticks.map fun t => decide (d ≤ tickSub c.tickW t start)

/-- The environment's answers to one `INIT`, part by part: for each loop the tick its delay starts at, the
ticks of its elapsed checks, and for a poll the bytes read. -/
structure InitAnswers where
  start2 : Nat
  ticks2 : List Nat
  reads2 : List (Bool × Byte)
  start3 : Nat
  ticks3 : List Nat
  start7 : Nat
  ticks7 : List Nat
  reads7 : List (Bool × Byte)
  start9 : Nat
  ticks9 : List Nat
  last : Bool × Byte
deriving DecidableEq, Repr

/-- The answers of step 2's poll fit each other, and end it with `last` after iterations that wait. -/
def InitAnswers.poll2 (x : InitAnswers) (c : Cfg) (last : PollOutcome) : Prop :=
  (∀ t ∈ x.start2 :: x.ticks2, t < 2 ^ c.tickW) ∧ x.reads2.length = x.ticks2.length ∧
    ∃ k, pollOutcomes c (resetClear c) x.start2 x.reads2 x.ticks2 = List.replicate k .waiting ++ [last]

/-- The answers of step 3's wait end it. -/
def InitAnswers.wait3 (x : InitAnswers) (c : Cfg) : Prop :=
  (∀ t ∈ x.start3 :: x.ticks3, t < 2 ^ c.tickW) ∧
    ∃ k, waitExpiries c c.settle1Ticks x.start3 x.ticks3 = List.replicate k false ++ [true]

/-- The answers of step 7's poll fit each other, and end it with `last` after iterations that wait. -/
def InitAnswers.poll7 (x : InitAnswers) (c : Cfg) (last : PollOutcome) : Prop :=
  (∀ t ∈ x.start7 :: x.ticks7, t < 2 ^ c.tickW) ∧ x.reads7.length = x.ticks7.length ∧
    ∃ k, pollOutcomes c (rxStateReady c) x.start7 x.reads7 x.ticks7 = List.replicate k .waiting ++ [last]

/-- The answers of step 9's wait end it. -/
def InitAnswers.wait9 (x : InitAnswers) (c : Cfg) : Prop :=
  (∀ t ∈ x.start9 :: x.ticks9, t < 2 ^ c.tickW) ∧
    ∃ k, waitExpiries c c.settle2Ticks x.start9 x.ticks9 = List.replicate k false ++ [true]

/-! ## The invariant -/

/-- An identity that meets 10_state.md R21 and R22: an enumerated channel, no broadcast PAN id or address,
no all-zero MAC or key. -/
def identityOk (c : Cfg) (v : RadioIdentity) : Bool :=
  isChannel c v.chan && !(v.pan == c.broadcast) && !(v.addr == c.broadcast) &&
    !allZero v.mac.toList && !allZero v.key.toList

/-- The invariant every step of the machine keeps. -/
structure Inv (s : State) : Prop where
  /-- The configuration is well-formed (00_scope.md R8). -/
  cfg_ok : s.cfg.wf = true
  /-- Once the defaults are loaded, the identity meets R21 and R22 of 10_state.md. -/
  id_ok : s.defaultsUnset = false → identityOk s.cfg s.id = true
  /-- The gate opens only after the defaults are loaded (10_state.md R35). -/
  gate_ok : s.ready = true → s.defaultsUnset = false
  /-- A command in progress has loaded the defaults, is in one of the four loops of `INIT`, and its timer
  runs (42_init.md R144, R145; 40_delay.md R115). -/
  busy_ok : s.isIdle = false → s.defaultsUnset = false ∧ s.dly.running = true ∧
    s.stepReg ∈ [SeqStep.step2, SeqStep.step3, SeqStep.step7, SeqStep.step9]
  /-- The buffers have their capacity (10_state.md R24, R25). -/
  txf_buf : s.txf.buf.length = s.cfg.maxBuf
  rxf_buf : s.rxf.buf.length = s.cfg.maxBuf
  /-- "payload length ≤ maximum buffer capacity" (10_state.md R24), and the same of `rxf`
  (45_parser.md R206). -/
  txf_len : s.txf.len.toNat ≤ s.cfg.maxBuf
  rxf_len : s.rxf.len.toNat ≤ s.cfg.maxBuf
  /-- The tick registers are `u(TICK_W)` (10_state.md R29). -/
  dly_start : s.dly.start < 2 ^ s.cfg.tickW
  dly_duration : s.dly.duration < 2 ^ s.cfg.tickW

/-! ## Commands, and states alike -/

/-- A host command may start: the configuration is well-formed and no command is in progress
(00_scope.md R8, 20_memory.md R66). -/
def State.accepts (s : State) : Prop := s.cfg.wf = true ∧ s.stepReg = .idle

/-- Nothing is done to the block now: no pulse of the reset input, no word presented [4]. -/
def State.undisturbed (s : State) : Prop :=
  (∀ rest, s.inbox ≠ .reset :: rest) ∧ ∀ w rest, s.inbox ≠ .request w :: rest

/-- The identity a command works with: the factory defaults if they were not yet loaded (43_config.md
R171). -/
def State.loadedId (s : State) : RadioIdentity :=
  if s.id.chan = s.cfg.chUnset then factoryId s.cfg else s.id

/-- Two edges the block cannot tell apart but by transport results: the same bytes, pin and tick answers
to come and the same calls made, whatever the `ok` answers are (20_memory.md R69). -/
structure SameButOk (io io' : Io) : Prop where
  bytes : io.reads.given.map Prod.snd = io'.reads.given.map Prod.snd
  drawn : io.reads.drawn = io'.reads.drawn
  pins : io.pins = io'.pins
  ticks : io.ticks = io'.ticks
  calls : io.calls = io'.calls

/-- Two states that differ at most in the security key and in the outbound-frame register, which no
operation reads (10_state.md R21, R24). -/
structure SameButUnread (s s' : State) : Prop where
  cfg : s.cfg = s'.cfg
  mac : s.id.mac = s'.id.mac
  pan : s.id.pan = s'.id.pan
  addr : s.id.addr = s'.id.addr
  seq : s.id.seq = s'.id.seq
  chan : s.id.chan = s'.id.chan
  rxf : s.rxf = s'.rxf
  status : s.status = s'.status
  stepReg : s.stepReg = s'.stepReg
  dly : s.dly = s'.dly
  inbox : s.inbox = s'.inbox
  answer : s.answer = s'.answer
  io : s.io = s'.io

end Sys2Proof.Machine
end

