-- ==== Sys2Proof/Certificates/Slice0/Obligations.lean ====
section
/-! DEFINITION. The statements for the provers. Each says its frame by writing the whole next state, or by
naming what is unchanged. `accepts` is: the configuration is well-formed and no command is in progress. -/

open Sys2Proof Sys2Proof.Machine

/-! ## Encodings -/

/-- Every well-formed operation, at every value of its operands, is decoded from its own word
(30_encoding.md sections 1 and 4). -/
def Obligations.DecodeOfEncodeIsTheInstruction : Prop :=
  ∀ (c : Cfg) (i : Instr), i.wf c = true → decode c (encode c i) = .ok i

/-- The same through the select `{space, rw}` of `AC` (30_encoding.md, unit select codes), which names the
four encoders and nothing else. -/
def Obligations.AcSelectNamesTheEncoders : Prop :=
  (∀ (c : Cfg) (i : Instr) (w : PortWord), encodeAcSelect i = some w → decode c w = .ok i) ∧
  (∀ (c : Cfg) (sel : BitVec 2) (bs : List Byte) (i : Instr), decode c (.ac sel bs) = .ok i →
    ∃ r, i = .encSr r ∧ sel = 0#2 ∨ i = .encSw r ∧ sel = 1#2 ∨
      ∃ l, i = .encLr l ∧ sel = 2#2 ∨ i = .encLw l ∧ sel = 3#2)

/-- `DEC` inverts `ENC` on every address, `ENC` inverts `DEC` on every short byte and on every long word
whose low four bits are zero, and `DEC.L` ignores those bits (30_encoding.md, decode functions of section
1). -/
def Obligations.AddressWordsDecodeBack : Prop :=
  (∀ r : ShortAddr, decShort (shortWriteWord r) = some (r, true) ∧
    decShort (shortReadWord r) = some (r, false)) ∧
  (∀ r : LongAddr, decLong (longWriteWord r) = some (r, true) ∧
    decLong (longReadWord r) = some (r, false)) ∧
  (∀ b : Byte, decShort b = none ∨ ∃ r, decShort b = some (r, true) ∧ shortWriteWord r = b ∨
    decShort b = some (r, false) ∧ shortReadWord r = b) ∧
  (∀ w : Half, w.extractLsb' 0 4 = 0#4 → decLong w = none ∨
    ∃ r, decLong w = some (r, true) ∧ longWriteWord r = w ∨
      decLong w = some (r, false) ∧ longReadWord r = w) ∧
  (∀ w w' : Half, w >>> 4 = w' >>> 4 → decLong w = decLong w')

/-- The images of the four encoders: which bytes and words they are, as numbers, and that the first byte on
the bus tells the format (41_codec_regaccess.md section 3, 30_encoding.md section 1); that the high byte of a long
word is the first is decision D5 (20_memory.md R59). -/
def Obligations.AddressWordImagesAreDisjoint : Prop :=
  (∀ r : ShortAddr, (shortReadWord r).toNat = 2 * r.toNat ∧
    (shortWriteWord r).toNat = 2 * r.toNat + 1 ∧ (shortWriteWord r).toNat ≤ 0x7F) ∧
  (∀ r : LongAddr, (longReadWord r).toNat = 0x8000 + 32 * r.toNat ∧
    (longWriteWord r).toNat = 0x8010 + 32 * r.toNat ∧
    (hi8 (longReadWord r)).toNat = 0x80 + r.toNat / 8 ∧ hi8 (longWriteWord r) = hi8 (longReadWord r) ∧
    (lo8 (longReadWord r)).toNat = 32 * (r.toNat % 8) ∧
    (lo8 (longWriteWord r)).toNat = 32 * (r.toNat % 8) + 16)

/-- A few words decode to what they stand for: three address words written out from the spec's encodings
(95_test_vectors.md 2.2), then `SET.CH 0x03` and the `TX` of program P2, and a `TX` with an origin address
of its own. A long word's high byte comes first by decision D5. The command codes are the spec's (30_encoding.md
section 4); the lanes of the operand bytes at
the command port are the model's choice [7]. -/
def Obligations.SampleWordsDecode : Prop :=
  decode Cfg.cfg0 (.bus [0x55#8]) = .ok (.encSw 0x2A#6) ∧
  decode Cfg.cfg0 (.bus [0xE1#8, 0x20#8]) = .ok (.encLr 0x309#10) ∧
  decode Cfg.cfg0 (.bus [0xC1#8, 0xEF#8]) = .ok (.encLr 0x20F#10) ∧
  decode Cfg.cfg0 (.host 0x2#4 [0x03#8]) = .ok (.setCh 0x03#8) ∧
  decode Cfg.cfg0 (.host 0x8#4 [0x02#8, 0x00#8, 0x00#8, 0x00#8, 0x00#8, 0x00#8, 0x00#8, 0x00#8,
    0x03#8, 0xAA#8, 0xBB#8, 0xCC#8]) = .ok (.tx 0x0002#16 none none [0xAA#8, 0xBB#8, 0xCC#8]) ∧
  decode Cfg.cfg0 (.host 0x8#4 [0x02#8, 0x00#8, 0x00#8, 0x00#8, 0x00#8, 0x01#8, 0x0B#8, 0x0A#8,
    0x03#8, 0xAA#8, 0xBB#8, 0xCC#8]) = .ok (.tx 0x0002#16 none (some 0x0A0B#16) [0xAA#8, 0xBB#8, 0xCC#8])

/-- The four encoders answer the source's formulas, for every address, and do nothing else
(41_codec_regaccess.md R121 to R124). That the encoding of a long word is its high byte and then its low byte
is the spec's inference (20_memory.md R59, decision D5). -/
def Obligations.EncodersAnswerTheFormulas : Prop :=
  ∀ s : State, s.cfg.wf = true →
    (∀ r : ShortAddr, ∃ w : Byte,
      exec (.encSr r) s = .next { s with answer := some (.shortWord w) } ∧
      w = ((r.setWidth 8) <<< 1) &&& 0x7E#8 ∧ w.toNat = 2 * r.toNat ∧ encode s.cfg (.encSr r) = .bus [w]) ∧
    (∀ r : ShortAddr, ∃ w : Byte,
      exec (.encSw r) s = .next { s with answer := some (.shortWord w) } ∧
      w = ((r.setWidth 8) <<< 1) ||| 0x01#8 ∧ w.toNat = 2 * r.toNat + 1 ∧
      encode s.cfg (.encSw r) = .bus [w]) ∧
    (∀ r : LongAddr, ∃ w : Half,
      exec (.encLr r) s = .next { s with answer := some (.longWord w) } ∧
      w = ((r.setWidth 16) <<< 5) ||| 0x8000#16 ∧ w.toNat = 0x8000 + 32 * r.toNat ∧
      encode s.cfg (.encLr r) = .bus [hi8 w, lo8 w]) ∧
    (∀ r : LongAddr, ∃ w : Half,
      exec (.encLw r) s = .next { s with answer := some (.longWord w) } ∧
      w = ((r.setWidth 16) <<< 5) ||| 0x8010#16 ∧ w.toNat = 0x8010 + 32 * r.toNat ∧
      encode s.cfg (.encLw r) = .bus [hi8 w, lo8 w])

/-! ## The step of the machine -/

/-- A step runs the presented operation on the state with the word taken from the inputs. The inbox is the
model's own [4]. -/
def Obligations.StepRunsTheDecodedInstruction : Prop :=
  ∀ (s : State) (w : PortWord) (rest : List Input) (i : Instr), s.accepts →
    s.inbox = .request w :: rest → decode s.cfg w = .ok i → step s = exec i { s with inbox := rest }

/-- Around that: with nothing presented an idle block waits, and a host's waiting is then done; a rejected word
is refused under its reason; while an `INIT` is in progress the sequencer moves if nothing disturbs it; an
ill-formed configuration is refused. Model's choices [4], [9], [16]. -/
def Obligations.StepOtherwise : Prop :=
  ∀ s : State,
    (s.accepts → s.inbox = [] → step s = .next s) ∧
    (∀ rest, s.accepts → s.inbox = .await :: rest → step s = .next { s with inbox := rest }) ∧
    (∀ w rest why, s.accepts → s.inbox = .request w :: rest → decode s.cfg w = .error why →
      step s = .refused (.rejectedWord why)) ∧
    (s.cfg.wf = true → s.stepReg ≠ .idle → s.undisturbed → step s = .next (sequencerStep s)) ∧
    (s.cfg.wf = false → step s = .refused .illFormedCfg)

/-- The decoder rejects exactly the reserved command codes as reserved (30_encoding.md section 4, decision
D1). -/
def Obligations.ReservedCommandsAreRejected : Prop :=
  ∀ (c : Cfg) (cmd : BitVec 4) (bs : List Byte),
    decode c (.host cmd bs) = .error .reservedCommand ↔
      cmd = 0x0#4 ∨ cmd = 0xD#4 ∨ cmd = 0xE#4 ∨ cmd = 0xF#4

/-- No operation runs under an ill-formed configuration (00_scope.md section 3, well-formedness). -/
def Obligations.IllFormedCfgIsRefused : Prop :=
  ∀ (i : Instr) (s : State), s.cfg.wf = false → exec i s = .refused .illFormedCfg

/-- While a command is in progress every host command is refused, and a step refuses every word that is
presented at any port, whatever it holds. The spec says it of commands at the command port
(70_reset_and_hazards.md section 3, one owner; decision D37); that the words at the ports of `DLY`, `AC` and
`RA` and on the bus are refused too is the model's [13]. -/
def Obligations.CommandWhileBusyIsRefused : Prop :=
  (∀ (i : Instr) (s : State), s.cfg.wf = true → s.stepReg ≠ .idle → i.isCommand = true →
    exec i s = .refused .busy) ∧
  (∀ (s : State) (w : PortWord) (rest : List Input), s.cfg.wf = true → s.stepReg ≠ .idle →
    s.inbox = .request w :: rest → step s = .refused .busy)

/-- The state after power-on, field by field: what the spec gives, and the values the model names for the
registers it leaves unspecified [3] and for its own fields [1] [2] [4] [5] [6]. -/
def Obligations.ResetState : Prop :=
  State.reset.cfg = Cfg.cfg0 ∧ State.reset.id.chan = Cfg.cfg0.chUnset ∧ State.reset.status = .uninit ∧
  State.reset.stepReg = .idle ∧ State.reset.dly.running = false ∧
  State.reset.id.pan = 0#16 ∧ State.reset.id.addr = 0#16 ∧ State.reset.id.seq = 0#8 ∧
  (∀ b ∈ State.reset.id.mac.toList, b = 0#8) ∧ (∀ b ∈ State.reset.id.key.toList, b = 0#8) ∧
  State.reset.rxf.src = 0#16 ∧ State.reset.rxf.len = 0#8 ∧
  State.reset.rxf.buf = List.replicate 116 0#8 ∧
  State.reset.txf.dstAddr = 0#16 ∧ State.reset.txf.dstPan = none ∧ State.reset.txf.orgAddr = none ∧
  State.reset.txf.len = 0#8 ∧ State.reset.txf.buf = List.replicate 116 0#8 ∧
  State.reset.dly.start = 0 ∧ State.reset.dly.duration = 0 ∧
  State.reset.inbox = [] ∧ State.reset.answer = none ∧ State.reset.io.trace = [] ∧
  State.reset.io.oks = ⟨[], 0⟩ ∧ State.reset.io.reads = ⟨[], 0⟩ ∧
  State.reset.io.pins = ⟨[], 0⟩ ∧ State.reset.io.ticks = ⟨[], 0⟩

/-- The numbers of the result codes, none of them `0xE` or `0xF` (decision D2), of `status` (D16) and of the
step register (D37); and which number an answer puts on the result port: its result code's, `OK` for
`GETLAST`, none for the `DLY` and `ENC` operations (30_encoding.md section 4, 10_state.md section 4,
60_exceptions.md section 1). -/
def Obligations.NumbersOfResultsStatusAndStep : Prop :=
  (Result.ok.code = 0x0#4 ∧ Result.initOk.code = 0x1#4 ∧ Result.txCompleted.code = 0x2#4 ∧
    Result.msgPresent.code = 0x3#4 ∧ Result.bufEmpty.code = 0x4#4 ∧ Result.invalidValue.code = 0x5#4 ∧
    Result.invalidArg.code = 0x6#4 ∧ Result.transportFail.code = 0x7#4 ∧ Result.noDest.code = 0x8#4 ∧
    Result.noPayload.code = 0x9#4 ∧ Result.tooLong.code = 0xA#4 ∧ Result.timeout.code = 0xB#4 ∧
    Result.notReady.code = 0xC#4 ∧ Result.decodeError.code = 0xD#4 ∧
    ∀ r : Result, r.code.toNat ≤ 0xD) ∧
  (DriverStatus.uninit.code = 0#2 ∧ DriverStatus.initOk.code = 1#2 ∧ DriverStatus.timeout.code = 2#2) ∧
  (SeqStep.idle.code = 0#4 ∧ SeqStep.step1.code = 1#4 ∧ SeqStep.step2.code = 2#4 ∧
    SeqStep.step3.code = 3#4 ∧ SeqStep.step4.code = 4#4 ∧ SeqStep.step5.code = 5#4 ∧
    SeqStep.step6.code = 6#4 ∧ SeqStep.step7.code = 7#4 ∧ SeqStep.step8.code = 8#4 ∧
    SeqStep.step9.code = 9#4 ∧ SeqStep.step10.code = 10#4 ∧ SeqStep.step11.code = 11#4 ∧
    ∀ n : SeqStep, n.code.toNat ≤ 11) ∧
  (∀ r : Result, (Answer.result r).res = some r.code) ∧ Answer.okView.res = some 0x0#4 ∧
  (∀ (r : Result) (b : Option Byte), (Answer.read r b).res = some r.code) ∧ Answer.done.res = none ∧
  (∀ b, (Answer.expired b).res = none) ∧ (∀ b, (Answer.shortWord b).res = none) ∧
  (∀ w, (Answer.longWord w).res = none)

/-- What stands on the result port after an operation: one of the results the spec lists for it, nothing for
the `DLY` and `ENC` operations, and nothing yet for an `INIT` still in one of its loops [9]. So no host
command ever shows `INVALID_ARG`, `TRANSPORT_FAIL`, `0xE` or `0xF` (30_encoding.md section 4,
60_exceptions.md section 1; the numbers are decision D2). -/
def Obligations.OperationsReturnOnlyTheirResults : Prop :=
  ∀ (i : Instr) (s t : State), exec i s = .next t →
    ((∃ r ∈ results i, t.resultPort = some r.code) ∨
      t.resultPort = none ∧ (results i = [] ∨ i = .init ∧ t.stepReg ≠ .idle)) ∧
    (i.isCommand = true → t.resultPort ≠ some 0x6#4 ∧ t.resultPort ≠ some 0x7#4 ∧
      t.resultPort ≠ some 0xE#4 ∧ t.resultPort ≠ some 0xF#4)

/-- A pulse of the reset input, at any time, also inside an `INIT`: the registers as after power-on, no event
(70_reset_and_hazards.md section 1, decision D39; the unspecified registers as the model names them [3]
[18]). -/
def Obligations.ResetInputResets : Prop :=
  ∀ (s : State) (rest : List Input), s.cfg.wf = true → s.inbox = .reset :: rest →
    ∃ t, step s = .next t ∧ t.id.chan = s.cfg.chUnset ∧ t.status = .uninit ∧ t.stepReg = .idle ∧
      t.dly.running = false ∧ t.io = s.io ∧ t.cfg = s.cfg ∧ t.inbox = rest ∧ t.answer = none ∧
      t = { State.powerOn s.cfg with io := s.io, inbox := rest }

/-! ## The delay -/

/-- `DLY.INIT` captures the tick, stores the duration, marks the timer running, emits the one `NOW`, and
changes nothing else (40_delay.md R111). -/
def Obligations.DelayInitCapturesTheTick : Prop :=
  ∀ (d : Nat) (s : State), s.cfg.wf = true → d < 2 ^ s.cfg.tickW →
    exec (.dlyInit d) s = .next { s with
      dly := { start := s.io.tickAt s.cfg.tickW 0, duration := d, running := true }
      answer := some .done
      io := { s.io with ticks := s.io.ticks.skip 1
                        trace := s.io.trace ++ [.now (s.io.tickAt s.cfg.tickW 0)] } } ∧
    (∃ ops, encode s.cfg (.dlyInit d) = .dly 0b00#2 ops)

/-- `DLY.READ` of a running timer answers whether the ticks elapsed, modulo the counter's width, reach the
duration; it writes no register; not running it is refused (40_delay.md, DLY.READ and the not-running case,
decision D9). Its select code is 01 (decision D3). -/
def Obligations.DelayReadTellsExpiry : Prop :=
  ∀ s : State, s.cfg.wf = true → s.dly.start < 2 ^ s.cfg.tickW →
    (s.dly.running = true →
      exec .dlyRead s = .next { s with
        answer := some (.expired (decide (s.dly.duration ≤
          (s.io.tickAt s.cfg.tickW 0 + 2 ^ s.cfg.tickW - s.dly.start) % 2 ^ s.cfg.tickW)))
        io := { s.io with ticks := s.io.ticks.skip 1
                          trace := s.io.trace ++ [.now (s.io.tickAt s.cfg.tickW 0)] } }) ∧
    (s.dly.running = false → exec .dlyRead s = .refused .delayNotRunning) ∧
    encode s.cfg .dlyRead = .dly 0b01#2 []

/-- The answer is right across an overflow of the tick counter: `e` ticks after the start, `e` below the
counter's range, it is whether `e` reaches the duration (40_delay.md, corner case 1 of DLY.READ). -/
def Obligations.DelayReadIsRightAcrossOverflow : Prop :=
  ∀ (s : State) (e : Nat), s.cfg.wf = true → s.dly.running = true → s.dly.start < 2 ^ s.cfg.tickW →
    e < 2 ^ s.cfg.tickW → s.io.tickAt s.cfg.tickW 0 = (s.dly.start + e) % 2 ^ s.cfg.tickW →
    ∃ t, exec .dlyRead s = .next t ∧ t.answer = some (.expired (decide (s.dly.duration ≤ e))) ∧
      t.dly = s.dly

/-- `DLY.RESET` captures the tick again, keeps the duration, marks the timer running (40_delay.md, DLY.RESET,
decision D9). Its select code is 10 (decision D3). -/
def Obligations.DelayResetKeepsTheDuration : Prop :=
  ∀ s : State, s.cfg.wf = true →
    exec .dlyReset s = .next { s with
      dly := { start := s.io.tickAt s.cfg.tickW 0, duration := s.dly.duration, running := true }
      answer := some .done
      io := { s.io with ticks := s.io.ticks.skip 1
                        trace := s.io.trace ++ [.now (s.io.tickAt s.cfg.tickW 0)] } } ∧
    encode s.cfg .dlyReset = .dly 0b10#2 []

/-- `DLY.WRITE` changes the duration alone, with no event (40_delay.md R114). -/
def Obligations.DelayWriteKeepsTheStart : Prop :=
  ∀ (d : Nat) (s : State), s.cfg.wf = true → d < 2 ^ s.cfg.tickW →
    exec (.dlyWrite d) s = .next { s with
      dly := { start := s.dly.start, duration := d, running := s.dly.running }
      answer := some .done } ∧
    (∃ ops, encode s.cfg (.dlyWrite d) = .dly 0b11#2 ops)

/-- A duration that is no `u(TICK_W)` cannot be presented: it is refused [10]. -/
def Obligations.DurationOutOfRangeIsRefused : Prop :=
  ∀ (d : Nat) (s : State), s.cfg.wf = true → 2 ^ s.cfg.tickW ≤ d →
    exec (.dlyInit d) s = .refused .durationRange ∧ exec (.dlyWrite d) s = .refused .durationRange

/-! ## Register access -/

/-- The two writes: one transaction, its four events in order, `OK` exactly when both transfers were, and
nothing else changed (41_codec_regaccess.md R127, R129). -/
def Obligations.RegisterWritesAreOneTransaction : Prop :=
  ∀ s : State, s.cfg.wf = true →
    (∀ (a : ShortAddr) (v : Byte),
      exec (.raSwr a v) s = .next { s with
        answer := some (.result (if s.io.okAt 0 = true ∧ s.io.okAt 1 = true then .ok else .transportFail))
        io := { s.io with oks := s.io.oks.skip 2
                          trace := s.io.trace ++ [.cs false, .w1 (shortWriteWord a) (s.io.okAt 0),
                            .w1 v (s.io.okAt 1), .cs true] } } ∧
      ∃ ops, encode s.cfg (.raSwr a v) = .ra 0b01#2 ops) ∧
    (∀ (a : LongAddr) (v : Byte),
      exec (.raLwr a v) s = .next { s with
        answer := some (.result (if s.io.okAt 0 = true ∧ s.io.okAt 1 = true then .ok else .transportFail))
        io := { s.io with oks := s.io.oks.skip 2
                          trace := s.io.trace ++ [.cs false, .w2 (longWriteWord a) (s.io.okAt 0),
                            .w1 v (s.io.okAt 1), .cs true] } } ∧
      ∃ ops, encode s.cfg (.raLwr a v) = .ra 0b11#2 ops)

/-- The two reads: with a destination one transaction, its four events in order, the byte delivered with the
result whether the transfers succeeded or not; with a null destination `INVALID_ARG` and no bus activity
(41_codec_regaccess.md R126, R128, R130). -/
def Obligations.RegisterReadsAreOneTransaction : Prop :=
  ∀ s : State, s.cfg.wf = true →
    (∀ a : ShortAddr,
      exec (.raSrd a true) s = .next { s with answer := some (.read .invalidArg none) } ∧
      exec (.raSrd a false) s = .next { s with
        answer := some (.read
          (if s.io.okAt 0 = true ∧ (s.io.readAt 0).1 = true then .ok else .transportFail)
          (some (s.io.readAt 0).2))
        io := { s.io with oks := s.io.oks.skip 1
                          reads := s.io.reads.skip 1
                          trace := s.io.trace ++ [.cs false, .w1 (shortReadWord a) (s.io.okAt 0),
                            .r1 (s.io.readAt 0).1 (s.io.readAt 0).2, .cs true] } } ∧
      ∀ null, ∃ ops, encode s.cfg (.raSrd a null) = .ra 0b00#2 ops) ∧
    (∀ a : LongAddr,
      exec (.raLrd a true) s = .next { s with answer := some (.read .invalidArg none) } ∧
      exec (.raLrd a false) s = .next { s with
        answer := some (.read
          (if s.io.okAt 0 = true ∧ (s.io.readAt 0).1 = true then .ok else .transportFail)
          (some (s.io.readAt 0).2))
        io := { s.io with oks := s.io.oks.skip 1
                          reads := s.io.reads.skip 1
                          trace := s.io.trace ++ [.cs false, .w2 (longReadWord a) (s.io.okAt 0),
                            .r1 (s.io.readAt 0).1 (s.io.readAt 0).2, .cs true] } } ∧
      ∀ null, ∃ ops, encode s.cfg (.raLrd a null) = .ra 0b10#2 ops)

/-- Every register access with a destination emits exactly four events, select first and deselect last, two
transfers between, and answers `OK` exactly when both transfers succeeded (41_codec_regaccess.md R131). -/
def Obligations.TransferFailureCompletesTheCycle : Prop :=
  ∀ (i : Instr) (s : State), s.cfg.wf = true → i.isRegAccess = true →
    (∀ a, i ≠ .raSrd a true) → (∀ a, i ≠ .raLrd a true) →
    ∃ t address data ok1 ok2, exec i s = .next t ∧
      t.io.trace = s.io.trace ++ [.cs false, address, data, .cs true] ∧
      ((∃ b, address = .w1 b ok1) ∨ ∃ w, address = .w2 w ok1) ∧
      ((∃ v, data = .w1 v ok2) ∨ ∃ v, data = .r1 ok2 v) ∧
      ((∃ b, t.answer = some (.read (if ok1 && ok2 then .ok else .transportFail) b)) ∨
        t.answer = some (.result (if ok1 && ok2 then .ok else .transportFail)))

/-! ## The configuration store -/

/-- The default loader: all six defaults while the channel is the sentinel, nothing otherwise; a second run
changes nothing; the channel is then no sentinel, and no operation makes it one again
(43_config.md R171). -/
def Obligations.DefaultsAreLoadedOnce : Prop :=
  (∀ s : State, s.cfg.wf = true →
    (s.id.chan = s.cfg.chUnset → s.loadDef = { s with id :=
      { mac := s.cfg.defMac, key := s.cfg.defKey, pan := s.cfg.defPanId, addr := s.cfg.defAddr,
        seq := s.cfg.defSeq, chan := s.cfg.defChannel } }) ∧
    (s.id.chan ≠ s.cfg.chUnset → s.loadDef = s) ∧
    s.loadDef.loadDef = s.loadDef ∧ s.loadDef.id.chan ≠ s.cfg.chUnset) ∧
  (∀ (i : Instr) (s t : State), exec i s = .next t → s.id.chan ≠ s.cfg.chUnset →
    t.id.chan ≠ t.cfg.chUnset)

/-- `SET.CH` (43_config.md, SET.CH, decision D26): accepted exactly for the 16 channel values. Its command
code is 2 (decision D1). -/
def Obligations.SetChannelAcceptsTheSixteenValues : Prop :=
  ∀ (ch : Byte) (s : State), s.accepts →
    exec (.setCh ch) s = .next (if ch ∈ s.cfg.chanValues.toList
      then { s with id := { s.loadedId with chan := ch }, answer := some (.result .ok) }
      else { s with answer := some (.result .invalidValue) }) ∧
    (∃ ops, encode s.cfg (.setCh ch) = .host 0x2#4 ops)

/-- `SET.PAN` and `SET.ADDR`: the broadcast value is rejected and changes nothing, every other value is
stored after the defaults (43_config.md R173, R174). -/
def Obligations.SetPanAndAddrRejectBroadcast : Prop :=
  ∀ (v : Half) (s : State), s.accepts →
    exec (.setPan v) s = .next (if v = s.cfg.broadcast
      then { s with answer := some (.result .invalidValue) }
      else { s with id := { s.loadedId with pan := v }, answer := some (.result .ok) }) ∧
    exec (.setAddr v) s = .next (if v = s.cfg.broadcast
      then { s with answer := some (.result .invalidValue) }
      else { s with id := { s.loadedId with addr := v }, answer := some (.result .ok) }) ∧
    (∃ ops, encode s.cfg (.setPan v) = .host 0x3#4 ops) ∧
    (∃ ops, encode s.cfg (.setAddr v) = .host 0x4#4 ops)

/-- `SET.SEQ` accepts every value, after the defaults (43_config.md R175). -/
def Obligations.SetSequenceAcceptsEveryValue : Prop :=
  ∀ (v : Byte) (s : State), s.accepts →
    exec (.setSeq v) s =
      .next { s with id := { s.loadedId with seq := v }, answer := some (.result .ok) } ∧
    (∃ ops, encode s.cfg (.setSeq v) = .host 0x5#4 ops)

/-- `SET.MAC` and `SET.KEY`: an all-zero array is rejected and changes nothing, every other array is stored
after the defaults (43_config.md R176, R177). -/
def Obligations.SetMacAndKeyRejectAllZero : Prop :=
  (∀ (mac : Vector Byte 8) (s : State), s.accepts →
    exec (.setMac mac) s = .next (if (∀ b ∈ mac.toList, b = 0#8)
      then { s with answer := some (.result .invalidValue) }
      else { s with id := { s.loadedId with mac := mac }, answer := some (.result .ok) }) ∧
    (∃ ops, encode s.cfg (.setMac mac) = .host 0x6#4 ops)) ∧
  (∀ (key : Vector Byte 16) (s : State), s.accepts →
    exec (.setKey key) s = .next (if (∀ b ∈ key.toList, b = 0#8)
      then { s with answer := some (.result .invalidValue) }
      else { s with id := { s.loadedId with key := key }, answer := some (.result .ok) }) ∧
    (∃ ops, encode s.cfg (.setKey key) = .host 0x7#4 ops))

/-! ## The init sequencer -/

/-- `INIT` with every answer of its four loops supplied and both polls ending ready runs to its end: result
and status `INIT_OK`, the step register idle again, and exactly the calls of the eleven steps; only `id`
(through the default loader), `status`, `dly`, the answer and the edge change (42_init.md; the poll's form
is decisions D10 to D12, the order inside the steps D14). Its command code is 1 (decision D1). -/
def Obligations.InitRunsToSuccess : Prop :=
  ∀ (s : State) (x : InitAnswers) (restTicks : List Nat) (restReads : List (Bool × Byte)), s.accepts →
    s.io.ticks.given = x.start2 :: x.ticks2 ++ x.start3 :: x.ticks3 ++ x.start7 :: x.ticks7 ++
      x.start9 :: x.ticks9 ++ restTicks →
    s.io.reads.given = x.reads2 ++ x.reads7 ++ x.last :: restReads →
    x.poll2 s.cfg .ready → x.wait3 s.cfg → x.poll7 s.cfg .ready → x.wait9 s.cfg →
    ∃ io, exec .init s = .next { s with
        id := s.loadedId
        status := .initOk
        dly := { start := x.start9, duration := s.cfg.settle2Ticks, running := true }
        answer := some (.result .initOk)
        io := io } ∧
      io.pins = s.io.pins ∧ io.ticks.given = restTicks ∧ io.reads.given = restReads ∧
      io.calls = s.io.calls ++ callsToPoll2 s.cfg ++ poll2Calls s.cfg x.ticks2.length ++
        callsToPoll7 s.cfg s.loadedId x.ticks3.length ++ poll7Calls s.cfg x.ticks7.length ++
        callsToEnd s.cfg s.loadedId x.ticks9.length ∧
      encode s.cfg .init = .host 0x1#4 []

/-- `INIT` whose first poll ends timed out stops there: result and status `TIMEOUT`, and no call of a later
step (42_init.md, step 2). -/
def Obligations.InitTimesOutInStep2 : Prop :=
  ∀ (s : State) (x : InitAnswers) (restTicks : List Nat) (restReads : List (Bool × Byte)), s.accepts →
    s.io.ticks.given = x.start2 :: x.ticks2 ++ restTicks →
    s.io.reads.given = x.reads2 ++ restReads →
    x.poll2 s.cfg .timedOut →
    ∃ io, exec .init s = .next { s with
        id := s.loadedId
        status := .timeout
        dly := { start := x.start2, duration := s.cfg.timeoutTicks, running := true }
        answer := some (.result .timeout)
        io := io } ∧
      io.pins = s.io.pins ∧ io.ticks.given = restTicks ∧ io.reads.given = restReads ∧
      io.calls = s.io.calls ++ callsToPoll2 s.cfg ++ poll2Calls s.cfg x.ticks2.length

/-- `INIT` whose second poll ends timed out stops there (42_init.md, step 7). -/
def Obligations.InitTimesOutInStep7 : Prop :=
  ∀ (s : State) (x : InitAnswers) (restTicks : List Nat) (restReads : List (Bool × Byte)), s.accepts →
    s.io.ticks.given = x.start2 :: x.ticks2 ++ x.start3 :: x.ticks3 ++ x.start7 :: x.ticks7 ++
      restTicks →
    s.io.reads.given = x.reads2 ++ x.reads7 ++ restReads →
    x.poll2 s.cfg .ready → x.wait3 s.cfg → x.poll7 s.cfg .timedOut →
    ∃ io, exec .init s = .next { s with
        id := s.loadedId
        status := .timeout
        dly := { start := x.start7, duration := s.cfg.timeoutTicks, running := true }
        answer := some (.result .timeout)
        io := io } ∧
      io.pins = s.io.pins ∧ io.ticks.given = restTicks ∧ io.reads.given = restReads ∧
      io.calls = s.io.calls ++ callsToPoll2 s.cfg ++ poll2Calls s.cfg x.ticks2.length ++
        callsToPoll7 s.cfg s.loadedId x.ticks3.length ++ poll7Calls s.cfg x.ticks7.length

/-- Whatever the environment answers: `INIT` is accepted; if it has ended, result and status are
`INIT_OK` or both are `TIMEOUT`; while it is still in one of its loops the status is the old one and there
is no answer yet; it changes `id` through the default loader alone and no frame (42_init.md, terminal
outcomes; the loops left open are [9]). -/
def Obligations.InitEndsInSuccessOrTimeout : Prop :=
  ∀ s : State, s.accepts →
    ∃ t, exec .init s = .next t ∧ t.id = s.loadedId ∧ t.cfg = s.cfg ∧ t.txf = s.txf ∧ t.rxf = s.rxf ∧
      t.inbox = s.inbox ∧ t.io.pins = s.io.pins ∧
      (t.stepReg = .idle → t.status = .initOk ∧ t.answer = some (.result .initOk) ∨
        t.status = .timeout ∧ t.answer = some (.result .timeout)) ∧
      (t.stepReg ≠ .idle → t.status = s.status ∧ t.answer = none)

/-- A move of the sequencer inside an `INIT` keeps the same promises: the status is written once, at the
end (42_init.md, terminal outcomes and `status`). -/
def Obligations.StatusIsWrittenAtTheEndOfInit : Prop :=
  ∀ s : State, s.cfg.wf = true → s.stepReg ≠ .idle → s.undisturbed →
    ∃ t, step s = .next t ∧ t.id = s.id ∧ t.cfg = s.cfg ∧ t.txf = s.txf ∧ t.rxf = s.rxf ∧
      t.inbox = s.inbox ∧ t.io.pins = s.io.pins ∧
      (t.stepReg = .idle → t.status = .initOk ∧ t.answer = some (.result .initOk) ∨
        t.status = .timeout ∧ t.answer = some (.result .timeout)) ∧
      (t.stepReg ≠ .idle → t.status = s.status ∧ t.answer = s.answer)

/-- One iteration of either poll: one read, then one elapsed check, both whatever the first shows; ready
and not expired goes on to step 3 or to step 9's wait, expired and not ready ends in `TIMEOUT`, neither
stays, and both is what `POLL_TIE` says (42_init.md, Poll, decisions D11, D12). -/
def Obligations.PollIterationOutcomes : Prop :=
  ∀ (s : State) (clear expired ready : Bool), s.cfg.wf = true → s.undisturbed →
    s.dly.start < 2 ^ s.cfg.tickW →
    clear = decide ((s.io.readAt 0).2 &&& s.cfg.map.softRstBits = 0#8) →
    ready = decide ((s.io.readAt 0).2 &&& s.cfg.map.rfStateMask = s.cfg.map.rfStateRx) →
    expired = decide (s.dly.duration ≤
      (s.io.tickAt s.cfg.tickW 0 + 2 ^ s.cfg.tickW - s.dly.start) % 2 ^ s.cfg.tickW) →
    (s.stepReg = .step2 → ∃ t rest, step s = .next t ∧
      t.io.calls = s.io.calls ++ shortReadCalls s.cfg.map.regSoftRst ++ .now :: rest ∧
      (if clear = true ∧ (expired = false ∨ s.cfg.pollTie = .readyWins)
        then t.stepReg = .step3 ∧ rest = [.now] ∧ t.status = s.status
        else if expired = true then t.stepReg = .idle ∧ rest = [] ∧ t.status = .timeout ∧
          t.answer = some (.result .timeout)
        else rest = [] ∧ ∃ io, t = { s with io := io })) ∧
    (s.stepReg = .step7 → ∃ t rest, step s = .next t ∧
      t.io.calls = s.io.calls ++ longReadCalls s.cfg.map.regRfState ++ .now :: rest ∧
      (if ready = true ∧ (expired = false ∨ s.cfg.pollTie = .readyWins)
        then t.stepReg = .step9 ∧ t.status = s.status
        else if expired = true then t.stepReg = .idle ∧ rest = [] ∧ t.status = .timeout ∧
          t.answer = some (.result .timeout)
        else rest = [] ∧ ∃ io, t = { s with io := io }))

/-- One elapsed check of either settle wait: until it shows expired the sequencer stays where it is and makes
no other call; then it goes on to step 7's poll, or ends with `INIT_OK` (42_init.md, Wait, decision D10). -/
def Obligations.SettleWaitHoldsUntilExpired : Prop :=
  ∀ (s : State) (expired : Bool), s.cfg.wf = true → s.undisturbed →
    s.dly.start < 2 ^ s.cfg.tickW →
    expired = decide (s.dly.duration ≤
      (s.io.tickAt s.cfg.tickW 0 + 2 ^ s.cfg.tickW - s.dly.start) % 2 ^ s.cfg.tickW) →
    s.stepReg = .step3 ∨ s.stepReg = .step9 →
    ∃ t rest, step s = .next t ∧ t.io.calls = s.io.calls ++ .now :: rest ∧
      (if expired = false then rest = [] ∧ ∃ io, t = { s with io := io }
        else if s.stepReg = .step3 then t.stepReg = .step7 ∧ t.status = s.status
        else t.stepReg = .idle ∧ t.status = .initOk ∧ t.answer = some (.result .initOk) ∧
          rest = shortWriteCalls s.cfg.map.regRxMcr 0x00#8 ++ shortReadCalls s.cfg.map.regIntStat)

/-! ## The packet builder -/

/-- The checks of `TX` in their order, each failure with no event and no change but its result; a command
that passes them all completes (44_builder.md R191, and R190, R195 for the completion). The premise of the
last clause that the frame's last position is a long address is the model's [12]: the rules have no such
bound, and every well-formed configuration with `HDR_LEN` at least 11 meets it. -/
def Obligations.TxChecksInOrder : Prop :=
  ∀ (dst : Half) (dpan org : Option Half) (payload : List Byte) (s : State), s.accepts →
    (s.status ≠ .initOk →
      exec (.tx dst dpan org payload) s = .next { s with answer := some (.result .notReady) }) ∧
    (s.status = .initOk → dst = 0x0000#16 →
      exec (.tx dst dpan org payload) s = .next { s with answer := some (.result .noDest) }) ∧
    (s.status = .initOk → dst ≠ 0x0000#16 → payload.length = 0 →
      exec (.tx dst dpan org payload) s = .next { s with answer := some (.result .noPayload) }) ∧
    (s.status = .initOk → dst ≠ 0x0000#16 → payload.length ≠ 0 → s.cfg.maxBuf < payload.length →
      exec (.tx dst dpan org payload) s = .next { s with answer := some (.result .tooLong) }) ∧
    (s.status = .initOk → dst ≠ 0x0000#16 → payload.length ≠ 0 → payload.length ≤ s.cfg.maxBuf →
      s.cfg.map.txFifoBase.toNat + 11 + payload.length ≤ 1023 →
      ∃ t, exec (.tx dst dpan org payload) s = .next t ∧ t.answer = some (.result .txCompleted))

/-- An accepted `TX`: byte by byte into consecutive long addresses from the FIFO's base the frame of R193,
then the trigger; the sequence number goes up by one modulo 256; the operands are kept in `txf`; nothing
else changes (44_builder.md R192 to R195). A rejected one changes neither `id` nor `txf` nor the edge. The
premise that the last position is a long address is the model's [12], where R193 has no such bound; every
well-formed configuration with `HDR_LEN` at least 11 meets it. The command code is 8 (R190, decision D1). -/
def Obligations.TxWritesTheFrame : Prop :=
  (∀ (dst : Half) (dpan org : Option Half) (payload : List Byte) (s : State), s.accepts →
    s.status = .initOk → dst ≠ 0x0000#16 → payload.length ≠ 0 → payload.length ≤ s.cfg.maxBuf →
    s.cfg.map.txFifoBase.toNat + 11 + payload.length ≤ 1023 →
    ∃ io, exec (.tx dst dpan org payload) s = .next { s with
        id := { s.id with seq := s.id.seq + 1#8 }
        txf := { dstAddr := dst, dstPan := dpan, orgAddr := org,
                 buf := payload ++ s.txf.buf.drop payload.length,
                 len := BitVec.ofNat 8 payload.length }
        answer := some (.result .txCompleted)
        io := io } ∧
      io.reads = s.io.reads ∧ io.pins = s.io.pins ∧ io.ticks = s.io.ticks ∧
      io.calls = s.io.calls ++
        (([BitVec.ofNat 8 s.cfg.hdrLen, BitVec.ofNat 8 (payload.length + s.cfg.hdrLen), s.cfg.fc0, s.cfg.fc1,
            s.id.seq, lo8 (dpan.getD s.id.pan), hi8 (dpan.getD s.id.pan), lo8 dst, hi8 dst,
            lo8 (org.getD s.id.addr), hi8 (org.getD s.id.addr)] ++ payload ++ [0x00#8]).zipIdx.flatMap
          fun b => longWriteCalls (BitVec.ofNat 10 (s.cfg.map.txFifoBase.toNat + b.2)) b.1) ++
        shortWriteCalls s.cfg.map.regTxnCon s.cfg.map.txnConTrigAck ∧
      ∃ ops, encode s.cfg (.tx dst dpan org payload) = .host 0x8#4 ops) ∧
  (∀ (dst : Half) (dpan org : Option Half) (payload : List Byte) (s t : State),
    exec (.tx dst dpan org payload) s = .next t → t.answer ≠ some (.result .txCompleted) →
    t.id = s.id ∧ t.txf = s.txf ∧ t.io = s.io)

/-- An accepted `TX` with a payload of `len` bytes emits `52 + 4 * len` events, whatever the bus answers, and
reads nothing (44_builder.md, counts). -/
def Obligations.TxEmitsFiftyTwoAndFourPerByte : Prop :=
  ∀ (dst : Half) (dpan org : Option Half) (payload : List Byte) (s t : State),
    exec (.tx dst dpan org payload) s = .next t → t.answer = some (.result .txCompleted) →
    t.io.trace.length = s.io.trace.length + (52 + 4 * payload.length) ∧ t.io.reads = s.io.reads

/-- A frame whose last position is no long address is refused, which a well-formed configuration with
`HDR_LEN` at least 11 never meets [12]. -/
def Obligations.TxBeyondTheLongSpaceIsRefused : Prop :=
  ∀ (dst : Half) (dpan org : Option Half) (payload : List Byte) (s : State), s.accepts →
    s.status = .initOk → dst ≠ 0x0000#16 → payload.length ≠ 0 → payload.length ≤ s.cfg.maxBuf →
    (1023 < s.cfg.map.txFifoBase.toNat + 11 + payload.length →
      exec (.tx dst dpan org payload) s = .refused .addressRange ∧ s.cfg.hdrLen < 11)

/-! ## The packet parser -/

/-- The gate: before a successful `INIT` the four gated commands answer `NOT_READY`, with no event and no
other change, whatever the pin and the registers would show (45_parser.md R202). -/
def Obligations.GatedCommandsAnswerNotReady : Prop :=
  ∀ s : State, s.accepts → s.status ≠ .initOk →
    exec .rx s = .next { s with answer := some (.result .notReady) } ∧
    exec .isNew s = .next { s with answer := some (.result .notReady) } ∧
    exec .discover s = .next { s with answer := some (.result .notReady) } ∧
    ∀ dst dpan org payload,
      exec (.tx dst dpan org payload) s = .next { s with answer := some (.result .notReady) }

/-- `RX` of a frame whose length byte is in range: source, length and payload from the read answers in
order, stale bytes kept beyond the payload; prologue, header reads at positions 0, 9, 8, payload reads from
position `HDR_LEN - 1`, the four trailer reads when `TRAILER_READ`, epilogue; nothing else changes
(45_parser.md, RX; decisions D29 to D32). Its command code is 0xA (decision D1). -/
def Obligations.RxDecodesTheFrame : Prop :=
  ∀ (s : State) (n : Nat), s.accepts → s.status = .initOk →
    (s.io.readAt 0).2.toNat = n + 4 → n ≤ s.cfg.maxBuf →
    ∃ io, exec .rx s = .next { s with
        rxf := { src := (s.io.readAt 1).2 ++ (s.io.readAt 2).2
                 buf := ((List.range n).map fun k => (s.io.readAt (3 + k)).2) ++ s.rxf.buf.drop n
                 len := BitVec.ofNat 8 n }
        answer := some (.result .ok)
        io := io } ∧
      io.pins = s.io.pins ∧ io.ticks = s.io.ticks ∧
      io.reads = s.io.reads.skip (if s.cfg.trailerRead then 8 + n else 4 + n) ∧
      io.calls = s.io.calls ++
        shortWriteCalls s.cfg.map.regBbReg1 s.cfg.map.rxDecInvOn ++
        shortWriteCalls s.cfg.map.regRxFlush s.cfg.map.rxFlushRx ++
        ([0, 9, 8] ++ List.range' (s.cfg.hdrLen - 1) (if s.cfg.trailerRead then n + 4 else n)).flatMap
          (fun p => longReadCalls (BitVec.ofNat 10 (s.cfg.map.rxFifoBase.toNat + p))) ++
        shortWriteCalls s.cfg.map.regBbReg1 s.cfg.map.rxDecInvOff ++
        shortReadCalls s.cfg.map.regIntStat ∧
      encode s.cfg .rx = .host 0xA#4 []

/-- `RX` of a frame whose length byte is out of range: `DECODE_ERROR` after seven transactions, the new
source, length 0, the buffer as it was, decode inversion off again and the flags read (45_parser.md, length
check and epilogue; decision D29). -/
def Obligations.RxRejectsABadLength : Prop :=
  ∀ s : State, s.accepts → s.status = .initOk →
    (s.io.readAt 0).2.toNat < 4 ∨ s.cfg.maxBuf + 4 < (s.io.readAt 0).2.toNat →
    ∃ io, exec .rx s = .next { s with
        rxf := { src := (s.io.readAt 1).2 ++ (s.io.readAt 2).2, buf := s.rxf.buf, len := 0#8 }
        answer := some (.result .decodeError)
        io := io } ∧
      io.pins = s.io.pins ∧ io.ticks = s.io.ticks ∧ io.reads = s.io.reads.skip 4 ∧
      io.calls = s.io.calls ++
        shortWriteCalls s.cfg.map.regBbReg1 s.cfg.map.rxDecInvOn ++
        shortWriteCalls s.cfg.map.regRxFlush s.cfg.map.rxFlushRx ++
        [0, 9, 8].flatMap (fun p => longReadCalls (BitVec.ofNat 10 (s.cfg.map.rxFifoBase.toNat + p))) ++
        shortWriteCalls s.cfg.map.regBbReg1 s.cfg.map.rxDecInvOff ++
        shortReadCalls s.cfg.map.regIntStat

/-- Every address `RX` puts on the bus is the one it means: no position it reads lies beyond the long space
(45_parser.md, counts). -/
def Obligations.RxPositionsAreLongAddresses : Prop :=
  ∀ (c : Cfg) (n p : Nat), c.wf = true → n ≤ c.maxBuf →
    p ∈ [0, 9, 8] ++ List.range' (c.hdrLen - 1) (n + 4) →
    (position c.map.rxFifoBase p).toNat = c.map.rxFifoBase.toNat + p

/-- `ISNEW` past the gate samples the pin once and says what it shows (45_parser.md, ISNEW, decision
D35). Its command code is 9 (decision D1). -/
def Obligations.IsNewSamplesThePinOnce : Prop :=
  ∀ s : State, s.accepts → s.status = .initOk →
    exec .isNew s = .next { s with
      answer := some (.result (if s.io.pinAt 0 = true then .msgPresent else .bufEmpty))
      io := { s.io with pins := s.io.pins.skip 1, trace := s.io.trace ++ [.int (s.io.pinAt 0)] } } ∧
    encode s.cfg .isNew = .host 0x9#4 []

/-- `GETLAST` answers in every status, changes nothing, and the view it gives is the live register: whatever
operation comes next, the view then shows the register as that operation left it, which is the old frame
unless the operation is an `RX` (45_parser.md, GETLAST, decision D33; 10_state.md section 3). Its command
code is 0xB (decision D1). -/
def Obligations.GetLastGivesTheLiveFrame : Prop :=
  ∀ s : State, s.accepts →
    exec .getLast s = .next { s with answer := some .okView } ∧
    encode s.cfg .getLast = .host 0xB#4 [] ∧
    ∀ (i : Instr) (t : State), exec i { s with answer := some .okView } = .next t →
      (i ≠ .rx → t.lastFrame = (s.rxf.src, s.rxf.len, s.rxf.buf)) ∧
      (i = .rx → s.status = .initOk → t.lastFrame.1 = (s.io.readAt 1).2 ++ (s.io.readAt 2).2)

/-- `DISCOVER` past its gate is the documented no-op (45_parser.md, DISCOVER, decision D34). Its command code
is 0xC (decision D1). -/
def Obligations.DiscoverDoesNothing : Prop :=
  ∀ s : State, s.accepts → s.status = .initOk →
    exec .discover s = .next { s with answer := some (.result .ok) } ∧
    encode s.cfg .discover = .host 0xC#4 []

/-! ## The whole machine -/

/-- The invariant holds just after reset, with the configuration and the unspecified registers as the model
names them [2] [3]. -/
def Obligations.InvariantHoldsAtReset : Prop := Inv State.reset

/-- Every step keeps the invariant, from every state that meets it. In the case of a reset pulse the clauses
about the frames and the tick registers are the model's: they hold because the model resets the lengths to
zero, the buffers to `MAX_BUF` zero bytes and the ticks to zero [3], where 10_state.md R34 leaves them
unspecified. -/
def Obligations.EveryStepKeepsTheInvariant : Prop :=
  ∀ s t : State, Inv s → step s = .next t → Inv t

/-- Every step keeps the bus discipline: each chip-select bracket is one whole transaction, and nothing is
transferred outside one (20_memory.md section 3). The prologue must not select the transceiver itself. The
case of a reset pulse is the model's choice: a pulse falls between two steps, so never inside a transaction
[18]; 70_reset_and_hazards.md R250 does not say so. -/
def Obligations.EveryStepKeepsTheBrackets : Prop :=
  ∀ s t : State, (∀ e ∈ s.cfg.pinPrologue, e ≠ .cs false) → bracketed s.io.calls → step s = .next t →
    bracketed t.io.calls ∧ t.cfg = s.cfg ∧ ∃ more, t.io.trace = s.io.trace ++ more

/-- Nothing but `INIT` and reset changes the mode (60_exceptions.md section 5): every other operation,
whatever its result, leaves `status` and `step` alone. -/
def Obligations.OnlyInitChangesTheMode : Prop :=
  ∀ (i : Instr) (s t : State), exec i s = .next t → i ≠ .init →
    t.status = s.status ∧ t.stepReg = s.stepReg

/-- The access table (10_state.md section 6): which operations write `id`, `txf`, `rxf` and `dly`; none
writes the configuration or the inputs, and the setters, `GETLAST`, `DISCOVER`, the encoders and `DLY.WRITE`
emit nothing. -/
def Obligations.AccessTable : Prop :=
  ∀ (i : Instr) (s t : State), exec i s = .next t →
    t.cfg = s.cfg ∧ t.inbox = s.inbox ∧
    (i.isSetter = false → i ≠ .init → (∀ dst dpan org p, i ≠ .tx dst dpan org p) → t.id = s.id) ∧
    ((∃ dst dpan org p, i = .tx dst dpan org p) → t.id = { s.id with seq := t.id.seq }) ∧
    ((∀ dst dpan org p, i ≠ .tx dst dpan org p) → t.txf = s.txf) ∧
    (i ≠ .rx → t.rxf = s.rxf) ∧
    (i.writesDelay = false → t.dly = s.dly) ∧
    (i.isSetter = true ∨ i = .getLast ∨ i = .discover ∨ (∃ r, i = .encSr r ∨ i = .encSw r) ∨
      (∃ r, i = .encLr r ∨ i = .encLw r) ∨ (∃ d, i = .dlyWrite d) → t.io = s.io)

/-- The units `AC` and `RA` have no state: each of their eight operations changes the edge and the answer, no
flag and no register (41_codec_regaccess.md, head; 10_state.md section 6). -/
def Obligations.AddressUnitsWriteNoRegister : Prop :=
  ∀ (i : Instr) (s t : State), i.isAddressUnit = true → exec i s = .next t →
    t = { s with answer := t.answer, io := t.io }

/-- A failing bus changes no result (60_exceptions.md section 1, P6 of 95_test_vectors.md): two runs of any
operation but those of `RA`, from states that differ only in the transport answers to come and seen, end
alike in every register and in the answer, and make the same calls. -/
def Obligations.TransportAnswersChangeNoResult : Prop :=
  ∀ (i : Instr) (s : State) (io' : Io) (t : State), i.isRegAccess = false → SameButOk s.io io' →
    exec i s = .next t →
    ∃ io'', exec i { s with io := io' } = .next { t with io := io'' } ∧ SameButOk t.io io''

/-- The security key and the outbound-frame register are never read (10_state.md sections 2 and 3): runs
from states that differ only there emit the same events, give the same answers and leave the same other
registers. -/
def Obligations.KeyAndOutboundFrameAreNeverRead : Prop :=
  ∀ (i : Instr) (s s' t : State), SameButUnread s s' → exec i s = .next t →
    ∃ t', exec i s' = .next t' ∧ SameButUnread t t'
end

