-- ==== Sys2Proof/Laws/State.lean ====
section
/-! SUPPORT. One lemma per field per update of a state, each true by unfolding, for the simplifier. -/

namespace Sys2Proof.Machine

/-- States with the same fields are the same. -/
theorem State.eq_of_fields {s t : State} (cfg : s.cfg = t.cfg) (id : s.id = t.id) (txf : s.txf = t.txf)
    (rxf : s.rxf = t.rxf) (status : s.status = t.status) (stepReg : s.stepReg = t.stepReg)
    (dly : s.dly = t.dly) (inbox : s.inbox = t.inbox) (answer : s.answer = t.answer) (io : s.io = t.io) :
    s = t := by
  cases s
  cases t
  simp_all

/-! ### `State.withIo` -/

@[simp] theorem State.withIo_cfg (s : State) (v : Io) : (s.withIo v).cfg = s.cfg := rfl
@[simp] theorem State.withIo_id (s : State) (v : Io) : (s.withIo v).id = s.id := rfl
@[simp] theorem State.withIo_txf (s : State) (v : Io) : (s.withIo v).txf = s.txf := rfl
@[simp] theorem State.withIo_rxf (s : State) (v : Io) : (s.withIo v).rxf = s.rxf := rfl
@[simp] theorem State.withIo_status (s : State) (v : Io) : (s.withIo v).status = s.status := rfl
@[simp] theorem State.withIo_stepReg (s : State) (v : Io) : (s.withIo v).stepReg = s.stepReg := rfl
@[simp] theorem State.withIo_dly (s : State) (v : Io) : (s.withIo v).dly = s.dly := rfl
@[simp] theorem State.withIo_inbox (s : State) (v : Io) : (s.withIo v).inbox = s.inbox := rfl
@[simp] theorem State.withIo_answer (s : State) (v : Io) : (s.withIo v).answer = s.answer := rfl
@[simp] theorem State.withIo_io (s : State) (v : Io) : (s.withIo v).io = v := rfl

/-! ### `State.withId` -/

@[simp] theorem State.withId_cfg (s : State) (v : RadioIdentity) : (s.withId v).cfg = s.cfg := rfl
@[simp] theorem State.withId_id (s : State) (v : RadioIdentity) : (s.withId v).id = v := rfl
@[simp] theorem State.withId_txf (s : State) (v : RadioIdentity) : (s.withId v).txf = s.txf := rfl
@[simp] theorem State.withId_rxf (s : State) (v : RadioIdentity) : (s.withId v).rxf = s.rxf := rfl
@[simp] theorem State.withId_status (s : State) (v : RadioIdentity) : (s.withId v).status = s.status := rfl
@[simp] theorem State.withId_stepReg (s : State) (v : RadioIdentity) : (s.withId v).stepReg = s.stepReg := rfl
@[simp] theorem State.withId_dly (s : State) (v : RadioIdentity) : (s.withId v).dly = s.dly := rfl
@[simp] theorem State.withId_inbox (s : State) (v : RadioIdentity) : (s.withId v).inbox = s.inbox := rfl
@[simp] theorem State.withId_answer (s : State) (v : RadioIdentity) : (s.withId v).answer = s.answer := rfl
@[simp] theorem State.withId_io (s : State) (v : RadioIdentity) : (s.withId v).io = s.io := rfl

/-! ### `State.withTxf` -/

@[simp] theorem State.withTxf_cfg (s : State) (v : OutboundFrame) : (s.withTxf v).cfg = s.cfg := rfl
@[simp] theorem State.withTxf_id (s : State) (v : OutboundFrame) : (s.withTxf v).id = s.id := rfl
@[simp] theorem State.withTxf_txf (s : State) (v : OutboundFrame) : (s.withTxf v).txf = v := rfl
@[simp] theorem State.withTxf_rxf (s : State) (v : OutboundFrame) : (s.withTxf v).rxf = s.rxf := rfl
@[simp] theorem State.withTxf_status (s : State) (v : OutboundFrame) : (s.withTxf v).status = s.status := rfl
@[simp] theorem State.withTxf_stepReg (s : State) (v : OutboundFrame) : (s.withTxf v).stepReg = s.stepReg := rfl
@[simp] theorem State.withTxf_dly (s : State) (v : OutboundFrame) : (s.withTxf v).dly = s.dly := rfl
@[simp] theorem State.withTxf_inbox (s : State) (v : OutboundFrame) : (s.withTxf v).inbox = s.inbox := rfl
@[simp] theorem State.withTxf_answer (s : State) (v : OutboundFrame) : (s.withTxf v).answer = s.answer := rfl
@[simp] theorem State.withTxf_io (s : State) (v : OutboundFrame) : (s.withTxf v).io = s.io := rfl

/-! ### `State.withRxf` -/

@[simp] theorem State.withRxf_cfg (s : State) (v : InboundFrame) : (s.withRxf v).cfg = s.cfg := rfl
@[simp] theorem State.withRxf_id (s : State) (v : InboundFrame) : (s.withRxf v).id = s.id := rfl
@[simp] theorem State.withRxf_txf (s : State) (v : InboundFrame) : (s.withRxf v).txf = s.txf := rfl
@[simp] theorem State.withRxf_rxf (s : State) (v : InboundFrame) : (s.withRxf v).rxf = v := rfl
@[simp] theorem State.withRxf_status (s : State) (v : InboundFrame) : (s.withRxf v).status = s.status := rfl
@[simp] theorem State.withRxf_stepReg (s : State) (v : InboundFrame) : (s.withRxf v).stepReg = s.stepReg := rfl
@[simp] theorem State.withRxf_dly (s : State) (v : InboundFrame) : (s.withRxf v).dly = s.dly := rfl
@[simp] theorem State.withRxf_inbox (s : State) (v : InboundFrame) : (s.withRxf v).inbox = s.inbox := rfl
@[simp] theorem State.withRxf_answer (s : State) (v : InboundFrame) : (s.withRxf v).answer = s.answer := rfl
@[simp] theorem State.withRxf_io (s : State) (v : InboundFrame) : (s.withRxf v).io = s.io := rfl

/-! ### `State.withStatus` -/

@[simp] theorem State.withStatus_cfg (s : State) (v : DriverStatus) : (s.withStatus v).cfg = s.cfg := rfl
@[simp] theorem State.withStatus_id (s : State) (v : DriverStatus) : (s.withStatus v).id = s.id := rfl
@[simp] theorem State.withStatus_txf (s : State) (v : DriverStatus) : (s.withStatus v).txf = s.txf := rfl
@[simp] theorem State.withStatus_rxf (s : State) (v : DriverStatus) : (s.withStatus v).rxf = s.rxf := rfl
@[simp] theorem State.withStatus_status (s : State) (v : DriverStatus) : (s.withStatus v).status = v := rfl
@[simp] theorem State.withStatus_stepReg (s : State) (v : DriverStatus) : (s.withStatus v).stepReg = s.stepReg := rfl
@[simp] theorem State.withStatus_dly (s : State) (v : DriverStatus) : (s.withStatus v).dly = s.dly := rfl
@[simp] theorem State.withStatus_inbox (s : State) (v : DriverStatus) : (s.withStatus v).inbox = s.inbox := rfl
@[simp] theorem State.withStatus_answer (s : State) (v : DriverStatus) : (s.withStatus v).answer = s.answer := rfl
@[simp] theorem State.withStatus_io (s : State) (v : DriverStatus) : (s.withStatus v).io = s.io := rfl

/-! ### `State.withStep` -/

@[simp] theorem State.withStep_cfg (s : State) (v : SeqStep) : (s.withStep v).cfg = s.cfg := rfl
@[simp] theorem State.withStep_id (s : State) (v : SeqStep) : (s.withStep v).id = s.id := rfl
@[simp] theorem State.withStep_txf (s : State) (v : SeqStep) : (s.withStep v).txf = s.txf := rfl
@[simp] theorem State.withStep_rxf (s : State) (v : SeqStep) : (s.withStep v).rxf = s.rxf := rfl
@[simp] theorem State.withStep_status (s : State) (v : SeqStep) : (s.withStep v).status = s.status := rfl
@[simp] theorem State.withStep_stepReg (s : State) (v : SeqStep) : (s.withStep v).stepReg = v := rfl
@[simp] theorem State.withStep_dly (s : State) (v : SeqStep) : (s.withStep v).dly = s.dly := rfl
@[simp] theorem State.withStep_inbox (s : State) (v : SeqStep) : (s.withStep v).inbox = s.inbox := rfl
@[simp] theorem State.withStep_answer (s : State) (v : SeqStep) : (s.withStep v).answer = s.answer := rfl
@[simp] theorem State.withStep_io (s : State) (v : SeqStep) : (s.withStep v).io = s.io := rfl

/-! ### `State.withDly` -/

@[simp] theorem State.withDly_cfg (s : State) (v : DelayState) : (s.withDly v).cfg = s.cfg := rfl
@[simp] theorem State.withDly_id (s : State) (v : DelayState) : (s.withDly v).id = s.id := rfl
@[simp] theorem State.withDly_txf (s : State) (v : DelayState) : (s.withDly v).txf = s.txf := rfl
@[simp] theorem State.withDly_rxf (s : State) (v : DelayState) : (s.withDly v).rxf = s.rxf := rfl
@[simp] theorem State.withDly_status (s : State) (v : DelayState) : (s.withDly v).status = s.status := rfl
@[simp] theorem State.withDly_stepReg (s : State) (v : DelayState) : (s.withDly v).stepReg = s.stepReg := rfl
@[simp] theorem State.withDly_dly (s : State) (v : DelayState) : (s.withDly v).dly = v := rfl
@[simp] theorem State.withDly_inbox (s : State) (v : DelayState) : (s.withDly v).inbox = s.inbox := rfl
@[simp] theorem State.withDly_answer (s : State) (v : DelayState) : (s.withDly v).answer = s.answer := rfl
@[simp] theorem State.withDly_io (s : State) (v : DelayState) : (s.withDly v).io = s.io := rfl

/-! ### `State.withInbox` -/

@[simp] theorem State.withInbox_cfg (s : State) (v : List Input) : (s.withInbox v).cfg = s.cfg := rfl
@[simp] theorem State.withInbox_id (s : State) (v : List Input) : (s.withInbox v).id = s.id := rfl
@[simp] theorem State.withInbox_txf (s : State) (v : List Input) : (s.withInbox v).txf = s.txf := rfl
@[simp] theorem State.withInbox_rxf (s : State) (v : List Input) : (s.withInbox v).rxf = s.rxf := rfl
@[simp] theorem State.withInbox_status (s : State) (v : List Input) : (s.withInbox v).status = s.status := rfl
@[simp] theorem State.withInbox_stepReg (s : State) (v : List Input) : (s.withInbox v).stepReg = s.stepReg := rfl
@[simp] theorem State.withInbox_dly (s : State) (v : List Input) : (s.withInbox v).dly = s.dly := rfl
@[simp] theorem State.withInbox_inbox (s : State) (v : List Input) : (s.withInbox v).inbox = v := rfl
@[simp] theorem State.withInbox_answer (s : State) (v : List Input) : (s.withInbox v).answer = s.answer := rfl
@[simp] theorem State.withInbox_io (s : State) (v : List Input) : (s.withInbox v).io = s.io := rfl

/-! ### `State.withAnswer` -/

@[simp] theorem State.withAnswer_cfg (s : State) (v : Option Answer) : (s.withAnswer v).cfg = s.cfg := rfl
@[simp] theorem State.withAnswer_id (s : State) (v : Option Answer) : (s.withAnswer v).id = s.id := rfl
@[simp] theorem State.withAnswer_txf (s : State) (v : Option Answer) : (s.withAnswer v).txf = s.txf := rfl
@[simp] theorem State.withAnswer_rxf (s : State) (v : Option Answer) : (s.withAnswer v).rxf = s.rxf := rfl
@[simp] theorem State.withAnswer_status (s : State) (v : Option Answer) : (s.withAnswer v).status = s.status := rfl
@[simp] theorem State.withAnswer_stepReg (s : State) (v : Option Answer) : (s.withAnswer v).stepReg = s.stepReg := rfl
@[simp] theorem State.withAnswer_dly (s : State) (v : Option Answer) : (s.withAnswer v).dly = s.dly := rfl
@[simp] theorem State.withAnswer_inbox (s : State) (v : Option Answer) : (s.withAnswer v).inbox = s.inbox := rfl
@[simp] theorem State.withAnswer_answer (s : State) (v : Option Answer) : (s.withAnswer v).answer = v := rfl
@[simp] theorem State.withAnswer_io (s : State) (v : Option Answer) : (s.withAnswer v).io = s.io := rfl

/-! ### `State.give` -/

@[simp] theorem State.give_cfg (s : State) (v : Answer) : (s.give v).cfg = s.cfg := rfl
@[simp] theorem State.give_id (s : State) (v : Answer) : (s.give v).id = s.id := rfl
@[simp] theorem State.give_txf (s : State) (v : Answer) : (s.give v).txf = s.txf := rfl
@[simp] theorem State.give_rxf (s : State) (v : Answer) : (s.give v).rxf = s.rxf := rfl
@[simp] theorem State.give_status (s : State) (v : Answer) : (s.give v).status = s.status := rfl
@[simp] theorem State.give_stepReg (s : State) (v : Answer) : (s.give v).stepReg = s.stepReg := rfl
@[simp] theorem State.give_dly (s : State) (v : Answer) : (s.give v).dly = s.dly := rfl
@[simp] theorem State.give_inbox (s : State) (v : Answer) : (s.give v).inbox = s.inbox := rfl
@[simp] theorem State.give_answer (s : State) (v : Answer) : (s.give v).answer = some v := rfl
@[simp] theorem State.give_io (s : State) (v : Answer) : (s.give v).io = s.io := rfl

/-! ### `State.ret` -/

@[simp] theorem State.ret_cfg (s : State) (v : Result) : (s.ret v).cfg = s.cfg := rfl
@[simp] theorem State.ret_id (s : State) (v : Result) : (s.ret v).id = s.id := rfl
@[simp] theorem State.ret_txf (s : State) (v : Result) : (s.ret v).txf = s.txf := rfl
@[simp] theorem State.ret_rxf (s : State) (v : Result) : (s.ret v).rxf = s.rxf := rfl
@[simp] theorem State.ret_status (s : State) (v : Result) : (s.ret v).status = s.status := rfl
@[simp] theorem State.ret_stepReg (s : State) (v : Result) : (s.ret v).stepReg = s.stepReg := rfl
@[simp] theorem State.ret_dly (s : State) (v : Result) : (s.ret v).dly = s.dly := rfl
@[simp] theorem State.ret_inbox (s : State) (v : Result) : (s.ret v).inbox = s.inbox := rfl
@[simp] theorem State.ret_answer (s : State) (v : Result) : (s.ret v).answer = some (.result v) := rfl
@[simp] theorem State.ret_io (s : State) (v : Result) : (s.ret v).io = s.io := rfl

/-! ### Updates of the edge -/

@[simp] theorem Io.emit_oks (e : Event) (io : Io) : (io.emit e).oks = io.oks := rfl
@[simp] theorem Io.emit_reads (e : Event) (io : Io) : (io.emit e).reads = io.reads := rfl
@[simp] theorem Io.emit_pins (e : Event) (io : Io) : (io.emit e).pins = io.pins := rfl
@[simp] theorem Io.emit_ticks (e : Event) (io : Io) : (io.emit e).ticks = io.ticks := rfl
@[simp] theorem Io.emit_trace (e : Event) (io : Io) : (io.emit e).trace = io.trace ++ [e] := rfl

end Sys2Proof.Machine
end

