-- ==== Sys2Proof/Laws/Io.lean ====
section
/-! SUPPORT. What the operations on the block's edge do: feeds, events, the four transactions, lists of
them. Each transaction is given once as an equation of the whole edge; the field lemmas follow. -/

namespace Sys2Proof.Machine

/-! ### Feeds -/

theorem Feed.next_eq {α : Type} (free : Nat → α) (q : Feed α) :
    q.next free = (q.nth free 0, q.skip 1) := by
  rcases q with ⟨g, d⟩
  cases g <;> simp [Feed.next, Feed.nth, Feed.skip]

@[simp] theorem Feed.skip_zero {α : Type} (q : Feed α) : q.skip 0 = q := by
  simp [Feed.skip]

@[simp] theorem Feed.skip_skip {α : Type} (q : Feed α) (j k : Nat) :
    (q.skip j).skip k = q.skip (j + k) := by
  simp only [Feed.skip, List.drop_drop, List.length_drop, Feed.mk.injEq, true_and]
  omega

@[simp] theorem Feed.nth_skip {α : Type} (free : Nat → α) (q : Feed α) (j k : Nat) :
    (q.skip j).nth free k = q.nth free (j + k) := by
  simp only [Feed.skip, Feed.nth, List.getElem?_drop, List.length_drop]
  rcases h : q.given[j + k]? with _ | a
  · have : q.given.length ≤ j + k := by simpa using h
    simp only
    congr 1
    omega
  · rfl

/-- The `k`-th answer to come is the `k`-th supplied one, while there are that many. -/
theorem Feed.nth_given {α : Type} (free : Nat → α) (q : Feed α) (k : Nat) (a : α)
    (h : q.given[k]? = some a) : q.nth free k = a := by
  simp [Feed.nth, h]

/-! ### The four transactions -/

/-- The edge after a transaction that takes two `ok` answers. -/
theorem Io.shortWrite_eq (a : ShortAddr) (v : Byte) (io : Io) :
    io.shortWrite a v =
      (transferResult (io.okAt 0) (io.okAt 1),
        { io with oks := io.oks.skip 2
                  trace := io.trace ++ [.cs false, .w1 (shortWriteWord a) (io.okAt 0),
                    .w1 v (io.okAt 1), .cs true] }) := by
  simp [Io.shortWrite, Io.cs, Io.emit, Io.w1, Io.okAt, Feed.next_eq]

theorem Io.longWrite_eq (a : LongAddr) (v : Byte) (io : Io) :
    io.longWrite a v =
      (transferResult (io.okAt 0) (io.okAt 1),
        { io with oks := io.oks.skip 2
                  trace := io.trace ++ [.cs false, .w2 (longWriteWord a) (io.okAt 0),
                    .w1 v (io.okAt 1), .cs true] }) := by
  simp [Io.longWrite, Io.cs, Io.emit, Io.w1, Io.w2, Io.okAt, Feed.next_eq]

/-- The edge after a transaction that takes one `ok` answer and one `R1` answer. -/
theorem Io.shortRead_eq (a : ShortAddr) (io : Io) :
    io.shortRead a =
      ((transferResult (io.okAt 0) (io.readAt 0).1, (io.readAt 0).2),
        { io with oks := io.oks.skip 1
                  reads := io.reads.skip 1
                  trace := io.trace ++ [.cs false, .w1 (shortReadWord a) (io.okAt 0),
                    .r1 (io.readAt 0).1 (io.readAt 0).2, .cs true] }) := by
  simp [Io.shortRead, Io.cs, Io.emit, Io.w1, Io.r1, Io.okAt, Io.readAt, Feed.next_eq]

theorem Io.longRead_eq (a : LongAddr) (io : Io) :
    io.longRead a =
      ((transferResult (io.okAt 0) (io.readAt 0).1, (io.readAt 0).2),
        { io with oks := io.oks.skip 1
                  reads := io.reads.skip 1
                  trace := io.trace ++ [.cs false, .w2 (longReadWord a) (io.okAt 0),
                    .r1 (io.readAt 0).1 (io.readAt 0).2, .cs true] }) := by
  simp [Io.longRead, Io.cs, Io.emit, Io.w2, Io.r1, Io.okAt, Io.readAt, Feed.next_eq]

theorem Io.now_eq (w : Nat) (io : Io) :
    io.now w =
      (io.tickAt w 0,
        { io with ticks := io.ticks.skip 1, trace := io.trace ++ [.now (io.tickAt w 0)] }) := by
  simp [Io.now, Io.emit, Io.tickAt, Feed.next_eq]

theorem Io.int_eq (io : Io) :
    io.int =
      (io.pinAt 0, { io with pins := io.pins.skip 1, trace := io.trace ++ [.int (io.pinAt 0)] }) := by
  simp [Io.int, Io.emit, Io.pinAt, Feed.next_eq]

/-! ### Writes, their result dropped -/

@[simp] theorem Io.sWrite_oks (a : ShortAddr) (v : Byte) (io : Io) :
    (io.sWrite a v).oks = io.oks.skip 2 := by simp [Io.sWrite, Io.shortWrite_eq]
@[simp] theorem Io.sWrite_reads (a : ShortAddr) (v : Byte) (io : Io) :
    (io.sWrite a v).reads = io.reads := by simp [Io.sWrite, Io.shortWrite_eq]
@[simp] theorem Io.sWrite_pins (a : ShortAddr) (v : Byte) (io : Io) :
    (io.sWrite a v).pins = io.pins := by simp [Io.sWrite, Io.shortWrite_eq]
@[simp] theorem Io.sWrite_ticks (a : ShortAddr) (v : Byte) (io : Io) :
    (io.sWrite a v).ticks = io.ticks := by simp [Io.sWrite, Io.shortWrite_eq]
@[simp] theorem Io.sWrite_calls (a : ShortAddr) (v : Byte) (io : Io) :
    (io.sWrite a v).calls = io.calls ++ shortWriteCalls a v := by
  simp [Io.sWrite, Io.shortWrite_eq, Io.calls, Event.call, shortWriteCalls]

@[simp] theorem Io.lWrite_oks (a : LongAddr) (v : Byte) (io : Io) :
    (io.lWrite a v).oks = io.oks.skip 2 := by simp [Io.lWrite, Io.longWrite_eq]
@[simp] theorem Io.lWrite_reads (a : LongAddr) (v : Byte) (io : Io) :
    (io.lWrite a v).reads = io.reads := by simp [Io.lWrite, Io.longWrite_eq]
@[simp] theorem Io.lWrite_pins (a : LongAddr) (v : Byte) (io : Io) :
    (io.lWrite a v).pins = io.pins := by simp [Io.lWrite, Io.longWrite_eq]
@[simp] theorem Io.lWrite_ticks (a : LongAddr) (v : Byte) (io : Io) :
    (io.lWrite a v).ticks = io.ticks := by simp [Io.lWrite, Io.longWrite_eq]
@[simp] theorem Io.lWrite_calls (a : LongAddr) (v : Byte) (io : Io) :
    (io.lWrite a v).calls = io.calls ++ longWriteCalls a v := by
  simp [Io.lWrite, Io.longWrite_eq, Io.calls, Event.call, longWriteCalls]

/-! ### Reads, their result code dropped -/

@[simp] theorem Io.sRead_byte (a : ShortAddr) (io : Io) : (io.sRead a).1 = (io.readAt 0).2 := by
  simp [Io.sRead, Io.shortRead_eq]
@[simp] theorem Io.sRead_oks (a : ShortAddr) (io : Io) : (io.sRead a).2.oks = io.oks.skip 1 := by
  simp [Io.sRead, Io.shortRead_eq]
@[simp] theorem Io.sRead_reads (a : ShortAddr) (io : Io) :
    (io.sRead a).2.reads = io.reads.skip 1 := by simp [Io.sRead, Io.shortRead_eq]
@[simp] theorem Io.sRead_pins (a : ShortAddr) (io : Io) : (io.sRead a).2.pins = io.pins := by
  simp [Io.sRead, Io.shortRead_eq]
@[simp] theorem Io.sRead_ticks (a : ShortAddr) (io : Io) : (io.sRead a).2.ticks = io.ticks := by
  simp [Io.sRead, Io.shortRead_eq]
@[simp] theorem Io.sRead_calls (a : ShortAddr) (io : Io) :
    (io.sRead a).2.calls = io.calls ++ shortReadCalls a := by
  simp [Io.sRead, Io.shortRead_eq, Io.calls, Event.call, shortReadCalls]

@[simp] theorem Io.lRead_byte (a : LongAddr) (io : Io) : (io.lRead a).1 = (io.readAt 0).2 := by
  simp [Io.lRead, Io.longRead_eq]
@[simp] theorem Io.lRead_oks (a : LongAddr) (io : Io) : (io.lRead a).2.oks = io.oks.skip 1 := by
  simp [Io.lRead, Io.longRead_eq]
@[simp] theorem Io.lRead_reads (a : LongAddr) (io : Io) :
    (io.lRead a).2.reads = io.reads.skip 1 := by simp [Io.lRead, Io.longRead_eq]
@[simp] theorem Io.lRead_pins (a : LongAddr) (io : Io) : (io.lRead a).2.pins = io.pins := by
  simp [Io.lRead, Io.longRead_eq]
@[simp] theorem Io.lRead_ticks (a : LongAddr) (io : Io) : (io.lRead a).2.ticks = io.ticks := by
  simp [Io.lRead, Io.longRead_eq]
@[simp] theorem Io.lRead_calls (a : LongAddr) (io : Io) :
    (io.lRead a).2.calls = io.calls ++ longReadCalls a := by
  simp [Io.lRead, Io.longRead_eq, Io.calls, Event.call, longReadCalls]

/-! ### Ticks and the interrupt pin -/

@[simp] theorem Io.now_tick (w : Nat) (io : Io) : (io.now w).1 = io.tickAt w 0 := by
  simp [Io.now_eq]
@[simp] theorem Io.now_oks (w : Nat) (io : Io) : (io.now w).2.oks = io.oks := by simp [Io.now_eq]
@[simp] theorem Io.now_reads (w : Nat) (io : Io) : (io.now w).2.reads = io.reads := by
  simp [Io.now_eq]
@[simp] theorem Io.now_pins (w : Nat) (io : Io) : (io.now w).2.pins = io.pins := by simp [Io.now_eq]
@[simp] theorem Io.now_ticks (w : Nat) (io : Io) : (io.now w).2.ticks = io.ticks.skip 1 := by
  simp [Io.now_eq]
@[simp] theorem Io.now_calls (w : Nat) (io : Io) : (io.now w).2.calls = io.calls ++ [.now] := by
  simp [Io.now_eq, Io.calls, Event.call]

theorem Io.tickAt_lt (w : Nat) (io : Io) (k : Nat) : io.tickAt w k < 2 ^ w :=
  Nat.mod_lt _ (Nat.two_pow_pos w)

/-! ### Answers to come depend on their own feed only -/

theorem Io.okAt_congr {io io' : Io} (h : io.oks = io'.oks) (k : Nat) : io.okAt k = io'.okAt k := by
  simp [Io.okAt, h]
theorem Io.readAt_congr {io io' : Io} (h : io.reads = io'.reads) (k : Nat) :
    io.readAt k = io'.readAt k := by simp [Io.readAt, h]
theorem Io.tickAt_congr {io io' : Io} (w : Nat) (h : io.ticks = io'.ticks) (k : Nat) :
    io.tickAt w k = io'.tickAt w k := by simp [Io.tickAt, h]

/-- After `j` read answers have been taken, the `k`-th to come is the `j + k`-th. -/
theorem Io.readAt_skip {io io' : Io} {j : Nat} (h : io'.reads = io.reads.skip j) (k : Nat) :
    io'.readAt k = io.readAt (j + k) := by simp [Io.readAt, h]
theorem Io.tickAt_skip {io io' : Io} {j : Nat} (w : Nat) (h : io'.ticks = io.ticks.skip j) (k : Nat) :
    io'.tickAt w k = io.tickAt w (j + k) := by simp [Io.tickAt, h]

/-! ### Lists of writes and of reads -/

@[simp] theorem Io.sWrites_reads (ws : List (ShortAddr × Byte)) (io : Io) :
    (io.sWrites ws).reads = io.reads := by
  induction ws generalizing io with
  | nil => rfl
  | cons w ws ih => simp [Io.sWrites, ih]
@[simp] theorem Io.sWrites_pins (ws : List (ShortAddr × Byte)) (io : Io) :
    (io.sWrites ws).pins = io.pins := by
  induction ws generalizing io with
  | nil => rfl
  | cons w ws ih => simp [Io.sWrites, ih]
@[simp] theorem Io.sWrites_ticks (ws : List (ShortAddr × Byte)) (io : Io) :
    (io.sWrites ws).ticks = io.ticks := by
  induction ws generalizing io with
  | nil => rfl
  | cons w ws ih => simp [Io.sWrites, ih]
@[simp] theorem Io.sWrites_oks (ws : List (ShortAddr × Byte)) (io : Io) :
    (io.sWrites ws).oks = io.oks.skip (2 * ws.length) := by
  induction ws generalizing io with
  | nil => simp [Io.sWrites]
  | cons w ws ih => simp [Io.sWrites, ih]; congr 1; omega
@[simp] theorem Io.sWrites_calls (ws : List (ShortAddr × Byte)) (io : Io) :
    (io.sWrites ws).calls = io.calls ++ shortWritesCalls ws := by
  induction ws generalizing io with
  | nil => simp [Io.sWrites, shortWritesCalls]
  | cons w ws ih => simp [Io.sWrites, ih, shortWritesCalls]

@[simp] theorem Io.lWrites_reads (ws : List (LongAddr × Byte)) (io : Io) :
    (io.lWrites ws).reads = io.reads := by
  induction ws generalizing io with
  | nil => rfl
  | cons w ws ih => simp [Io.lWrites, ih]
@[simp] theorem Io.lWrites_pins (ws : List (LongAddr × Byte)) (io : Io) :
    (io.lWrites ws).pins = io.pins := by
  induction ws generalizing io with
  | nil => rfl
  | cons w ws ih => simp [Io.lWrites, ih]
@[simp] theorem Io.lWrites_ticks (ws : List (LongAddr × Byte)) (io : Io) :
    (io.lWrites ws).ticks = io.ticks := by
  induction ws generalizing io with
  | nil => rfl
  | cons w ws ih => simp [Io.lWrites, ih]
@[simp] theorem Io.lWrites_oks (ws : List (LongAddr × Byte)) (io : Io) :
    (io.lWrites ws).oks = io.oks.skip (2 * ws.length) := by
  induction ws generalizing io with
  | nil => simp [Io.lWrites]
  | cons w ws ih => simp [Io.lWrites, ih]; congr 1; omega
@[simp] theorem Io.lWrites_calls (ws : List (LongAddr × Byte)) (io : Io) :
    (io.lWrites ws).calls = io.calls ++ longWritesCalls ws := by
  induction ws generalizing io with
  | nil => simp [Io.lWrites, longWritesCalls]
  | cons w ws ih => simp [Io.lWrites, ih, longWritesCalls]

@[simp] theorem Io.lReads_reads (as : List LongAddr) (io : Io) :
    (io.lReads as).2.reads = io.reads.skip as.length := by
  induction as generalizing io with
  | nil => simp [Io.lReads]
  | cons a as ih => simp [Io.lReads, ih]; congr 1; omega
@[simp] theorem Io.lReads_oks (as : List LongAddr) (io : Io) :
    (io.lReads as).2.oks = io.oks.skip as.length := by
  induction as generalizing io with
  | nil => simp [Io.lReads]
  | cons a as ih => simp [Io.lReads, ih]; congr 1; omega
@[simp] theorem Io.lReads_pins (as : List LongAddr) (io : Io) :
    (io.lReads as).2.pins = io.pins := by
  induction as generalizing io with
  | nil => rfl
  | cons a as ih => simp [Io.lReads, ih]
@[simp] theorem Io.lReads_ticks (as : List LongAddr) (io : Io) :
    (io.lReads as).2.ticks = io.ticks := by
  induction as generalizing io with
  | nil => rfl
  | cons a as ih => simp [Io.lReads, ih]
@[simp] theorem Io.lReads_calls (as : List LongAddr) (io : Io) :
    (io.lReads as).2.calls = io.calls ++ longReadsCalls as := by
  induction as generalizing io with
  | nil => simp [Io.lReads, longReadsCalls]
  | cons a as ih => simp [Io.lReads, ih, longReadsCalls]
@[simp] theorem Io.lReads_length (as : List LongAddr) (io : Io) :
    (io.lReads as).1.length = as.length := by
  induction as generalizing io with
  | nil => rfl
  | cons a as ih => simp [Io.lReads, ih]

/-- The bytes of a list of long reads are the next read answers, in order. -/
theorem Io.lReads_bytes (as : List LongAddr) (io : Io) :
    (io.lReads as).1 = (List.range as.length).map fun k => (io.readAt k).2 := by
  induction as generalizing io with
  | nil => rfl
  | cons a as ih =>
    have h : ∀ k, (io.lRead a).2.readAt k = io.readAt (k + 1) := fun k => by
      rw [Io.readAt_skip (Io.lRead_reads a io), Nat.add_comm]
    simp [Io.lReads, ih, List.range_succ_eq_map, h, Function.comp_def]

@[simp] theorem positions_length (base : LongAddr) (p n : Nat) : (positions base p n).length = n := by
  induction n generalizing p with
  | zero => rfl
  | succ n ih => simp [positions, ih]

@[simp] theorem atPositions_length (base : LongAddr) (p : Nat) (bs : List Byte) :
    (atPositions base p bs).length = bs.length := by
  induction bs generalizing p with
  | nil => rfl
  | cons b bs ih => simp [atPositions, ih]

/-- The writes of a list of bytes, each at its own position. -/
theorem atPositions_eq (base : LongAddr) (p : Nat) (bs : List Byte) :
    atPositions base p bs = (bs.zipIdx p).map fun b => (position base b.2, b.1) := by
  induction bs generalizing p with
  | nil => rfl
  | cons b bs ih => simp [atPositions, ih]

/-- The addresses of consecutive positions. -/
theorem positions_eq (base : LongAddr) (p n : Nat) :
    positions base p n = (List.range' p n).map (position base) := by
  induction n generalizing p with
  | zero => rfl
  | succ n ih => simp [positions, ih, List.range'_succ]

@[simp] theorem frameBytes_length (c : Cfg) (seq : Byte) (pan dst org : Half) (payload : List Byte) :
    (frameBytes c seq pan dst org payload).length = 12 + payload.length := by
  simp [frameBytes]; omega

@[simp] theorem overlay_length (bs buf : List Byte) (h : bs.length ≤ buf.length) :
    (overlay bs buf).length = buf.length := by
  simp [overlay]; omega

/-! ### The bracket of a transaction -/

theorem BusPhase.run_append (p : BusPhase) (xs ys : List Call) :
    p.run (xs ++ ys) = (p.run xs).run ys := by simp [BusPhase.run]

theorem bracketed_append {xs ys : List Call} (hx : bracketed xs) (hy : bracketed ys) :
    bracketed (xs ++ ys) := by
  unfold bracketed at *
  rw [BusPhase.run_append, hx, hy]

theorem bracketed_shortWrite (a : ShortAddr) (v : Byte) : bracketed (shortWriteCalls a v) := rfl
theorem bracketed_shortRead (a : ShortAddr) : bracketed (shortReadCalls a) := rfl
theorem bracketed_longWrite (a : LongAddr) (v : Byte) : bracketed (longWriteCalls a v) := rfl
theorem bracketed_longRead (a : LongAddr) : bracketed (longReadCalls a) := rfl

theorem bracketed_flatMap {α : Type} (f : α → List Call) (hf : ∀ a, bracketed (f a)) (xs : List α) :
    bracketed (xs.flatMap f) := by
  induction xs with
  | nil => rfl
  | cons x xs ih => simpa using bracketed_append (hf x) ih

theorem bracketed_shortWrites (ws : List (ShortAddr × Byte)) : bracketed (shortWritesCalls ws) := by
  unfold shortWritesCalls
  apply bracketed_flatMap
  intro w
  exact bracketed_shortWrite w.1 w.2
theorem bracketed_longWrites (ws : List (LongAddr × Byte)) : bracketed (longWritesCalls ws) := by
  unfold longWritesCalls
  apply bracketed_flatMap
  intro w
  exact bracketed_longWrite w.1 w.2
theorem bracketed_longReads (as : List LongAddr) : bracketed (longReadsCalls as) := by
  unfold longReadsCalls
  exact bracketed_flatMap _ bracketed_longRead as

end Sys2Proof.Machine
end

