-- ==== Sys2Proof/Laws/Exec.lean ====
section
/-! SUPPORT. What the shared operations of the meanings can do: the guards, the default loader, the
setters, the delay. Each is said once. -/

namespace Sys2Proof.Machine

/-! ### Guards -/

/-- A unit operation answers a next state exactly when the configuration is well-formed and its body
does. -/
theorem unitOp_next {s t : State} {body : State → Out} :
    unitOp s body = .next t ↔ s.cfg.wf = true ∧ body s = .next t := by
  unfold unitOp
  split <;> simp_all

/-- A host command answers a next state exactly when it is accepted and its body does. -/
theorem command_next {s t : State} {body : State → Out} :
    command s body = .next t ↔ s.accepts ∧ body s = .next t := by
  unfold command State.accepts State.isIdle
  split
  · split <;> simp_all
  · simp_all

/-- An accepted command is its body. -/
theorem command_accepts {s : State} {body : State → Out} (h : s.accepts) :
    command s body = body s := by
  simp [command, State.isIdle, h.1, h.2]

/-- A unit operation under a well-formed configuration is its body. -/
theorem unitOp_wf {s : State} {body : State → Out} (h : s.cfg.wf = true) : unitOp s body = body s := by
  simp [unitOp, h]

/-- A gated command that answers a next state was accepted, and either the gate was shut and it answers
`NOT_READY` with nothing else changed, or its body answers. -/
theorem gated_next {s t : State} {body : State → Out} :
    gated s body = .next t ↔
      s.accepts ∧ (s.status ≠ .initOk ∧ t = s.ret .notReady ∨ s.status = .initOk ∧ body s = .next t) := by
  unfold gated
  rw [command_next]
  by_cases h : s.status = .initOk
  · simp [State.ready, h]
  · simp only [State.ready, beq_eq_false_iff_ne.mpr h, Bool.false_eq_true, if_false,
      Host.Outcome.next.injEq, ne_eq, h, not_false_eq_true, true_and, false_and, or_false]
    rw [eq_comm]

/-- A gated command with the gate open is its body. -/
theorem gated_ready {s : State} {body : State → Out} (h : s.accepts) (hr : s.status = .initOk) :
    gated s body = body s := by
  simp [gated, command_accepts h, State.ready, hr]

/-- A gated command with the gate shut answers `NOT_READY`. -/
theorem gated_notReady {s : State} {body : State → Out} (h : s.accepts) (hr : s.status ≠ .initOk) :
    gated s body = .next (s.ret .notReady) := by
  simp [gated, command_accepts h, State.ready, hr]

/-! ### The default loader -/

/-- The loader changes the identity alone. -/
theorem State.loadDef_eq (s : State) : s.loadDef = s.withId s.loadedId := by
  unfold State.loadDef State.loadedId State.defaultsUnset
  by_cases h : s.id.chan = s.cfg.chUnset <;> simp [h, State.withId]

@[simp] theorem State.loadDef_cfg (s : State) : s.loadDef.cfg = s.cfg := by simp [State.loadDef_eq]
@[simp] theorem State.loadDef_id (s : State) : s.loadDef.id = s.loadedId := by
  simp [State.loadDef_eq]
@[simp] theorem State.loadDef_txf (s : State) : s.loadDef.txf = s.txf := by simp [State.loadDef_eq]
@[simp] theorem State.loadDef_rxf (s : State) : s.loadDef.rxf = s.rxf := by simp [State.loadDef_eq]
@[simp] theorem State.loadDef_status (s : State) : s.loadDef.status = s.status := by
  simp [State.loadDef_eq]
@[simp] theorem State.loadDef_stepReg (s : State) : s.loadDef.stepReg = s.stepReg := by
  simp [State.loadDef_eq]
@[simp] theorem State.loadDef_dly (s : State) : s.loadDef.dly = s.dly := by simp [State.loadDef_eq]
@[simp] theorem State.loadDef_inbox (s : State) : s.loadDef.inbox = s.inbox := by
  simp [State.loadDef_eq]
@[simp] theorem State.loadDef_answer (s : State) : s.loadDef.answer = s.answer := by
  simp [State.loadDef_eq]
@[simp] theorem State.loadDef_io (s : State) : s.loadDef.io = s.io := by simp [State.loadDef_eq]

/-- The lines of well-formedness (00_scope.md R8). -/
theorem Cfg.wf_lines {c : Cfg} (h : c.wf = true) :
    c.wfTicks = true ∧ c.wfAddrs = true ∧ c.wfTx = true ∧ c.wfRx = true ∧ c.wfChannels = true ∧
      c.wfDefaults = true := by
  simp only [Cfg.wf, Bool.and_eq_true] at h
  tauto

/-- Under a well-formed configuration the default channel is a channel and no channel is the sentinel. -/
theorem Cfg.wf_channel {c : Cfg} (h : c.wf = true) :
    isChannel c c.defChannel = true ∧ ∀ ch, isChannel c ch = true → ch ≠ c.chUnset := by
  have h5 := (Cfg.wf_lines h).2.2.2.2.1
  simp only [Cfg.wfChannels, Bool.and_eq_true, Bool.not_eq_true'] at h5
  refine ⟨h5.2, fun ch hc he => ?_⟩
  subst he
  unfold isChannel at hc
  rw [h5.1.2] at hc
  exact Bool.false_ne_true hc

/-- The factory defaults meet the invariant of `id` (10_state.md R22). -/
theorem Cfg.wf_factory {c : Cfg} (h : c.wf = true) : identityOk c (factoryId c) = true := by
  have h5 := (Cfg.wf_channel h).1
  have h6 := (Cfg.wf_lines h).2.2.2.2.2
  simp only [Cfg.wfDefaults, Bool.and_eq_true] at h6
  simp only [identityOk, factoryId, Bool.and_eq_true, h5, h6, and_self]

/-! ### The setters -/

/-- What an accepted setter leaves: the loaded identity with the one field stored, and `OK`. -/
theorem State.store_eq (s : State) (f : RadioIdentity → RadioIdentity) :
    s.store f = { s with id := f s.loadedId, answer := some (.result .ok) } := by
  simp [State.store, State.loadDef_eq, State.withId, State.ret, State.give, State.withAnswer]

/-- A setter that answers a next state was accepted, and either stored or rejected its value. -/
theorem setter_next {s t : State} {valid : State → Bool} {f : RadioIdentity → RadioIdentity} :
    setter s valid f = .next t ↔ s.accepts ∧
      (valid s = true ∧ t = { s with id := f s.loadedId, answer := some (.result .ok) } ∨
        valid s = false ∧ t = { s with answer := some (.result .invalidValue) }) := by
  unfold setter
  rw [command_next]
  cases h : valid s <;> simp [State.store_eq, State.ret, State.give, State.withAnswer, eq_comm]

/-- An accepted setter by its check. -/
theorem setter_accepts {s : State} {valid : State → Bool} {f : RadioIdentity → RadioIdentity}
    (h : s.accepts) :
    setter s valid f = .next (if valid s then { s with id := f s.loadedId, answer := some (.result .ok) }
      else { s with answer := some (.result .invalidValue) }) := by
  unfold setter
  rw [command_accepts h]
  cases valid s <;> simp [State.store_eq, State.ret, State.give, State.withAnswer]

/-! ### The delay -/

theorem State.delayInit_eq (d : Nat) (s : State) :
    s.delayInit d = { s with
      dly := { start := s.io.tickAt s.cfg.tickW 0, duration := d, running := true }
      io := { s.io with ticks := s.io.ticks.skip 1
                        trace := s.io.trace ++ [.now (s.io.tickAt s.cfg.tickW 0)] } } := by
  simp [State.delayInit, Io.now_eq, State.withIo, State.withDly]

theorem State.delayReset_eq (s : State) :
    s.delayReset = { s with
      dly := { start := s.io.tickAt s.cfg.tickW 0, duration := s.dly.duration, running := true }
      io := { s.io with ticks := s.io.ticks.skip 1
                        trace := s.io.trace ++ [.now (s.io.tickAt s.cfg.tickW 0)] } } := by
  simp [State.delayReset, Io.now_eq, State.withIo, State.withDly]

theorem State.delayRead_eq (s : State) :
    s.delayRead = (s.dly.expiredAt s.cfg.tickW (s.io.tickAt s.cfg.tickW 0),
      { s with io := { s.io with ticks := s.io.ticks.skip 1
                                 trace := s.io.trace ++ [.now (s.io.tickAt s.cfg.tickW 0)] } }) := by
  simp [State.delayRead, Io.now_eq, State.withIo]

/-- For a start tick of the counter's range the elapsed ticks are the plain difference modulo the range. -/
theorem tickSub_of_lt {w start : Nat} (t : Nat) (h : start < 2 ^ w) :
    tickSub w t start = (t + 2 ^ w - start) % 2 ^ w := by
  unfold tickSub
  rw [Nat.mod_eq_of_lt h]
  congr 1
  omega

end Sys2Proof.Machine
end

