-- ==== Sys2Proof/Laws/Init.lean ====
section
/-! SUPPORT. The init sequencer: what one move can do, and the induction over its moves. -/

namespace Sys2Proof.Machine

/-- What the sequencer leaves alone: everything but `status`, `step`, `dly`, the answer and the edge, and
of the edge the answers to `INT`. -/
structure SeqFrame (s t : State) : Prop where
  cfg : t.cfg = s.cfg
  id : t.id = s.id
  txf : t.txf = s.txf
  rxf : t.rxf = s.rxf
  inbox : t.inbox = s.inbox
  pins : t.io.pins = s.io.pins

theorem SeqFrame.refl (s : State) : SeqFrame s s := ⟨rfl, rfl, rfl, rfl, rfl, rfl⟩

theorem SeqFrame.trans {s t u : State} (h : SeqFrame s t) (h' : SeqFrame t u) : SeqFrame s u :=
  ⟨h'.cfg.trans h.cfg, h'.id.trans h.id, h'.txf.trans h.txf, h'.rxf.trans h.rxf, h'.inbox.trans h.inbox,
    h'.pins.trans h.pins⟩

/-- The three ways one poll iteration ends. -/
theorem pollIteration_cases (read : Io → Byte × Io) (cond : Byte → Bool) (onReady : State → State)
    (s : State) :
    let e := (s.withIo (read s.io).2).delayRead
    pollOutcome s.cfg.pollTie (cond (read s.io).1) e.1 = .ready ∧
        pollIteration read cond onReady s = onReady e.2 ∨
      pollOutcome s.cfg.pollTie (cond (read s.io).1) e.1 = .timedOut ∧
        pollIteration read cond onReady s = ((e.2.withStatus .timeout).withStep .idle).ret .timeout ∨
      pollOutcome s.cfg.pollTie (cond (read s.io).1) e.1 = .waiting ∧
        pollIteration read cond onReady s = e.2 := by
  intro e
  have he : pollIteration read cond onReady s =
      match pollOutcome s.cfg.pollTie (cond (read s.io).1) e.1 with
      | .ready => onReady e.2
      | .timedOut => ((e.2.withStatus .timeout).withStep .idle).ret .timeout
      | .waiting => e.2 := rfl
  rw [he]
  cases pollOutcome s.cfg.pollTie (cond (read s.io).1) e.1 <;> simp

/-- The two ways one elapsed check of a wait ends. -/
theorem waitIteration_cases (onExpired : State → State) (s : State) :
    s.delayRead.1 = true ∧ waitIteration onExpired s = onExpired s.delayRead.2 ∨
      s.delayRead.1 = false ∧ waitIteration onExpired s = s.delayRead.2 := by
  unfold waitIteration
  cases h : s.delayRead.1
  · exact .inr ⟨rfl, by simp [h]⟩
  · exact .inl ⟨rfl, by simp [h]⟩

/-! ### Fields through the pieces of the sequencer -/

@[simp] theorem State.edge_cfg (s : State) (f : Io → Io) : (s.edge f).cfg = s.cfg := rfl
@[simp] theorem State.edge_id (s : State) (f : Io → Io) : (s.edge f).id = s.id := rfl
@[simp] theorem State.edge_txf (s : State) (f : Io → Io) : (s.edge f).txf = s.txf := rfl
@[simp] theorem State.edge_rxf (s : State) (f : Io → Io) : (s.edge f).rxf = s.rxf := rfl
@[simp] theorem State.edge_status (s : State) (f : Io → Io) : (s.edge f).status = s.status := rfl
@[simp] theorem State.edge_stepReg (s : State) (f : Io → Io) : (s.edge f).stepReg = s.stepReg := rfl
@[simp] theorem State.edge_dly (s : State) (f : Io → Io) : (s.edge f).dly = s.dly := rfl
@[simp] theorem State.edge_inbox (s : State) (f : Io → Io) : (s.edge f).inbox = s.inbox := rfl
@[simp] theorem State.edge_answer (s : State) (f : Io → Io) : (s.edge f).answer = s.answer := rfl
@[simp] theorem State.edge_io (s : State) (f : Io → Io) : (s.edge f).io = f s.io := rfl

@[simp] theorem State.delayInit_cfg (s : State) (d : Nat) : (s.delayInit d).cfg = s.cfg := rfl
@[simp] theorem State.delayInit_id (s : State) (d : Nat) : (s.delayInit d).id = s.id := rfl
@[simp] theorem State.delayInit_txf (s : State) (d : Nat) : (s.delayInit d).txf = s.txf := rfl
@[simp] theorem State.delayInit_rxf (s : State) (d : Nat) : (s.delayInit d).rxf = s.rxf := rfl
@[simp] theorem State.delayInit_status (s : State) (d : Nat) : (s.delayInit d).status = s.status := rfl
@[simp] theorem State.delayInit_stepReg (s : State) (d : Nat) : (s.delayInit d).stepReg = s.stepReg := rfl
@[simp] theorem State.delayInit_inbox (s : State) (d : Nat) : (s.delayInit d).inbox = s.inbox := rfl
@[simp] theorem State.delayInit_answer (s : State) (d : Nat) : (s.delayInit d).answer = s.answer := rfl
@[simp] theorem State.delayInit_dly (s : State) (d : Nat) :
    (s.delayInit d).dly = { start := s.io.tickAt s.cfg.tickW 0, duration := d, running := true } := by
  simp [State.delayInit_eq]
@[simp] theorem State.delayInit_io (s : State) (d : Nat) :
    (s.delayInit d).io = (s.io.now s.cfg.tickW).2 := rfl

@[simp] theorem State.delayRead_cfg (s : State) : s.delayRead.2.cfg = s.cfg := rfl
@[simp] theorem State.delayRead_id (s : State) : s.delayRead.2.id = s.id := rfl
@[simp] theorem State.delayRead_txf (s : State) : s.delayRead.2.txf = s.txf := rfl
@[simp] theorem State.delayRead_rxf (s : State) : s.delayRead.2.rxf = s.rxf := rfl
@[simp] theorem State.delayRead_status (s : State) : s.delayRead.2.status = s.status := rfl
@[simp] theorem State.delayRead_stepReg (s : State) : s.delayRead.2.stepReg = s.stepReg := rfl
@[simp] theorem State.delayRead_dly (s : State) : s.delayRead.2.dly = s.dly := rfl
@[simp] theorem State.delayRead_inbox (s : State) : s.delayRead.2.inbox = s.inbox := rfl
@[simp] theorem State.delayRead_answer (s : State) : s.delayRead.2.answer = s.answer := rfl
@[simp] theorem State.delayRead_io (s : State) : s.delayRead.2.io = (s.io.now s.cfg.tickW).2 := rfl

/-! ### The pin prologue -/

theorem Io.emits_fields (es : List PinEvent) (io : Io) :
    let io' := es.foldl (fun io e => io.emit (PinEvent.event e)) io
    io'.oks = io.oks ∧ io'.reads = io.reads ∧ io'.pins = io.pins ∧ io'.ticks = io.ticks ∧
      io'.calls = io.calls ++ es.map PinEvent.call := by
  induction es generalizing io with
  | nil => simp
  | cons e es ih =>
    have h := ih (io.emit (PinEvent.event e))
    simp only [List.foldl_cons, List.map_cons]
    refine ⟨h.1, h.2.1, h.2.2.1, h.2.2.2.1, ?_⟩
    rw [h.2.2.2.2]
    simp [Io.calls, PinEvent.call]

theorem macWrites_eq (first : ShortAddr) (i : Nat) (bs : List Byte) :
    macWrites first i bs = (bs.zipIdx i).map fun b => (BitVec.ofNat 6 (first.toNat + b.2), b.1) := by
  induction bs generalizing i with
  | nil => rfl
  | cons b bs ih => simp [macWrites, ih]

/-! ### One move -/

/-- How one move of a busy sequencer ends: in one of the four loops with `status` and the answer as they
were and the timer running, or at the end with `status` and the answer written. -/
inductive SeqEnd (s t : State) : Prop where
  | looping (loop : t.stepReg ∈ [SeqStep.step2, SeqStep.step3, SeqStep.step7, SeqStep.step9])
      (status : t.status = s.status) (answer : t.answer = s.answer)
  | success (idle : t.stepReg = .idle) (status : t.status = .initOk)
      (answer : t.answer = some (.result .initOk))
  | timeout (idle : t.stepReg = .idle) (status : t.status = .timeout)
      (answer : t.answer = some (.result .timeout))

/-- The sequencer leaves its frame alone. -/
theorem sequencerStep_frame (s : State) : SeqFrame s (sequencerStep s) := by
  have poll : ∀ (read : Io → Byte × Io) cond onReady, (∀ io, (read io).2.pins = io.pins) →
      (∀ u, SeqFrame u (onReady u)) → SeqFrame s (pollIteration read cond onReady s) := by
    intro read cond onReady hp ho
    have hb : SeqFrame s (s.withIo (read s.io).2).delayRead.2 := by constructor <;> simp [hp]
    rcases pollIteration_cases read cond onReady s with ⟨_, h⟩ | ⟨_, h⟩ | ⟨_, h⟩ <;> rw [h]
    · exact hb.trans (ho _)
    · exact hb.trans (by constructor <;> rfl)
    · exact hb
  have wait : ∀ onExpired, (∀ u, SeqFrame u (onExpired u)) → SeqFrame s (waitIteration onExpired s) := by
    intro onExpired ho
    have hb : SeqFrame s s.delayRead.2 := by constructor <;> simp
    rcases waitIteration_cases onExpired s with ⟨_, h⟩ | ⟨_, h⟩ <;> rw [h]
    · exact hb.trans (ho _)
    · exact hb
  unfold sequencerStep
  split
  · exact SeqFrame.refl s
  · constructor <;> simp [initStep2, initStep1]
  · exact poll _ _ _ (by simp) fun u => by constructor <;> simp [initStep3]
  · exact wait _ fun u => by
      constructor <;> simp [initFrom4, initStep7, initStep6, initStep5, initStep4, initStep3Flush]
  · constructor <;> simp [initFrom4, initStep7, initStep6, initStep5, initStep4]
  · constructor <;> simp [initStep7, initStep6, initStep5]
  · constructor <;> simp [initStep7, initStep6]
  · exact poll _ _ _ (by simp) fun u => by constructor <;> simp [initStep9, initStep8]
  · constructor <;> simp [initStep9, initStep8]
  · exact wait _ fun u => by constructor <;> simp [initStep11, initStep10]
  · constructor <;> simp [initStep11, initStep10]
  · constructor <;> simp [initStep11]

/-- How one move of a busy sequencer ends. -/
theorem sequencerStep_end (s : State) (hb : s.stepReg ≠ .idle) : SeqEnd s (sequencerStep s) := by
  have poll : ∀ (read : Io → Byte × Io) cond onReady,
      s.stepReg ∈ [SeqStep.step2, SeqStep.step3, SeqStep.step7, SeqStep.step9] →
      (∀ u, (onReady u).stepReg ∈ [SeqStep.step2, SeqStep.step3, SeqStep.step7, SeqStep.step9] ∧
        (onReady u).status = u.status ∧ (onReady u).answer = u.answer) →
      SeqEnd s (pollIteration read cond onReady s) := by
    intro read cond onReady hs ho
    rcases pollIteration_cases read cond onReady s with ⟨_, h⟩ | ⟨_, h⟩ | ⟨_, h⟩ <;> rw [h]
    · obtain ⟨h1, h2, h3⟩ := ho (s.withIo (read s.io).2).delayRead.2
      exact .looping h1 (by simp [h2]) (by simp [h3])
    · exact .timeout rfl rfl rfl
    · exact .looping (by simpa using hs) (by simp) (by simp)
  cases h : s.stepReg <;> simp only [sequencerStep, h]
  · exact absurd h hb
  · exact .looping (by simp [initStep2, initStep1]) (by simp [initStep2, initStep1])
      (by simp [initStep2, initStep1])
  · exact poll _ _ _ (by simp [h]) fun u => by simp [initStep3]
  · rcases waitIteration_cases (fun s => initFrom4 (initStep3Flush s)) s with ⟨_, h'⟩ | ⟨_, h'⟩ <;> rw [h']
    · exact .looping (by simp [initFrom4, initStep7])
        (by simp [initFrom4, initStep7, initStep6, initStep5, initStep4, initStep3Flush])
        (by simp [initFrom4, initStep7, initStep6, initStep5, initStep4, initStep3Flush])
    · exact .looping (by simp [h]) (by simp) (by simp)
  · exact .looping (by simp [initFrom4, initStep7])
      (by simp [initFrom4, initStep7, initStep6, initStep5, initStep4])
      (by simp [initFrom4, initStep7, initStep6, initStep5, initStep4])
  · exact .looping (by simp [initStep7]) (by simp [initStep7, initStep6, initStep5])
      (by simp [initStep7, initStep6, initStep5])
  · exact .looping (by simp [initStep7]) (by simp [initStep7, initStep6]) (by simp [initStep7, initStep6])
  · exact poll _ _ _ (by simp [h]) fun u => by simp [initStep9, initStep8]
  · exact .looping (by simp [initStep9]) (by simp [initStep9, initStep8]) (by simp [initStep9, initStep8])
  · rcases waitIteration_cases (fun s => initStep11 (initStep10 s)) s with ⟨_, h'⟩ | ⟨_, h'⟩ <;> rw [h']
    · exact .success rfl rfl rfl
    · exact .looping (by simp [h]) (by simp) (by simp)
  · exact .success rfl rfl rfl
  · exact .success rfl rfl rfl

/-! ### Runs of moves -/

/-- A property that every move of a busy sequencer keeps is kept by a run of moves. -/
theorem sequencerRun_induct {P : State → Prop}
    (hstep : ∀ s, s.stepReg ≠ .idle → P s → P (sequencerStep s)) (n : Nat) (s : State) (h : P s) :
    P (sequencerRun n s) := by
  induction n generalizing s with
  | zero => exact h
  | succ n ih =>
    unfold sequencerRun
    split
    · exact h
    · rename_i hi
      exact ih _ (hstep s (by simpa [State.isIdle] using hi) h)

/-- An idle sequencer does not move. -/
theorem sequencerRun_idle (n : Nat) (s : State) (h : s.stepReg = .idle) : sequencerRun n s = s := by
  cases n <;> simp [sequencerRun, State.isIdle, h]

/-- A busy sequencer's run is its first move and the run from there. -/
theorem sequencerRun_succ (n : Nat) (s : State) (h : s.stepReg ≠ .idle) :
    sequencerRun (n + 1) s = sequencerRun n (sequencerStep s) := by
  simp [sequencerRun, State.isIdle, h]

/-- Two runs in a row are one run. -/
theorem sequencerRun_add (m n : Nat) (s : State) :
    sequencerRun (m + n) s = sequencerRun n (sequencerRun m s) := by
  induction m generalizing s with
  | zero => simp [sequencerRun]
  | succ m ih =>
    by_cases h : s.stepReg = .idle
    · simp [sequencerRun_idle, h]
    · rw [Nat.succ_add, sequencerRun_succ _ _ h, sequencerRun_succ _ _ h, ih]

/-- What the beginning of an `INIT` leaves. -/
theorem initBegin_fields (s : State) :
    (initBegin s).cfg = s.cfg ∧ (initBegin s).id = s.loadedId ∧ (initBegin s).txf = s.txf ∧
      (initBegin s).rxf = s.rxf ∧ (initBegin s).inbox = s.inbox ∧ (initBegin s).status = s.status ∧
      (initBegin s).stepReg = .step2 ∧ (initBegin s).answer = none ∧
      (initBegin s).dly = { start := s.io.tickAt s.cfg.tickW 0, duration := s.cfg.timeoutTicks,
                            running := true } ∧
      (initBegin s).io.reads = s.io.reads ∧ (initBegin s).io.pins = s.io.pins ∧
      (initBegin s).io.ticks = s.io.ticks.skip 1 ∧
      (initBegin s).io.calls = s.io.calls ++ callsToPoll2 s.cfg := by
  have h := Io.emits_fields s.cfg.pinPrologue s.io
  simp only at h
  simp only [initBegin, initStep2, initStep1, pinPrologue]
  refine ⟨by simp, by simp, by simp, by simp, by simp, by simp, by simp, by simp, ?_, ?_, ?_, ?_, ?_⟩
  · simp only [State.delayInit_dly, State.edge_cfg, State.withStep_cfg, State.edge_io, State.withStep_io,
      State.withAnswer_cfg, State.withAnswer_io, State.loadDef_cfg, State.loadDef_io]
    rw [Io.tickAt_congr (io' := s.io) _ (by rw [Io.sWrite_ticks]; exact h.2.2.2.1)]
  · simp [h.2.1]
  · simp [h.2.2.1]
  · simp [h.2.2.2.1]
  · simp [h.2.2.2.2, callsToPoll2]

end Sys2Proof.Machine
end

