-- ==== Sys2Proof/Laws/Loops.lean ====
section
/-! SUPPORT. What a whole loop of the init sequencer does when its answers are supplied: the iterations of
a poll up to the one that ends it, and the elapsed checks of a settle wait up to the one that shows it
expired. -/

namespace Sys2Proof.Machine

/-- A supplied answer is the next one. -/
theorem Feed.nth_cons {α : Type} {free : Nat → α} {q : Feed α} {a : α} {rest : List α}
    (h : q.given = a :: rest) : q.nth free 0 = a := Feed.nth_given free q 0 a (by simp [h])

/-- The next read answer, when one is supplied. -/
theorem Io.readAt_cons {io : Io} {r : Bool × Byte} {rest : List (Bool × Byte)}
    (h : io.reads.given = r :: rest) : io.readAt 0 = r := Feed.nth_cons h

/-- The next tick, when one of the counter's range is supplied. -/
theorem Io.tickAt_cons {w : Nat} {io : Io} {t : Nat} {rest : List Nat}
    (h : io.ticks.given = t :: rest) (ht : t < 2 ^ w) : io.tickAt w 0 = t := by
  simp [Io.tickAt, Feed.nth_cons h, Nat.mod_eq_of_lt ht]

@[simp] theorem Feed.skip_given {α : Type} (q : Feed α) (k : Nat) : (q.skip k).given = q.given.drop k :=
  rfl

/-- `k` iterations that each make the calls `cs` and read one tick. -/
def iterationCalls (cs : List Call) (k : Nat) : List Call := (List.replicate k (cs ++ [.now])).flatten

theorem iterationCalls_succ (cs : List Call) (k : Nat) :
    iterationCalls cs (k + 1) = cs ++ [.now] ++ iterationCalls cs k := by
  simp [iterationCalls, List.replicate_succ]

/-- Where a loop's edge stands after its iterations: the given answers to come, the pins, the calls. -/
structure LoopEdge (io io' : Io) (reads : List (Bool × Byte)) (ticks : List Nat) (calls : List Call) :
    Prop where
  reads : io'.reads.given = reads
  ticks : io'.ticks.given = ticks
  pins : io'.pins = io.pins
  calls : io'.calls = io.calls ++ calls

/-- A read a poll may use: one register read, its byte the next read answer. -/
structure PollRead (read : Io → Byte × Io) (cs : List Call) : Prop where
  byte : ∀ io, (read io).1 = (io.readAt 0).2
  reads : ∀ io, (read io).2.reads = io.reads.skip 1
  ticks : ∀ io, (read io).2.ticks = io.ticks
  pins : ∀ io, (read io).2.pins = io.pins
  calls : ∀ io, (read io).2.calls = io.calls ++ cs

theorem pollRead_short (a : ShortAddr) : PollRead (Io.sRead a) (shortReadCalls a) := by
  constructor <;> simp

theorem pollRead_long (a : LongAddr) : PollRead (Io.lRead a) (longReadCalls a) := by
  constructor <;> simp

/-- What ends a poll. -/
def pollEnd (onReady : State → State) (last : PollOutcome) (u : State) : State :=
  match last with
  | .ready => onReady u
  | .timedOut => ((u.withStatus .timeout).withStep .idle).ret .timeout
  | .waiting => u

/-- One iteration of a poll whose read and tick are supplied. -/
theorem pollIteration_given {read : Io → Byte × Io} {cs : List Call} (hr : PollRead read cs)
    (cond : Byte → Bool) (onReady : State → State) (s : State) (r : Bool × Byte) (t : Nat)
    (reads : List (Bool × Byte)) (ticks : List Nat) (h1 : s.io.reads.given = r :: reads)
    (h2 : s.io.ticks.given = t :: ticks) (ht : t < 2 ^ s.cfg.tickW) :
    ∃ io, LoopEdge s.io io reads ticks (cs ++ [.now]) ∧
      pollIteration read cond onReady s =
        pollEnd onReady (pollOutcome s.cfg.pollTie (cond r.2)
          (decide (s.dly.duration ≤ tickSub s.cfg.tickW t s.dly.start))) (s.withIo io) := by
  refine ⟨((read s.io).2.now s.cfg.tickW).2, ⟨?_, ?_, ?_, ?_⟩, ?_⟩
  · simp [hr.reads, h1]
  · simp [hr.ticks, h2]
  · simp [hr.pins]
  · simp [hr.calls]
  · have hb : (read s.io).1 = r.2 := by rw [hr.byte, Io.readAt_cons h1]
    have hn : (read s.io).2.tickAt s.cfg.tickW 0 = t := by
      rw [Io.tickAt_congr _ (hr.ticks s.io), Io.tickAt_cons h2 ht]
    unfold pollIteration pollEnd
    simp only [hb, State.delayRead, DelayState.expiredAt, State.withIo_cfg, State.withIo_io,
      State.withIo_dly, Io.now_tick, hn]
    rfl

/-- A whole poll whose answers are supplied: waiting iterations, then the one that ends it. -/
theorem poll_run {read : Io → Byte × Io} {cs : List Call} (hr : PollRead read cs) (cond : Byte → Bool)
    (onReady : State → State) (loop : SeqStep) (hl : loop ≠ .idle) (c : Cfg)
    (hstep : ∀ s, s.cfg = c → s.stepReg = loop → sequencerStep s = pollIteration read cond onReady s)
    (last : PollOutcome) (k : Nat) (s : State) (reads restReads : List (Bool × Byte))
    (ticks restTicks : List Nat) (hc : s.cfg = c) (hs : s.stepReg = loop)
    (hlen : reads.length = ticks.length)
    (h1 : s.io.reads.given = reads ++ restReads) (h2 : s.io.ticks.given = ticks ++ restTicks)
    (ht : ∀ t ∈ ticks, t < 2 ^ s.cfg.tickW)
    (ho : List.zipWith (fun r t => pollOutcome s.cfg.pollTie (cond r.2)
      (decide (s.dly.duration ≤ tickSub s.cfg.tickW t s.dly.start))) reads ticks =
        List.replicate k .waiting ++ [last]) :
    ∃ io, LoopEdge s.io io restReads restTicks (iterationCalls cs ticks.length) ∧
      sequencerRun ticks.length s = pollEnd onReady last (s.withIo io) := by
  induction k generalizing s reads ticks with
  | zero =>
    rcases reads with _ | ⟨r, reads⟩ <;> rcases ticks with _ | ⟨t, ticks⟩ <;>
      simp only [List.zipWith_nil_left, List.zipWith_nil_right, List.zipWith_cons_cons,
        List.replicate_zero, List.nil_append, List.cons.injEq, reduceCtorEq] at ho
    obtain ⟨ho, htail⟩ := ho
    have hnil : ticks = [] := by
      rcases ticks with _ | ⟨t', ticks⟩
      · rfl
      · rcases reads with _ | ⟨r', reads⟩
        · simp at hlen
        · simp at htail
    have hnil' : reads = [] := by
      subst hnil
      simpa using hlen
    subst hnil hnil'
    obtain ⟨io, hio, he⟩ := pollIteration_given hr cond onReady s r t restReads restTicks h1 h2
      (ht t (by simp))
    refine ⟨io, by simpa [iterationCalls] using hio, ?_⟩
    simp only [List.length_cons, List.length_nil]
    rw [sequencerRun_succ _ _ (by rw [hs]; exact hl), hstep s hc hs, he, ho]
    rfl
  | succ k ih =>
    rcases reads with _ | ⟨r, reads⟩ <;> rcases ticks with _ | ⟨t, ticks⟩ <;>
      simp only [List.zipWith_nil_left, List.zipWith_nil_right, List.zipWith_cons_cons,
        List.replicate_succ, List.cons_append, List.cons.injEq, reduceCtorEq] at ho
    obtain ⟨ho, htail⟩ := ho
    obtain ⟨io, hio, he⟩ := pollIteration_given hr cond onReady s r t (reads ++ restReads)
      (ticks ++ restTicks) h1 h2 (ht t (by simp))
    obtain ⟨io', hio', he'⟩ := ih (s.withIo io) reads ticks (by simpa using hc) (by simpa using hs)
      (by simpa using hlen) hio.reads hio.ticks (fun t' h => ht t' (by simp [h])) htail
    refine ⟨io', ⟨hio'.reads, hio'.ticks, by rw [hio'.pins]; exact hio.pins, ?_⟩, ?_⟩
    · rw [hio'.calls]
      simp [hio.calls, iterationCalls_succ]
    · simp only [List.length_cons]
      rw [sequencerRun_succ _ _ (by rw [hs]; exact hl), hstep s hc hs, he, ho]
      exact he'

/-- What ends a settle wait's elapsed check. -/
def waitEnd (onExpired : State → State) (expired : Bool) (u : State) : State :=
  if expired then onExpired u else u

/-- One elapsed check whose tick is supplied. -/
theorem waitIteration_given (onExpired : State → State) (s : State) (t : Nat) (ticks : List Nat)
    (h2 : s.io.ticks.given = t :: ticks) (ht : t < 2 ^ s.cfg.tickW) :
    ∃ io, LoopEdge s.io io s.io.reads.given ticks [.now] ∧
      waitIteration onExpired s =
        waitEnd onExpired (decide (s.dly.duration ≤ tickSub s.cfg.tickW t s.dly.start))
          (s.withIo io) := by
  refine ⟨(s.io.now s.cfg.tickW).2, ⟨?_, ?_, ?_, ?_⟩, ?_⟩
  · simp
  · simp [h2]
  · simp
  · simp
  · unfold waitIteration waitEnd
    simp only [State.delayRead, DelayState.expiredAt, Io.now_tick, Io.tickAt_cons h2 ht]

/-- A whole settle wait whose answers are supplied. -/
theorem wait_run (onExpired : State → State) (loop : SeqStep) (hl : loop ≠ .idle) (c : Cfg)
    (hstep : ∀ s, s.cfg = c → s.stepReg = loop → sequencerStep s = waitIteration onExpired s)
    (k : Nat) (s : State) (ticks restTicks : List Nat) (hc : s.cfg = c) (hs : s.stepReg = loop)
    (h2 : s.io.ticks.given = ticks ++ restTicks) (ht : ∀ t ∈ ticks, t < 2 ^ s.cfg.tickW)
    (ho : ticks.map (fun t => decide (s.dly.duration ≤ tickSub s.cfg.tickW t s.dly.start)) =
      List.replicate k false ++ [true]) :
    ∃ io, LoopEdge s.io io s.io.reads.given restTicks (List.replicate ticks.length .now) ∧
      sequencerRun ticks.length s = onExpired (s.withIo io) := by
  induction k generalizing s ticks with
  | zero =>
    rcases ticks with _ | ⟨t, ticks⟩ <;>
      simp only [List.map_nil, List.map_cons, List.replicate_zero, List.nil_append, List.cons.injEq,
        reduceCtorEq, List.map_eq_nil_iff] at ho
    obtain ⟨ho, rfl⟩ := ho
    obtain ⟨io, hio, he⟩ := waitIteration_given onExpired s t restTicks h2 (ht t (by simp))
    refine ⟨io, by simpa using hio, ?_⟩
    simp only [List.length_cons, List.length_nil]
    rw [sequencerRun_succ _ _ (by rw [hs]; exact hl), hstep s hc hs, he, ho]
    rfl
  | succ k ih =>
    rcases ticks with _ | ⟨t, ticks⟩ <;>
      simp only [List.map_nil, List.map_cons, List.replicate_succ, List.cons_append, List.cons.injEq,
        reduceCtorEq] at ho
    obtain ⟨ho, htail⟩ := ho
    obtain ⟨io, hio, he⟩ := waitIteration_given onExpired s t (ticks ++ restTicks) h2 (ht t (by simp))
    obtain ⟨io', hio', he'⟩ := ih (s.withIo io) ticks (by simpa using hc) (by simpa using hs) hio.ticks
      (fun t' h => ht t' (by simp [h])) htail
    refine ⟨io', ⟨by rw [hio'.reads]; exact hio.reads, hio'.ticks,
      by rw [hio'.pins]; exact hio.pins, ?_⟩, ?_⟩
    · rw [hio'.calls]
      simp [hio.calls, List.replicate_succ]
    · simp only [List.length_cons]
      rw [sequencerRun_succ _ _ (by rw [hs]; exact hl), hstep s hc hs, he, ho]
      exact he'

/-! ### The straight lines between the loops -/

/-- The step after step 1 in the poll of step 2: step 3's delay is started. -/
theorem initStep3_eq (s : State) :
    initStep3 s = { s with stepReg := .step3, io := (initStep3 s).io
                           dly := { start := s.io.tickAt s.cfg.tickW 0, duration := s.cfg.settle1Ticks
                                    running := true } } := by
  simp [initStep3, State.delayInit_eq, State.withStep]

@[simp] theorem initStep3_reads (s : State) : (initStep3 s).io.reads = s.io.reads := by simp [initStep3]
@[simp] theorem initStep3_ticks (s : State) : (initStep3 s).io.ticks = s.io.ticks.skip 1 := by
  simp [initStep3]
@[simp] theorem initStep3_pins (s : State) : (initStep3 s).io.pins = s.io.pins := by simp [initStep3]
@[simp] theorem initStep3_calls (s : State) : (initStep3 s).io.calls = s.io.calls ++ [.now] := by
  simp [initStep3]

/-- From the end of step 3's wait to the poll of step 7. -/
def toPoll7 (s : State) : State := initFrom4 (initStep3Flush s)

theorem toPoll7_io_ticks (s : State) : (toPoll7 s).io.ticks = s.io.ticks.skip 1 := by
  simp [toPoll7, initFrom4, initStep7, initStep6, initStep5, initStep4, initStep3Flush]
theorem toPoll7_io_reads (s : State) : (toPoll7 s).io.reads = s.io.reads := by
  simp [toPoll7, initFrom4, initStep7, initStep6, initStep5, initStep4, initStep3Flush]
theorem toPoll7_io_pins (s : State) : (toPoll7 s).io.pins = s.io.pins := by
  simp [toPoll7, initFrom4, initStep7, initStep6, initStep5, initStep4, initStep3Flush]

theorem toPoll7_eq (s : State) :
    toPoll7 s = { s with stepReg := .step7, io := (toPoll7 s).io
                         dly := { start := s.io.tickAt s.cfg.tickW 0, duration := s.cfg.timeoutTicks
                                  running := true } } := by
  have h : (toPoll7 s).dly = { start := s.io.tickAt s.cfg.tickW 0, duration := s.cfg.timeoutTicks
                               running := true } := by
    simp only [toPoll7, initFrom4, initStep7, State.delayInit_dly]
    rw [Io.tickAt_congr (io' := s.io) _ (by simp [initStep6, initStep5, initStep4, initStep3Flush])]
    simp [initStep6, initStep5, initStep4, initStep3Flush]
  refine State.eq_of_fields ?_ ?_ ?_ ?_ ?_ ?_ h ?_ ?_ rfl
  all_goals simp [toPoll7, initFrom4, initStep7, initStep6, initStep5, initStep4, initStep3Flush]

/-- From the end of step 7's poll to the wait of step 9. -/
def toWait9 (s : State) : State := initStep9 (initStep8 s)

theorem toWait9_io_ticks (s : State) : (toWait9 s).io.ticks = s.io.ticks.skip 1 := by
  simp [toWait9, initStep9, initStep8]
theorem toWait9_io_reads (s : State) : (toWait9 s).io.reads = s.io.reads := by
  simp [toWait9, initStep9, initStep8]
theorem toWait9_io_pins (s : State) : (toWait9 s).io.pins = s.io.pins := by
  simp [toWait9, initStep9, initStep8]
theorem toWait9_eq (s : State) :
    toWait9 s = { s with stepReg := .step9, io := (toWait9 s).io
                         dly := { start := s.io.tickAt s.cfg.tickW 0, duration := s.cfg.settle2Ticks
                                  running := true } } := by
  have h : (toWait9 s).dly = { start := s.io.tickAt s.cfg.tickW 0, duration := s.cfg.settle2Ticks
                               running := true } := by
    simp only [toWait9, initStep9, State.delayInit_dly]
    rw [Io.tickAt_congr (io' := s.io) _ (by simp [initStep8])]
    simp [initStep8]
  refine State.eq_of_fields ?_ ?_ ?_ ?_ ?_ ?_ h ?_ ?_ rfl
  all_goals simp [toWait9, initStep9, initStep8]

/-- Steps 10 and 11. -/
def toEnd (s : State) : State := initStep11 (initStep10 s)

theorem toEnd_eq (s : State) :
    toEnd s = { s with stepReg := .idle, status := .initOk, answer := some (.result .initOk)
                       io := (toEnd s).io } := by
  refine State.eq_of_fields ?_ ?_ ?_ ?_ ?_ ?_ ?_ ?_ ?_ rfl
  all_goals simp [toEnd, initStep11, initStep10]

/-- After the second poll the calls are those of steps 8 to 11. -/
theorem toEnd_toWait9_calls (s : State) (io : Io) (w : Nat)
    (h : io.calls = (toWait9 s).io.calls ++ List.replicate w .now) :
    (toEnd ((toWait9 s).withIo io)).io.calls = s.io.calls ++ callsToEnd s.cfg s.id w := by
  simp [toEnd, initStep11, initStep10, h, toWait9, initStep9, initStep8, callsToEnd, shortWritesCalls]

/-- After step 3's wait the calls are those of steps 3 to 7. -/
theorem toPoll7_initStep3_calls (s : State) (io : Io) (w : Nat)
    (h : io.calls = (initStep3 s).io.calls ++ List.replicate w .now) :
    (toPoll7 ((initStep3 s).withIo io)).io.calls = s.io.calls ++ callsToPoll7 s.cfg s.id w := by
  simp [toPoll7, initFrom4, initStep7, initStep6, initStep5, initStep4, initStep3Flush, callsToPoll7, h,
    shortWritesCalls, macWrites_eq, List.flatMap_map, initStep3]

end Sys2Proof.Machine
end

