-- ==== Sys2Proof/Laws/Parser.lean ====
section
/-! SUPPORT. The pieces of `RX` on the block's edge: prologue, epilogue, payload and trailer reads. -/

namespace Sys2Proof.Machine

@[simp] theorem rxPrologue_reads (c : Cfg) (io : Io) : (rxPrologue c io).reads = io.reads := by
  simp [rxPrologue]
@[simp] theorem rxPrologue_pins (c : Cfg) (io : Io) : (rxPrologue c io).pins = io.pins := by
  simp [rxPrologue]
@[simp] theorem rxPrologue_ticks (c : Cfg) (io : Io) : (rxPrologue c io).ticks = io.ticks := by
  simp [rxPrologue]
@[simp] theorem rxPrologue_calls (c : Cfg) (io : Io) :
    (rxPrologue c io).calls = io.calls ++ (shortWriteCalls c.map.regBbReg1 c.map.rxDecInvOn ++
      shortWriteCalls c.map.regRxFlush c.map.rxFlushRx) := by
  simp [rxPrologue, shortWritesCalls]

@[simp] theorem rxEpilogue_reads (c : Cfg) (io : Io) : (rxEpilogue c io).reads = io.reads.skip 1 := by
  simp [rxEpilogue]
@[simp] theorem rxEpilogue_pins (c : Cfg) (io : Io) : (rxEpilogue c io).pins = io.pins := by
  simp [rxEpilogue]
@[simp] theorem rxEpilogue_ticks (c : Cfg) (io : Io) : (rxEpilogue c io).ticks = io.ticks := by
  simp [rxEpilogue]
@[simp] theorem rxEpilogue_calls (c : Cfg) (io : Io) :
    (rxEpilogue c io).calls = io.calls ++ (shortWriteCalls c.map.regBbReg1 c.map.rxDecInvOff ++
      shortReadCalls c.map.regIntStat) := by
  simp [rxEpilogue]

/-- The payload is the next `n` bytes read, in order. -/
theorem rxPayload_bytes (c : Cfg) (n : Nat) (io : Io) :
    (rxPayload c n io).1 = (List.range n).map fun k => (io.readAt k).2 := by
  unfold rxPayload
  split <;> simp [Io.lReads_bytes]

@[simp] theorem rxPayload_length (c : Cfg) (n : Nat) (io : Io) : (rxPayload c n io).1.length = n := by
  simp [rxPayload_bytes]

/-- How many reads the payload and the trailer take. -/
def rxReads (c : Cfg) (n : Nat) : Nat := if c.trailerRead then n + trailerLen else n

theorem rxPayload_reads (c : Cfg) (n : Nat) (io : Io) :
    (rxPayload c n io).2.reads = io.reads.skip (rxReads c n) := by
  unfold rxPayload rxReads
  split <;> simp
@[simp] theorem rxPayload_pins (c : Cfg) (n : Nat) (io : Io) : (rxPayload c n io).2.pins = io.pins := by
  unfold rxPayload
  split <;> simp
@[simp] theorem rxPayload_ticks (c : Cfg) (n : Nat) (io : Io) :
    (rxPayload c n io).2.ticks = io.ticks := by
  unfold rxPayload
  split <;> simp

/-- Payload and trailer are one run of consecutive positions. -/
theorem rxPayload_calls (c : Cfg) (n : Nat) (io : Io) :
    (rxPayload c n io).2.calls = io.calls ++
      longReadsCalls (positions c.map.rxFifoBase (c.hdrLen - 1) (rxReads c n)) := by
  unfold rxPayload rxReads
  split
  · have h := List.range'_append_1 (s := c.hdrLen - 1) (m := n) (n := trailerLen)
    simp only [Io.lReads_calls, List.append_assoc, positions_eq]
    rw [← h, List.map_append]
    simp [longReadsCalls]
  · simp

/-- A frame's length byte in range passes the length check. -/
theorem badLength_false {c : Cfg} {b : Byte} {n : Nat} (h : b.toNat = n + 4) (hn : n ≤ c.maxBuf) :
    badLength c b = false := by
  simp [badLength, trailerLen, h]
  omega

/-- A frame's length byte out of range fails the length check. -/
theorem badLength_true {c : Cfg} {b : Byte} (h : b.toNat < 4 ∨ c.maxBuf + 4 < b.toNat) :
    badLength c b = true := by
  unfold badLength
  rcases h with h | h
  · rw [decide_eq_true (show b.toNat < trailerLen from h), Bool.true_or]
  · rw [decide_eq_true (show c.maxBuf < b.toNat - trailerLen by unfold trailerLen; omega), Bool.or_true]

end Sys2Proof.Machine
end

