-- ==== Sys2Proof/Laws/Meanings.lean ====
section
/-! SUPPORT. What each meaning can do: if it answers a next state, then that state, with what was checked on
the way. One lemma per meaning; later proofs cite these and unfold no meaning. -/

namespace Sys2Proof.Machine

/-! ### Delay -/

theorem execDlyInit_next {d : Nat} {s t : State} (h : execDlyInit d s = .next t) :
    s.cfg.wf = true ∧ d < 2 ^ s.cfg.tickW ∧ t = (s.delayInit d).give .done := by
  unfold execDlyInit at h
  obtain ⟨hw, h⟩ := unitOp_next.mp h
  split at h
  · exact ⟨hw, ‹_›, by simpa using h.symm⟩
  · cases h

theorem execDlyRead_next {s t : State} (h : execDlyRead s = .next t) :
    s.cfg.wf = true ∧ s.dly.running = true ∧ t = s.delayRead.2.give (.expired s.delayRead.1) := by
  unfold execDlyRead at h
  obtain ⟨hw, h⟩ := unitOp_next.mp h
  split at h
  · exact ⟨hw, ‹_›, by simpa using h.symm⟩
  · cases h

theorem execDlyReset_next {s t : State} (h : execDlyReset s = .next t) :
    s.cfg.wf = true ∧ t = s.delayReset.give .done := by
  obtain ⟨hw, h⟩ := unitOp_next.mp h
  exact ⟨hw, by simpa using h.symm⟩

theorem execDlyWrite_next {d : Nat} {s t : State} (h : execDlyWrite d s = .next t) :
    s.cfg.wf = true ∧ d < 2 ^ s.cfg.tickW ∧
      t = (s.withDly { s.dly with duration := d }).give .done := by
  unfold execDlyWrite at h
  obtain ⟨hw, h⟩ := unitOp_next.mp h
  split at h
  · exact ⟨hw, ‹_›, by simpa using h.symm⟩
  · cases h

/-! ### Encoders -/

theorem execEncSr_next {r : ShortAddr} {s t : State} (h : execEncSr r s = .next t) :
    s.cfg.wf = true ∧ t = s.give (.shortWord (shortReadWord r)) := by
  obtain ⟨hw, h⟩ := unitOp_next.mp h
  exact ⟨hw, by simpa using h.symm⟩

theorem execEncSw_next {r : ShortAddr} {s t : State} (h : execEncSw r s = .next t) :
    s.cfg.wf = true ∧ t = s.give (.shortWord (shortWriteWord r)) := by
  obtain ⟨hw, h⟩ := unitOp_next.mp h
  exact ⟨hw, by simpa using h.symm⟩

theorem execEncLr_next {r : LongAddr} {s t : State} (h : execEncLr r s = .next t) :
    s.cfg.wf = true ∧ t = s.give (.longWord (longReadWord r)) := by
  obtain ⟨hw, h⟩ := unitOp_next.mp h
  exact ⟨hw, by simpa using h.symm⟩

theorem execEncLw_next {r : LongAddr} {s t : State} (h : execEncLw r s = .next t) :
    s.cfg.wf = true ∧ t = s.give (.longWord (longWriteWord r)) := by
  obtain ⟨hw, h⟩ := unitOp_next.mp h
  exact ⟨hw, by simpa using h.symm⟩

/-! ### Register access -/

/-- The answer and the edge of an `RA` read. -/
theorem execRaSrd_next {a : ShortAddr} {null : Bool} {s t : State} (h : execRaSrd a null s = .next t) :
    s.cfg.wf = true ∧ (null = true ∧ t = s.give (.read .invalidArg none) ∨
      null = false ∧ t = (s.withIo (s.io.shortRead a).2).give
        (.read (s.io.shortRead a).1.1 (some (s.io.shortRead a).1.2))) := by
  obtain ⟨hw, h⟩ := unitOp_next.mp h
  refine ⟨hw, ?_⟩
  cases null
  · exact .inr ⟨rfl, by simpa using h.symm⟩
  · exact .inl ⟨rfl, by simpa using h.symm⟩

theorem execRaLrd_next {a : LongAddr} {null : Bool} {s t : State} (h : execRaLrd a null s = .next t) :
    s.cfg.wf = true ∧ (null = true ∧ t = s.give (.read .invalidArg none) ∨
      null = false ∧ t = (s.withIo (s.io.longRead a).2).give
        (.read (s.io.longRead a).1.1 (some (s.io.longRead a).1.2))) := by
  obtain ⟨hw, h⟩ := unitOp_next.mp h
  refine ⟨hw, ?_⟩
  cases null
  · exact .inr ⟨rfl, by simpa using h.symm⟩
  · exact .inl ⟨rfl, by simpa using h.symm⟩

theorem execRaSwr_next {a : ShortAddr} {v : Byte} {s t : State} (h : execRaSwr a v s = .next t) :
    s.cfg.wf = true ∧ t = (s.withIo (s.io.sWrite a v)).ret (s.io.shortWrite a v).1 := by
  obtain ⟨hw, h⟩ := unitOp_next.mp h
  exact ⟨hw, (Host.Outcome.next.inj h).symm⟩

theorem execRaLwr_next {a : LongAddr} {v : Byte} {s t : State} (h : execRaLwr a v s = .next t) :
    s.cfg.wf = true ∧ t = (s.withIo (s.io.lWrite a v)).ret (s.io.longWrite a v).1 := by
  obtain ⟨hw, h⟩ := unitOp_next.mp h
  exact ⟨hw, (Host.Outcome.next.inj h).symm⟩

/-! ### Init -/

theorem execInit_next {s t : State} :
    execInit s = .next t ↔
      s.accepts ∧ t = sequencerRun s.io.ticks.given.length (initBegin s) := by
  unfold execInit
  rw [command_next]
  simp [eq_comm]

/-! ### Packets -/

/-- A `TX` that answers a next state was accepted as a command, and either was turned away with nothing
changed but the answer, or wrote its frame after passing the four checks. -/
theorem execTx_next {dst : Half} {dpan org : Option Half} {payload : List Byte} {s t : State}
    (h : execTx dst dpan org payload s = .next t) :
    s.accepts ∧ ((∃ r ∈ [Result.notReady, .noDest, .noPayload, .tooLong], t = s.ret r) ∨
      s.status = .initOk ∧ dst ≠ 0#16 ∧ payload.length ≠ 0 ∧ payload.length ≤ s.cfg.maxBuf ∧
        positionOk s.cfg.map.txFifoBase (11 + payload.length) = true ∧
        t = txAccepted s dst dpan org payload) := by
  unfold execTx at h
  obtain ⟨ha, ⟨_, rfl⟩ | ⟨hr, h⟩⟩ := gated_next.mp h
  · exact ⟨ha, .inl ⟨.notReady, by simp, rfl⟩⟩
  refine ⟨ha, ?_⟩
  split at h
  · exact .inl ⟨.noDest, by simp, by simpa using h.symm⟩
  split at h
  · exact .inl ⟨.noPayload, by simp, by simpa using h.symm⟩
  split at h
  · exact .inl ⟨.tooLong, by simp, by simpa using h.symm⟩
  split at h
  · exact .inr ⟨hr, ‹_›, ‹_›, by omega, ‹_›, by simpa using h.symm⟩
  · cases h

/-- What a written frame leaves. -/
theorem txAccepted_eq (s : State) (dst : Half) (dpan org : Option Half) (payload : List Byte) :
    txAccepted s dst dpan org payload = { s with
      txf := builtFrame s.txf dst dpan org payload
      id := { s.id with seq := s.id.seq + 1#8 }
      answer := some (.result .txCompleted)
      io := (s.io.lWrites (atPositions s.cfg.map.txFifoBase 0 (s.txFrame dst dpan org payload))).sWrite
        s.cfg.map.regTxnCon s.cfg.map.txnConTrigAck } := rfl

theorem execIsNew_next {s t : State} (h : execIsNew s = .next t) :
    s.accepts ∧ (s.status ≠ .initOk ∧ t = s.ret .notReady ∨
      s.status = .initOk ∧ t = (s.withIo s.io.int.2).ret (pendingResult s.io.int.1)) := by
  obtain ⟨ha, h | ⟨hr, h⟩⟩ := gated_next.mp h
  · exact ⟨ha, .inl h⟩
  · exact ⟨ha, .inr ⟨hr, by simpa using h.symm⟩⟩

theorem execRx_next {s t : State} (h : execRx s = .next t) :
    s.accepts ∧ (s.status ≠ .initOk ∧ t = s.ret .notReady ∨ s.status = .initOk ∧ t = rxRun s) := by
  obtain ⟨ha, h | ⟨hr, h⟩⟩ := gated_next.mp h
  · exact ⟨ha, .inl h⟩
  · exact ⟨ha, .inr ⟨hr, by simpa using h.symm⟩⟩

theorem execGetLast_next {s t : State} (h : execGetLast s = .next t) :
    s.accepts ∧ t = s.give .okView := by
  obtain ⟨ha, h⟩ := command_next.mp h
  exact ⟨ha, by simpa using h.symm⟩

theorem execDiscover_next {s t : State} (h : execDiscover s = .next t) :
    s.accepts ∧ (s.status ≠ .initOk ∧ t = s.ret .notReady ∨ s.status = .initOk ∧ t = s.ret .ok) := by
  obtain ⟨ha, h | ⟨hr, h⟩⟩ := gated_next.mp h
  · exact ⟨ha, .inl h⟩
  · exact ⟨ha, .inr ⟨hr, by simpa using h.symm⟩⟩

/-! ### Receiving -/

/-- The edge of `RX` after the three header reads. -/
def rxHeader (s : State) : Io :=
  ((((rxPrologue s.cfg s.io).lRead (position s.cfg.map.rxFifoBase 0)).2.lRead
    (position s.cfg.map.rxFifoBase 9)).2.lRead (position s.cfg.map.rxFifoBase 8)).2

@[simp] theorem rxHeader_reads (s : State) : (rxHeader s).reads = s.io.reads.skip 3 := by
  simp [rxHeader]
@[simp] theorem rxHeader_pins (s : State) : (rxHeader s).pins = s.io.pins := by simp [rxHeader]
@[simp] theorem rxHeader_ticks (s : State) : (rxHeader s).ticks = s.io.ticks := by simp [rxHeader]
@[simp] theorem rxHeader_calls (s : State) :
    (rxHeader s).calls = (rxPrologue s.cfg s.io).calls ++
      longReadsCalls ([0, 9, 8].map (position s.cfg.map.rxFifoBase)) := by
  simp [rxHeader, longReadsCalls]

theorem rxPrologue_byte (s : State) (a : LongAddr) :
    ((rxPrologue s.cfg s.io).lRead a).1 = (s.io.readAt 0).2 := by
  simp [Io.readAt]

/-- `RX` of a frame whose length byte fails its check. -/
theorem rxRun_bad {s : State} (h : badLength s.cfg (s.io.readAt 0).2 = true) :
    rxRun s = { s with
      rxf := { s.rxf with src := joinBytes (s.io.readAt 1).2 (s.io.readAt 2).2, len := 0#8 }
      answer := some (.result .decodeError)
      io := rxEpilogue s.cfg (rxHeader s) } := by
  unfold rxRun
  simp only [rxPrologue_byte, h, if_true]
  apply State.eq_of_fields <;> simp [rxHeader, Io.readAt]

/-- `RX` of a frame whose length byte passes its check. -/
theorem rxRun_good {s : State} (h : badLength s.cfg (s.io.readAt 0).2 = false) :
    rxRun s = { s with
      rxf := { src := joinBytes (s.io.readAt 1).2 (s.io.readAt 2).2
               buf := overlay (rxPayload s.cfg ((s.io.readAt 0).2.toNat - trailerLen) (rxHeader s)).1
                 s.rxf.buf
               len := BitVec.ofNat 8 ((s.io.readAt 0).2.toNat - trailerLen) }
      answer := some (.result .ok)
      io := rxEpilogue s.cfg
        (rxPayload s.cfg ((s.io.readAt 0).2.toNat - trailerLen) (rxHeader s)).2 } := by
  unfold rxRun
  simp only [rxPrologue_byte, h]
  apply State.eq_of_fields <;> simp [rxHeader, Io.readAt]

/-- What every `RX` past its gate leaves alone. -/
theorem rxRun_frame (s : State) :
    (rxRun s).cfg = s.cfg ∧ (rxRun s).id = s.id ∧ (rxRun s).txf = s.txf ∧
      (rxRun s).status = s.status ∧ (rxRun s).stepReg = s.stepReg ∧ (rxRun s).dly = s.dly ∧
      (rxRun s).inbox = s.inbox ∧ (rxRun s).io.pins = s.io.pins ∧ (rxRun s).io.ticks = s.io.ticks := by
  cases h : badLength s.cfg (s.io.readAt 0).2
  · simp [rxRun_good h]
  · simp [rxRun_bad h]

/-- A length byte that passes its check gives a payload length within the buffer. -/
theorem badLength_le {c : Cfg} {b : Byte} (h : badLength c b = false) : b.toNat - trailerLen ≤ c.maxBuf := by
  unfold badLength at h
  rw [Bool.or_eq_false_iff] at h
  exact Nat.not_lt.mp (of_decide_eq_false h.2)

/-! ### The sequencer over a whole command -/

/-- What a run of the sequencer leaves alone. -/
theorem sequencerRun_frame (n : Nat) (s : State) : SeqFrame s (sequencerRun n s) :=
  sequencerRun_induct (P := SeqFrame s) (fun u _ h => h.trans (sequencerStep_frame u)) n s
    (SeqFrame.refl s)

/-- How an accepted `INIT` that started with status `status` ends: still in one of its loops with that status
and no answer, or at its end with status and answer alike. -/
structure InitEnd (status : DriverStatus) (t : State) : Prop where
  looping : t.stepReg ≠ .idle → t.status = status ∧ t.answer = none ∧
    t.stepReg ∈ [SeqStep.step2, SeqStep.step3, SeqStep.step7, SeqStep.step9]
  ended : t.stepReg = .idle → t.status = .initOk ∧ t.answer = some (.result .initOk) ∨
    t.status = .timeout ∧ t.answer = some (.result .timeout)

theorem initRun_end (n : Nat) (s : State) : InitEnd s.status (sequencerRun n (initBegin s)) := by
  obtain ⟨-, -, -, -, -, h6, h7, h8, -⟩ := initBegin_fields s
  refine sequencerRun_induct (P := InitEnd s.status) ?_ n _
    ⟨fun _ => ⟨h6, h8, by simp [h7]⟩, fun h => by simp [h7] at h⟩
  intro u hu hP
  obtain ⟨hs, ha, _⟩ := hP.looping hu
  rcases sequencerStep_end u hu with ⟨hl, hs', ha'⟩ | ⟨hi, hs', ha'⟩ | ⟨hi, hs', ha'⟩
  · exact ⟨fun _ => ⟨hs'.trans hs, ha'.trans ha, hl⟩, fun h => by simp [h] at hl⟩
  · exact ⟨fun h => absurd hi h, fun _ => .inl ⟨hs', ha'⟩⟩
  · exact ⟨fun h => absurd hi h, fun _ => .inr ⟨hs', ha'⟩⟩

/-! ### The step -/

/-- Everything a step that answers a next state can have done. -/
inductive StepCase (s t : State) : Prop where
  | reset (rest : List Input) (inbox : s.inbox = .reset :: rest) (eq : t = (s.withInbox rest).resetInput)
  | sequencer (busy : s.stepReg ≠ .idle) (eq : t = sequencerStep s)
  | idle (idle : s.stepReg = .idle) (inbox : s.inbox = []) (eq : t = s)
  | awaited (rest : List Input) (idle : s.stepReg = .idle) (inbox : s.inbox = .await :: rest)
      (eq : t = s.withInbox rest)
  | run (w : PortWord) (rest : List Input) (i : Instr) (idle : s.stepReg = .idle)
      (inbox : s.inbox = .request w :: rest) (decoded : decode s.cfg w = .ok i)
      (eq : exec i (s.withInbox rest) = .next t)

theorem step_cases {s t : State} (h : step s = .next t) : s.cfg.wf = true ∧ StepCase s t := by
  unfold step nextAction at h
  by_cases hw : s.cfg.wf = true
  swap
  · simp [hw] at h
  refine ⟨hw, ?_⟩
  simp only [hw, if_true] at h
  by_cases hid : s.stepReg = .idle
  · rcases hi : s.inbox with _ | ⟨(w | _ | _), rest⟩ <;>
      simp only [hi, State.isIdle, hid, BEq.rfl, if_true, present, State.withInbox_cfg] at h
    · exact .idle hid hi (by simpa using h.symm)
    · rcases hd : decode s.cfg w with e | i <;> simp only [hd] at h
      · cases h
      · exact .run w rest i hid hi hd h
    · exact .reset rest hi (by simpa using h.symm)
    · exact .awaited rest hid hi (by simpa using h.symm)
  · have hf : s.isIdle = false := by simp [State.isIdle, hid]
    rcases hi : s.inbox with _ | ⟨(w | _ | _), rest⟩ <;>
      simp only [hi, hf, Bool.false_eq_true, if_false] at h
    · exact .sequencer hid (by simpa using h.symm)
    · cases h
    · exact .reset rest hi (by simpa using h.symm)
    · exact .sequencer hid (by simpa using h.symm)

/-- A step inside an `INIT` that nothing disturbs is the sequencer's next move. -/
theorem step_busy {s : State} (hw : s.cfg.wf = true) (hb : s.stepReg ≠ .idle) (hu : s.undisturbed) :
    step s = .next (sequencerStep s) := by
  have hf : s.isIdle = false := by simp [State.isIdle, hb]
  unfold step nextAction
  rcases hi : s.inbox with _ | ⟨(w | _ | _), rest⟩
  · simp [hw, hf]
  · exact absurd hi (hu.2 w rest)
  · exact absurd hi (hu.1 rest)
  · simp [hw, hf]

end Sys2Proof.Machine
end

