-- ==== Sys2Proof/Laws/Words.lean ====
section
/-! SUPPORT. Bytes of 16-bit values, and the address words as numbers. -/

namespace Sys2Proof

/-- The two bytes of a 16-bit value join to the value. -/
@[simp] theorem joinBytes_hi8_lo8 (w : Half) : joinBytes (hi8 w) (lo8 w) = w := by
  unfold joinBytes hi8 lo8
  apply BitVec.eq_of_getLsbD_eq
  intro i hi
  simp only [BitVec.getLsbD_append, BitVec.getLsbD_extractLsb']
  by_cases h : i < 8
  · simp [h]
  · have h8 : i - 8 < 8 := by omega
    have hi' : 8 + (i - 8) = i := by omega
    simp [h, h8, hi']

/-- `ENC.SR` as a number (41_codec_regaccess.md R121). -/
theorem shortReadWord_toNat : ∀ r : ShortAddr, (shortReadWord r).toNat = 2 * r.toNat := by
  decide +kernel

/-- `ENC.SW` as a number (41_codec_regaccess.md R122). -/
theorem shortWriteWord_toNat : ∀ r : ShortAddr, (shortWriteWord r).toNat = 2 * r.toNat + 1 := by
  decide +kernel

/-- `ENC.LR` as a number (41_codec_regaccess.md R123). -/
theorem longReadWord_toNat : ∀ r : LongAddr, (longReadWord r).toNat = 0x8000 + 32 * r.toNat := by
  decide +kernel

/-- `ENC.LW` as a number (41_codec_regaccess.md R124). -/
theorem longWriteWord_toNat : ∀ r : LongAddr, (longWriteWord r).toNat = 0x8010 + 32 * r.toNat := by
  decide +kernel

/-- The number of `k` bytes of `n`. -/
theorem leNat_leBytes (n k : Nat) : leNat (leBytes n k) = n % 256 ^ k := by
  induction k generalizing n with
  | zero => simp [leBytes, leNat, Nat.mod_one]
  | succ k ih =>
    have h8 : (BitVec.ofNat 8 n).toNat = n % 256 := by simp
    rw [leBytes, leNat, ih, h8, Nat.pow_succ', Nat.mod_mul]

@[simp] theorem leBytes_length (n k : Nat) : (leBytes n k).length = k := by
  induction k generalizing n with
  | zero => rfl
  | succ k ih => simp [leBytes, ih]

/-- A `u(TICK_W)` fits its operand bytes. -/
theorem lt_tickBytes (c : Cfg) {d : Nat} (h : d < 2 ^ c.tickW) : d < 256 ^ c.tickBytes := by
  refine lt_of_lt_of_le h ?_
  rw [show (256 : Nat) = 2 ^ 8 from rfl, ← Nat.pow_mul]
  exact Nat.pow_le_pow_right (by omega) (by unfold Cfg.tickBytes; omega)

end Sys2Proof
end

