-- ==== Sys2Proof/Laws/PerInstr.lean ====
section
/-! SUPPORT. A law of every operation as syntax: the word the encoder writes carries the bits that
spec/opcode_table.json fixes for the operation's row. -/

namespace Sys2Proof.Laws.CarriesItsRow

/-- The table's mask leaves of the word's bits the table's match. -/
def Statement (i : Instr) : Prop :=
  ∀ c : Cfg, (encode c i).tableBits &&& (tableRow i).2 = (tableRow i).1

theorem init : Statement .init := fun _ => by
  simp [encode, PortWord.tableBits, tableRow]
theorem setCh (ch : Byte) : Statement (.setCh ch) := fun _ => by
  simp [encode, PortWord.tableBits, tableRow]
theorem setPan (pan : Half) : Statement (.setPan pan) := fun _ => by
  simp [encode, PortWord.tableBits, tableRow]
theorem setAddr (addr : Half) : Statement (.setAddr addr) := fun _ => by
  simp [encode, PortWord.tableBits, tableRow]
theorem setSeq (seq : Byte) : Statement (.setSeq seq) := fun _ => by
  simp [encode, PortWord.tableBits, tableRow]
theorem setMac (mac : Vector Byte 8) : Statement (.setMac mac) := fun _ => by
  simp [encode, PortWord.tableBits, tableRow]
theorem setKey (key : Vector Byte 16) : Statement (.setKey key) := fun _ => by
  simp [encode, PortWord.tableBits, tableRow]
theorem tx (dst : Half) (dpan : Option Half) (org : Option Half) (payload : List Byte) :
    Statement (.tx dst dpan org payload) := fun _ => by
  simp [encode, PortWord.tableBits, tableRow]
theorem isNew : Statement .isNew := fun _ => by
  simp [encode, PortWord.tableBits, tableRow]
theorem rx : Statement .rx := fun _ => by
  simp [encode, PortWord.tableBits, tableRow]
theorem getLast : Statement .getLast := fun _ => by
  simp [encode, PortWord.tableBits, tableRow]
theorem discover : Statement .discover := fun _ => by
  simp [encode, PortWord.tableBits, tableRow]
theorem dlyInit (d : Nat) : Statement (.dlyInit d) := fun _ => by
  simp [encode, PortWord.tableBits, tableRow]
theorem dlyRead : Statement .dlyRead := fun _ => by
  simp [encode, PortWord.tableBits, tableRow]
theorem dlyReset : Statement .dlyReset := fun _ => by
  simp [encode, PortWord.tableBits, tableRow]
theorem dlyWrite (d : Nat) : Statement (.dlyWrite d) := fun _ => by
  simp [encode, PortWord.tableBits, tableRow]
theorem encSr (r : ShortAddr) : Statement (.encSr r) := by
  intro c
  change (shortReadWord r).toNat &&& 0x81 = 0x00
  revert r
  decide
theorem encSw (r : ShortAddr) : Statement (.encSw r) := by
  intro c
  change (shortWriteWord r).toNat &&& 0x81 = 0x01
  revert r
  decide

theorem encLr (r : LongAddr) : Statement (.encLr r) := fun _ => by
  have h : ∀ r : LongAddr, (longReadWord r).toNat &&& 0x801F = 0x8000 := by decide +kernel
  simpa [encode, PortWord.tableBits, tableRow, joinBytes_hi8_lo8] using h r
theorem encLw (r : LongAddr) : Statement (.encLw r) := fun _ => by
  have h : ∀ r : LongAddr, (longWriteWord r).toNat &&& 0x801F = 0x8010 := by decide +kernel
  simpa [encode, PortWord.tableBits, tableRow, joinBytes_hi8_lo8] using h r
theorem raSrd (a : ShortAddr) (null : Bool) : Statement (.raSrd a null) := fun _ => by
  simp [encode, PortWord.tableBits, tableRow]
theorem raSwr (a : ShortAddr) (v : Byte) : Statement (.raSwr a v) := fun _ => by
  simp [encode, PortWord.tableBits, tableRow]
theorem raLrd (a : LongAddr) (null : Bool) : Statement (.raLrd a null) := fun _ => by
  simp [encode, PortWord.tableBits, tableRow]
theorem raLwr (a : LongAddr) (v : Byte) : Statement (.raLwr a v) := fun _ => by
  simp [encode, PortWord.tableBits, tableRow]

end Sys2Proof.Laws.CarriesItsRow
end

