-- ==== Sys2Proof/Tests/Slice0.lean ====
section
/-! SUPPORT. The model's own tests: one step each, the expected results from 95_test_vectors.md and
30_encoding.md (named V, A, K, T, Q, P as there), and for every statement with hypotheses a state and
operands that meet them. -/

namespace Sys2Proof.Tests

open Sys2Proof.Machine

/-! ## Helpers -/

/-- A feed of the given answers. -/
def feed {α : Type} (given : List α) : Feed α := ⟨given, 0⟩

/-- An edge with the given answers to come and an empty trace. -/
def edge (oks : List Bool) (reads : List (Bool × Byte)) (pins : List Bool) (ticks : List Nat) : Io :=
  { oks := feed oks, reads := feed reads, pins := feed pins, ticks := feed ticks, trace := [] }

/-- `n` good transfers. -/
def good (n : Nat) : List Bool := List.replicate n true

/-- Reads that succeed with the given bytes. -/
def bytes (bs : List Byte) : List (Bool × Byte) := bs.map fun b => (true, b)

/-- Just after power-on under the default configuration, with an edge. -/
def fresh (io : Io) : State := { State.reset with io := io }

/-- After a successful `INIT`, with the identity of 95_test_vectors.md 2.5. -/
def ready (io : Io) : State :=
  { State.reset with
    id := { factoryId Cfg.cfg0 with seq := 0x10 }
    status := .initOk
    rxf := { State.reset.rxf with buf := List.replicate 116 0xEE }
    io := io }

/-- A state with a delay of the given registers. -/
def delayed (start duration : Nat) (running : Bool) (io : Io) : State :=
  { State.reset with dly := { start := start, duration := duration, running := running }, io := io }

/-- A view of the next state, where there is one. -/
def view {α : Type} (o : Out) (f : State → α) : Option α :=
  match o with
  | .next t => some (f t)
  | .fault _ => none
  | .refused _ => none

/-- The refusal, where there is one. -/
def refusal (o : Out) : Option Refusal :=
  match o with
  | .next _ => none
  | .fault _ => none
  | .refused r => some r

/-- The writes in a trace: the address word with the byte after it. -/
def writes : List Event → List (Nat × Byte)
  | .w1 a _ :: .w1 v _ :: rest => (a.toNat, v) :: writes rest
  | .w2 a _ :: .w1 v _ :: rest => (a.toNat, v) :: writes rest
  | _ :: rest => writes rest
  | [] => []

/-! ## Well-formedness: one ill-formed term for each check -/

theorem test_cfg0_wf : Cfg.cfg0.wf = true := by decide
theorem test_wf_ticks : (Cfg.wf { Cfg.cfg0 with tickW := 6 } = false) ∧
    Cfg.wf { Cfg.cfg0 with tickW := 7 } = true := by decide
theorem test_wf_addrs :
    Cfg.wf { Cfg.cfg0 with map := { RegMap.map0 with regEadr0 := 0x39 } } = false := by decide
theorem test_wf_tx : Cfg.wf { Cfg.cfg0 with hdrLen := 140 } = false := by decide
theorem test_wf_tx_buffer : Cfg.wf { Cfg.cfg0 with maxBuf := 0 } = false := by decide
theorem test_wf_rx :
    Cfg.wf { Cfg.cfg0 with map := { RegMap.map0 with rxFifoBase := 0x37F } } = false := by decide
theorem test_wf_rx_header : Cfg.wf { Cfg.cfg0 with hdrLen := 0 } = false := by decide
theorem test_wf_channels : Cfg.wf { Cfg.cfg0 with chUnset := 0x13 } = false := by decide
theorem test_wf_channel_default : Cfg.wf { Cfg.cfg0 with defChannel := 0x04 } = false := by decide
theorem test_wf_defaults : Cfg.wf { Cfg.cfg0 with defPanId := 0xFFFF } = false := by decide
theorem test_wf_default_mac :
    Cfg.wf { Cfg.cfg0 with defMac := Vector.replicate 8 0x00 } = false := by decide
theorem test_wf_duration : Instr.wf { Cfg.cfg0 with tickW := 8 } (.dlyInit 256) = false ∧
    Instr.wf { Cfg.cfg0 with tickW := 8 } (.dlyWrite 255) = true := by decide
set_option maxRecDepth 10000 in
theorem test_wf_payload :
    Instr.wf Cfg.cfg0 (.tx 0x0002 none none (List.replicate 256 0)) = false := by decide

/-! ## Decoding: words written out from 30_encoding.md -/

theorem test_decode_init : decode Cfg.cfg0 (.host 0b0001#4 []) = .ok .init := by decide
theorem test_decode_setCh : decode Cfg.cfg0 (.host 0b0010#4 [0xF3]) = .ok (.setCh 0xF3) := by decide
theorem test_decode_setPan :
    decode Cfg.cfg0 (.host 0b0011#4 [0xEF, 0xBE]) = .ok (.setPan 0xBEEF) := by decide
theorem test_decode_setAddr :
    decode Cfg.cfg0 (.host 0b0100#4 [0x05, 0x00]) = .ok (.setAddr 0x0005) := by decide
theorem test_decode_setSeq : decode Cfg.cfg0 (.host 0b0101#4 [0x10]) = .ok (.setSeq 0x10) := by decide
theorem test_decode_setMac : decode Cfg.cfg0 (.host 0b0110#4 [1, 2, 3, 4, 5, 6, 7, 8]) =
    .ok (.setMac #v[1, 2, 3, 4, 5, 6, 7, 8]) := by decide
theorem test_decode_setKey :
    decode Cfg.cfg0 (.host 0b0111#4 [0, 1, 2, 3, 4, 5, 6, 7, 8, 9, 10, 11, 12, 13, 14, 15]) =
      .ok (.setKey Cfg.cfg0.defKey) := by decide
theorem test_decode_tx :
    decode Cfg.cfg0 (.host 0b1000#4 [0x02, 0x00, 1, 0xEF, 0xBE, 0, 0, 0, 1, 0xAA]) =
      .ok (.tx 0x0002 (some 0xBEEF) none [0xAA]) := by decide
theorem test_decode_tx_P2 :
    decode Cfg.cfg0 (.host 0b1000#4 [0x02, 0x00, 0, 0, 0, 0, 0, 0, 3, 0xAA, 0xBB, 0xCC]) =
      .ok (.tx 0x0002 none none [0xAA, 0xBB, 0xCC]) := by decide
theorem test_decode_isNew : decode Cfg.cfg0 (.host 0b1001#4 []) = .ok .isNew := by decide
theorem test_decode_rx : decode Cfg.cfg0 (.host 0b1010#4 []) = .ok .rx := by decide
theorem test_decode_getLast : decode Cfg.cfg0 (.host 0b1011#4 []) = .ok .getLast := by decide
theorem test_decode_discover : decode Cfg.cfg0 (.host 0b1100#4 []) = .ok .discover := by decide
theorem test_decode_reserved : decode Cfg.cfg0 (.host 0b0000#4 []) = .error .reservedCommand ∧
    decode Cfg.cfg0 (.host 0b1101#4 []) = .error .reservedCommand ∧
    decode Cfg.cfg0 (.host 0b1110#4 []) = .error .reservedCommand ∧
    decode Cfg.cfg0 (.host 0b1111#4 []) = .error .reservedCommand := by decide
theorem test_decode_dlyInit :
    decode Cfg.cfg0 (.dly 0b00#2 [0x64, 0, 0, 0]) = .ok (.dlyInit 100) := by decide
theorem test_decode_dlyRead : decode Cfg.cfg0 (.dly 0b01#2 []) = .ok .dlyRead := by decide
theorem test_decode_dlyReset : decode Cfg.cfg0 (.dly 0b10#2 []) = .ok .dlyReset := by decide
theorem test_decode_dlyWrite :
    decode Cfg.cfg0 (.dly 0b11#2 [0, 1, 0, 0]) = .ok (.dlyWrite 256) := by decide
theorem test_decode_dly_range :
    decode { Cfg.cfg0 with tickW := 7 } (.dly 0b00#2 [0x80]) = .error .durationRange := by decide
theorem test_decode_encSr : decode Cfg.cfg0 (.bus [0b01010100]) = .ok (.encSr 0x2A) ∧
    decode Cfg.cfg0 (.ac 0b00#2 [0x2A]) = .ok (.encSr 0x2A) := by decide
theorem test_decode_encSw : decode Cfg.cfg0 (.bus [0b01010101]) = .ok (.encSw 0x2A) ∧
    decode Cfg.cfg0 (.ac 0b01#2 [0x2A]) = .ok (.encSw 0x2A) := by decide
theorem test_decode_encLr : decode Cfg.cfg0 (.bus [0b11000001, 0b11100000]) = .ok (.encLr 0x20F) ∧
    decode Cfg.cfg0 (.ac 0b10#2 [0x0F, 0x02]) = .ok (.encLr 0x20F) := by decide
theorem test_decode_encLw : decode Cfg.cfg0 (.bus [0b10000001, 0b01110000]) = .ok (.encLw 0x00B) ∧
    decode Cfg.cfg0 (.ac 0b11#2 [0x0B, 0x00]) = .ok (.encLw 0x00B) := by decide
theorem test_decode_bus_format : decode Cfg.cfg0 (.bus [0b10000000]) = .error .notAddressWord ∧
    decode Cfg.cfg0 (.bus [0x7F, 0xFF]) = .error .notAddressWord := by decide
theorem test_decode_address_range : decode Cfg.cfg0 (.ac 0b00#2 [0x40]) = .error .addressRange ∧
    decode Cfg.cfg0 (.ac 0b10#2 [0x00, 0x04]) = .error .addressRange := by decide
theorem test_decode_raSrd :
    decode Cfg.cfg0 (.ra 0b00#2 [0x31, 1]) = .ok (.raSrd 0x31 true) := by decide
theorem test_decode_raSwr :
    decode Cfg.cfg0 (.ra 0b01#2 [0x2A, 0x07]) = .ok (.raSwr 0x2A 0x07) := by decide
theorem test_decode_raLrd :
    decode Cfg.cfg0 (.ra 0b10#2 [0x00, 0x03, 0]) = .ok (.raLrd 0x300 false) := by decide
theorem test_decode_raLwr :
    decode Cfg.cfg0 (.ra 0b11#2 [0xFF, 0x03, 0x00]) = .ok (.raLwr 0x3FF 0x00) := by decide
theorem test_decode_table : decodeTableWord 8 0x1 = some .init ∧ decodeTableWord 8 0xC = some .discover ∧
    decodeTableWord 8 0x54 = some (.encSr 0x2A) ∧ decodeTableWord 16 0x8010 = some (.encLw 0) := by decide
theorem test_fetch_word : view (step (State.reset.withFetchWord 8 0xB)) State.answer =
    some (some .okView) := by decide

/-! ## The delay: 95_test_vectors.md 2.1 -/

theorem test_V1 : view (exec (.dlyInit 100) (fresh (edge [] [] [] [0x1000]))) State.dly =
    some { start := 0x1000, duration := 100, running := true } := by decide
theorem test_V4_V5 :
    view (exec .dlyRead (delayed 0xFFFFFFF6 100 true (edge [] [] [] [0x59]))) State.answer =
      some (some (.expired false)) ∧
    view (exec .dlyRead (delayed 0xFFFFFFF6 100 true (edge [] [] [] [0x5A]))) State.answer =
      some (some (.expired true)) := by decide
theorem test_V8 : view (exec .dlyReset (delayed 0x1000 100 true (edge [] [] [] [0x1040]))) State.dly =
    some { start := 0x1040, duration := 100, running := true } := by decide
theorem test_V9 : view (exec (.dlyWrite 10) (delayed 0x1000 100 true (edge [] [] [] [0x7])))
    (fun t => (t.dly, t.io.trace)) = some ({ start := 0x1000, duration := 10, running := true }, []) := by
  decide
theorem test_V11 : refusal (exec .dlyRead (delayed 0 0 false (edge [] [] [] [0x7]))) =
    some .delayNotRunning := by decide

/-! ## The encoders: 95_test_vectors.md 2.2 -/

theorem test_encSr : view (exec (.encSr 0x3F) State.reset) State.answer =
    some (some (.shortWord 0x7E)) := by decide
theorem test_encSw : view (exec (.encSw 0x3F) State.reset) State.answer =
    some (some (.shortWord 0x7F)) := by decide
theorem test_encLr : view (exec (.encLr 0x3FF) State.reset) State.answer =
    some (some (.longWord 0xFFE0)) := by decide
theorem test_encLw : view (exec (.encLw 0x00B) State.reset) State.answer =
    some (some (.longWord 0x8170)) := by decide
theorem test_dec : decShort 0x55 = some (0x2A, true) ∧ decLong 0xC1EF = some (0x20F, false) ∧
    decShort 0x80 = none ∧ decLong 0x7FFF = none := by decide

/-! ## Register access: 95_test_vectors.md 2.3 -/

theorem test_A1 : view (exec (.raSwr 0x2A 0x07) (fresh (edge (good 2) [] [] [])))
    (fun t => (t.answer, t.io.trace)) =
      some (some (.result .ok), [.cs false, .w1 0x55 true, .w1 0x07 true, .cs true]) := by decide
theorem test_A6 : view (exec (.raSwr 0x2A 0x07) (fresh (edge [true, false] [] [] [])))
    (fun t => (t.answer, t.io.trace.length)) = some (some (.result .transportFail), 4) := by decide
theorem test_A7 : view (exec (.raLrd 0x300 false) (fresh (edge [false] [(false, 0x5A)] [] [])))
    (fun t => (t.answer, t.io.trace)) = some (some (.read .transportFail (some 0x5A)),
      [.cs false, .w2 0xE000 false, .r1 false 0x5A, .cs true]) := by decide
theorem test_A8 : view (exec (.raSrd 0x31 true) (fresh (edge [] [] [] [])))
    (fun t => (t.answer, t.io.trace)) = some (some (.read .invalidArg none), []) := by decide
theorem test_A9 : view (exec (.raLrd 0x300 true) (fresh (edge [] [] [] [])))
    (fun t => (t.answer, t.io.trace)) = some (some (.read .invalidArg none), []) := by decide
theorem test_A10 : view (exec (.raSrd 0x3F false) (fresh (edge [true] [(true, 0xFF)] [] [])))
    (fun t => (t.answer, t.io.trace)) = some (some (.read .ok (some 0xFF)),
      [.cs false, .w1 0x7E true, .r1 true 0xFF, .cs true]) := by decide
theorem test_A11 : view (exec (.raLwr 0x3FF 0x00) (fresh (edge (good 2) [] [] [])))
    (fun t => (t.answer, t.io.trace)) =
      some (some (.result .ok), [.cs false, .w2 0xFFF0 true, .w1 0x00 true, .cs true]) := by decide

/-! ## The configuration store: 95_test_vectors.md 2.4 -/

theorem test_K2 : view (exec (.setCh 0xF3) State.reset) (fun t => (t.answer, t.id)) =
    some (some (.result .ok), { factoryId Cfg.cfg0 with chan := 0xF3 }) := by decide
theorem test_K5 : view (exec (.setCh 0x0B) State.reset) (fun t => (t.answer, t.id)) =
    some (some (.result .invalidValue), State.reset.id) := by decide
theorem test_K6 : view (exec (.setPan 0xBEEF) State.reset) State.id =
    some { factoryId Cfg.cfg0 with pan := 0xBEEF } := by decide
theorem test_K7 : view (exec (.setPan 0xFFFF) State.reset) (fun t => (t.answer, t.id)) =
    some (some (.result .invalidValue), State.reset.id) := by decide
theorem test_K9 : view (exec (.setAddr 0xFFFF) State.reset) (fun t => (t.answer, t.id)) =
    some (some (.result .invalidValue), State.reset.id) := by decide
theorem test_K10 : view (exec (.setAddr 0xFFFE) State.reset) State.id =
    some { factoryId Cfg.cfg0 with addr := 0xFFFE } := by decide
theorem test_K11 : view (exec (.setSeq 0xFF) State.reset) State.id =
    some { factoryId Cfg.cfg0 with seq := 0xFF } := by decide
theorem test_setSeq_loads_once : view (exec (.setSeq 0x22) (ready (edge [] [] [] []))) State.id =
    some { factoryId Cfg.cfg0 with seq := 0x22 } := by decide
theorem test_K12 : view (exec (.setMac #v[0, 0, 0, 0, 0, 0, 0, 0]) State.reset) (fun t => (t.answer, t.id)) =
    some (some (.result .invalidValue), State.reset.id) := by decide
theorem test_K13 : view (exec (.setMac #v[0, 0, 0, 0, 0, 0, 0, 1]) State.reset) (fun t => t.id.mac) =
    some #v[0, 0, 0, 0, 0, 0, 0, 1] := by decide
theorem test_K14 : view (exec (.setKey (Vector.replicate 16 0)) State.reset) State.answer =
    some (some (.result .invalidValue)) := by decide
theorem test_K15 : view (exec (.setKey #v[0, 0, 0, 0, 0, 0, 0, 0, 0, 0, 0, 0, 0, 0, 0, 0x80]) State.reset)
    (fun t => (t.id.key.toList.getLast?, t.id.mac)) = some (some 0x80, Cfg.cfg0.defMac) := by decide

/-! ## The packet builder: 95_test_vectors.md 2.5 -/

set_option maxRecDepth 10000 in
theorem test_T10 :
    view (exec (.tx 0x0002 (some 0xBEEF) (some 0x0A0B) [0xAA]) (ready (edge (good 28) [] [] [])))
      (fun t => (t.answer, t.id.seq, (writes t.io.trace).map Prod.snd)) =
    some (some (.result .txCompleted), 0x11, [0x0B, 0x0C, 0x61, 0x88, 0x10, 0xEF, 0xBE, 0x02, 0x00, 0x0B,
      0x0A, 0xAA, 0x00, 0x05]) := by decide
set_option maxRecDepth 10000 in
theorem test_T6 : view (exec (.tx 0x0002 none none (List.replicate 117 0xAA)) (ready (edge [] [] [] [])))
    (fun t => (t.answer, t.io.trace, t.id.seq)) = some (some (.result .tooLong), [], 0x10) := by decide

/-! ## The packet parser: 95_test_vectors.md 2.6 and P3 -/

theorem test_Q1 : view (exec .isNew (fresh (edge [] [] [true] []))) (fun t => (t.answer, t.io.trace)) =
    some (some (.result .notReady), []) := by decide
theorem test_Q2 : view (exec .isNew (ready (edge [] [] [true] []))) (fun t => (t.answer, t.io.trace)) =
    some (some (.result .msgPresent), [.int true]) := by decide
set_option maxRecDepth 10000 in
theorem test_Q5 : view (exec .rx (ready (edge (good 17)
      (bytes [0x07, 0x00, 0x01, 0xAA, 0xBB, 0xCC, 0x12, 0x34, 0x60, 0x50, 0x08]) [] [])))
    (fun t => (t.rxf.src, t.rxf.len, t.rxf.buf.take 4, t.io.trace.length)) =
    some (0x0001, 3, [0xAA, 0xBB, 0xCC, 0xEE], 56) := by decide
set_option maxRecDepth 10000 in
theorem test_Q7 : view (exec .rx (ready (edge (good 10) (bytes [0x03, 0x12, 0x34, 0x08]) [] [])))
    (fun t => (t.answer, t.rxf.src, t.rxf.len, t.io.calls)) =
    some (some (.result .decodeError), 0x1234, 0,
      shortWriteCalls 0x39 0x04 ++ shortWriteCalls 0x0D 0x04 ++ longReadCalls 0x300 ++
        longReadCalls 0x309 ++ longReadCalls 0x308 ++ shortWriteCalls 0x39 0x00 ++
        shortReadCalls 0x31) := by decide
theorem test_Q13 : view (exec .getLast State.reset)
    (fun t => (t.answer, t.lastFrame.1, t.lastFrame.2.1, t.io.trace)) =
      some (some .okView, 0x0000, 0, []) := by decide
theorem test_Q14 : view (exec .discover State.reset) State.answer =
    some (some (.result .notReady)) := by decide
theorem test_Q15 : view (exec .discover (ready (edge [] [] [] []))) (fun t => (t.answer, t.io.trace)) =
    some (some (.result .ok), []) := by decide

/-! ## `INIT`: 95_test_vectors.md P1, P4 -/

/-- The answers of P1. -/
def edgeP1 : Io :=
  edge (good 74) (bytes [0x07, 0x00, 0x80, 0xA5, 0x08]) []
    [1000, 1001, 1002, 1003, 1004, 1005, 1006, 1007, 1008, 1009]

set_option maxRecDepth 10000 in
theorem test_P1 : view (exec .init (fresh edgeP1))
    (fun t => (t.answer, t.status, t.dly.start, writes t.io.trace)) =
    some (some (.result .initOk), .initOk, 1008,
      [(0x55, 0x07), (0x1B, 0x01), (0x05, 0x12), (0x03, 0x34), (0x09, 0x00), (0x07, 0x01), (0x0B, 0x01),
       (0x0D, 0x02), (0x0F, 0x03), (0x11, 0x04), (0x13, 0x05), (0x15, 0x06), (0x17, 0x07), (0x19, 0x08)] ++
      [(0xC030, 0x01), (0xC050, 0x80), (0xC070, 0x00), (0xC0D0, 0x90), (0xC0F0, 0x80), (0xC110, 0x10),
       (0xC410, 0x21), (0x75, 0x80), (0x7F, 0x60), (0x7D, 0x40), (0x31, 0x98), (0x5D, 0x95)] ++
      [(0x65, 0xFF), (0x25, 0x39), (0xC010, 0x03), (0x6D, 0x04), (0x6D, 0x00), (0x01, 0x00)]) := by decide

/-- The answers of P4's first `INIT`. -/
def edgeP4 : Io := edge (good 5) (bytes [0x07, 0x07, 0x07]) [] [0, 40, 80, 120]

set_option maxRecDepth 10000 in
theorem test_P4 : view (exec .init (fresh edgeP4))
    (fun t => (t.answer, t.status, t.stepReg, t.id.chan, t.io.trace.length)) =
    some (some (.result .timeout), .timeout, .idle, 0x03, 23) := by decide

/-! ## Witnesses: for each statement with hypotheses, a state and operands that meet them -/

/-- Inside an `INIT`, at loop `loop`, its delay started at tick 1000. -/
def inside (loop : SeqStep) (duration : Nat) (io : Io) : State :=
  { State.reset with
    id := factoryId Cfg.cfg0, stepReg := loop, io := io
    dly := { start := 1000, duration := duration, running := true } }

/-- A state whose configuration is ill-formed. -/
def broken : State := State.powerOn { Cfg.cfg0 with maxBuf := 0 }

/-- A configuration that is well-formed although a full frame runs past address 1023 [12]. -/
def cfgShortHeader : Cfg :=
  { Cfg.cfg0 with hdrLen := 1, map := { RegMap.map0 with txFifoBase := 0x38A } }

/-- The ready state under that configuration. -/
def readyShortHeader : State :=
  { State.powerOn cfgShortHeader with id := factoryId cfgShortHeader, status := .initOk }

theorem reset_accepts : State.reset.accepts := ⟨by decide, rfl⟩
theorem ready_accepts (io : Io) : (ready io).accepts := ⟨(by decide : Cfg.cfg0.wf = true), rfl⟩

theorem witness_DecodeOfEncode : Instr.wf Cfg.cfg0 (.dlyInit (2 ^ 32 - 1)) = true ∧
    Instr.wf Cfg.cfg0 (.dlyWrite 0) = true ∧
    Instr.wf Cfg.cfg0 (.tx 0x0002 none none [0xAA]) = true := by decide
theorem witness_AcSelect : encodeAcSelect (.encLw 0x3FF) = some (.ac 3#2 [0xFF, 0x03]) ∧
    decode Cfg.cfg0 (.ac 0#2 [0x3F]) = .ok (.encSr 0x3F) ∧
    decode Cfg.cfg0 (.ac 3#2 [0xFF, 0x03]) = .ok (.encLw 0x3FF) := by decide
theorem witness_AddressWordsDecodeBack : (0xC1F0#16).extractLsb' 0 4 = 0#4 ∧
    0xC1E0#16 >>> 4 = 0xC1EF#16 >>> 4 := by decide
theorem witness_Encoders : State.reset.cfg.wf = true := by decide

/-- The next input is a word that names `ISNEW`. -/
def presented : State := { ready (edge [] [] [true] []) with inbox := [.request (.host 9#4 [])] }

theorem witness_StepRuns : presented.accepts ∧ presented.inbox = .request (.host 9#4 []) :: [] ∧
    decode presented.cfg (.host 9#4 []) = .ok .isNew := ⟨⟨by decide, rfl⟩, rfl, by decide⟩
theorem witness_StepOtherwise_idle : State.reset.accepts ∧ State.reset.inbox = [] :=
  ⟨reset_accepts, rfl⟩
theorem witness_StepOtherwise_rejected :
    State.accepts { State.reset with inbox := [.request (.host 0#4 [])] } ∧
    decode Cfg.cfg0 (.host 0#4 []) = .error .reservedCommand := ⟨⟨by decide, rfl⟩, by decide⟩
theorem witness_StepOtherwise_await :
    State.accepts { State.reset with inbox := [.await, .request (.host 9#4 [])] } := ⟨by decide, rfl⟩

theorem inside_undisturbed (loop : SeqStep) (duration : Nat) (io : Io) :
    (inside loop duration io).undisturbed := by
  simp [State.undisturbed, inside, State.reset, State.powerOn]

/-- Inside an `INIT`, the host waiting for its result before it presents the next command. -/
def waiting (loop : SeqStep) (io : Io) : State :=
  { inside loop 100 io with inbox := [.await, .request (.host 0xA#4 [])] }

theorem waiting_undisturbed (loop : SeqStep) (io : Io) : (waiting loop io).undisturbed := by
  simp [State.undisturbed, waiting]

theorem witness_StepOtherwise_inside : (waiting .step2 State.reset.io).cfg.wf = true ∧
    (waiting .step2 State.reset.io).stepReg ≠ .idle ∧ (waiting .step2 State.reset.io).undisturbed :=
  ⟨by decide, by decide, waiting_undisturbed _ _⟩
theorem witness_IllFormedCfg : broken.cfg.wf = false := by decide
theorem witness_CommandWhileBusy : (inside .step9 1 State.reset.io).cfg.wf = true ∧
    (inside .step9 1 State.reset.io).stepReg ≠ .idle ∧ Instr.rx.isCommand = true := by decide

/-- Inside an `INIT`, an `RX` presented before its result. -/
def interrupted : State :=
  { inside .step9 1 State.reset.io with inbox := [.request (.host 0xA#4 [])] }

theorem witness_CommandWhileBusy_step : interrupted.cfg.wf = true ∧ interrupted.stepReg ≠ .idle ∧
    interrupted.inbox = .request (.host 0xA#4 []) :: [] := by decide
theorem test_busy : refusal (step interrupted) = some .busy ∧
    refusal (step { inside .step2 100 State.reset.io with inbox := [.request (.host 0#4 [])] }) =
      some .busy := by decide
theorem witness_ResetInput :
    State.cfg { inside .step7 100 State.reset.io with inbox := [.reset] } = Cfg.cfg0 ∧
    State.inbox { inside .step7 100 State.reset.io with inbox := [.reset] } = .reset :: [] :=
  ⟨rfl, rfl⟩

theorem witness_DelayInit : State.reset.cfg.wf = true ∧ 100 < 2 ^ State.reset.cfg.tickW := by decide
theorem witness_DelayRead_running : (delayed 0xFFFFFFFF 100 true State.reset.io).cfg.wf = true ∧
    (delayed 0xFFFFFFFF 100 true State.reset.io).dly.start < 2 ^ 32 ∧
    (delayed 0xFFFFFFFF 100 true State.reset.io).dly.running = true := by decide
theorem witness_DelayRead_notRunning : State.reset.cfg.wf = true ∧ State.reset.dly.start < 2 ^ 32 ∧
    State.reset.dly.running = false := by decide
theorem witness_DelayReadAcrossOverflow :
    (delayed 0xFFFFFFF6 100 true (edge [] [] [] [0x5A])).cfg.tickW = 32 ∧ 0xFFFFFFF6 < 2 ^ 32 ∧
    100 < 2 ^ 32 ∧ (edge [] [] [] [0x5A]).tickAt 32 0 = (0xFFFFFFF6 + 100) % 2 ^ 32 := by decide
theorem witness_DurationOutOfRange : State.reset.cfg.wf = true ∧ 2 ^ State.reset.cfg.tickW ≤ 2 ^ 32 := by
  decide
theorem witness_TransferFailure : (Instr.raLrd 0x300 false).isRegAccess = true ∧
    (∀ a, Instr.raLrd 0x300 false ≠ .raSrd a true) ∧ ∀ a, Instr.raLrd 0x300 false ≠ .raLrd a true :=
  ⟨rfl, fun _ h => Instr.noConfusion h, fun _ h => by simp at h⟩

theorem witness_Defaults_unset : State.reset.id.chan = State.reset.cfg.chUnset := by decide
theorem witness_Defaults_set : (ready State.reset.io).id.chan ≠ (ready State.reset.io).cfg.chUnset ∧
    ∃ t, exec (.setCh 0x13) (ready State.reset.io) = .next t := ⟨by decide, _, rfl⟩
theorem witness_SetChannel_in : 0xF3#8 ∈ Cfg.cfg0.chanValues.toList := by decide
theorem witness_SetChannel_out : 0x00#8 ∉ Cfg.cfg0.chanValues.toList := by decide
theorem witness_SetMac_zero : ∀ b ∈ (Vector.replicate 8 0#8).toList, b = 0#8 := by decide
theorem witness_SetMac_nonzero : ¬ ∀ b ∈ (#v[0, 0, 0, 0, 0, 0, 0, 1] : Vector Byte 8).toList, b = 0#8 := by
  decide

/-- P1's answers, part by part. -/
def answersP1 : InitAnswers where
  start2 := 1000
  ticks2 := [1001, 1002]
  reads2 := bytes [0x07, 0x00]
  start3 := 1003
  ticks3 := [1004]
  start7 := 1005
  ticks7 := [1006, 1007]
  reads7 := bytes [0x80, 0xA5]
  start9 := 1008
  ticks9 := [1009]
  last := (true, 0x08)

/-- P4's answers in step 2, and I10's in step 7 after P1's before it. -/
def answersP4 : InitAnswers := { answersP1 with start2 := 0, ticks2 := [40, 80, 120],
                                                reads2 := bytes [0x07, 0x07, 0x07] }
def answersI10 : InitAnswers := { answersP1 with ticks7 := [1055, 1105], reads7 := bytes [0x00, 0xE0] }

theorem answersP1_poll2 : answersP1.poll2 Cfg.cfg0 .ready :=
  ⟨by decide, by decide, 1, by decide⟩
theorem answersP1_wait3 : answersP1.wait3 Cfg.cfg0 := ⟨by decide, 0, by decide⟩
theorem witness_InitRunsToSuccess : (fresh edgeP1).accepts ∧
    (fresh edgeP1).io.ticks.given = answersP1.start2 :: answersP1.ticks2 ++
      answersP1.start3 :: answersP1.ticks3 ++ answersP1.start7 :: answersP1.ticks7 ++
      answersP1.start9 :: answersP1.ticks9 ++ [] ∧
    (fresh edgeP1).io.reads.given = answersP1.reads2 ++ answersP1.reads7 ++ answersP1.last :: [] ∧
    answersP1.poll2 Cfg.cfg0 .ready ∧ answersP1.wait3 Cfg.cfg0 ∧ answersP1.poll7 Cfg.cfg0 .ready ∧
    answersP1.wait9 Cfg.cfg0 :=
  ⟨⟨by decide, rfl⟩, rfl, rfl, answersP1_poll2, answersP1_wait3, ⟨by decide, by decide, 1, by decide⟩,
    by decide, 0, by decide⟩
theorem witness_InitTimesOutInStep2 : (fresh edgeP4).accepts ∧
    (fresh edgeP4).io.ticks.given = answersP4.start2 :: answersP4.ticks2 ++ [] ∧
    (fresh edgeP4).io.reads.given = answersP4.reads2 ++ [] ∧ answersP4.poll2 Cfg.cfg0 .timedOut :=
  ⟨⟨by decide, rfl⟩, rfl, rfl, by decide, by decide, 2, by decide⟩

/-- The answers of a run that times out in step 7. -/
def edgeI10 : Io :=
  edge [] (bytes [0x07, 0x00, 0x00, 0xE0]) [] [1000, 1001, 1002, 1003, 1004, 1005, 1055, 1105]

theorem witness_InitTimesOutInStep7 : (fresh edgeI10).accepts ∧
    (fresh edgeI10).io.ticks.given = answersI10.start2 :: answersI10.ticks2 ++
      answersI10.start3 :: answersI10.ticks3 ++ answersI10.start7 :: answersI10.ticks7 ++ [] ∧
    (fresh edgeI10).io.reads.given = answersI10.reads2 ++ answersI10.reads7 ++ [] ∧
    answersI10.poll2 Cfg.cfg0 .ready ∧ answersI10.wait3 Cfg.cfg0 ∧ answersI10.poll7 Cfg.cfg0 .timedOut :=
  ⟨⟨by decide, rfl⟩, rfl, rfl, ⟨by decide, by decide, 1, by decide⟩, ⟨by decide, 0, by decide⟩, by decide,
    by decide, 1, by decide⟩

/-- The hypotheses at the tie I4 and at the plain outcomes of one poll iteration: what the byte and the
tick read then show. -/
theorem witness_PollIteration : (inside .step2 100 (edge [] (bytes [0x00]) [] [1100])).cfg.wf = true ∧
    (inside .step2 100 (edge [] (bytes [0x00]) [] [1100])).undisturbed ∧
    (inside .step2 100 (edge [] (bytes [0x00]) [] [1100])).dly.start < 2 ^ 32 ∧
    ((0x00 : Byte) &&& 0x07 = 0 ∧ 100 ≤ (1100 + 2 ^ 32 - 1000) % 2 ^ 32) ∧
    ((0x07 : Byte) &&& 0x07 ≠ 0 ∧ ¬ 100 ≤ (1099 + 2 ^ 32 - 1000) % 2 ^ 32) ∧
    ((0xA5 : Byte) &&& 0xE0 = 0xA0 ∧ (0xE0 : Byte) &&& 0xE0 ≠ 0xA0) :=
  ⟨by decide, inside_undisturbed _ _ _, by decide⟩
theorem witness_SettleWait : (inside .step3 1 (edge [] [] [] [1001])).cfg.wf = true ∧
    (inside .step3 1 (edge [] [] [] [1001])).undisturbed ∧
    (inside .step3 1 (edge [] [] [] [1001])).dly.start < 2 ^ 32 ∧
    1 ≤ (1001 + 2 ^ 32 - 1000) % 2 ^ 32 ∧ ¬ 1 ≤ (1000 + 2 ^ 32 - 1000) % 2 ^ 32 :=
  ⟨by decide, inside_undisturbed _ _ _, by decide⟩

theorem witness_TxChecks_notReady : State.reset.accepts ∧ State.reset.status ≠ .initOk :=
  ⟨reset_accepts, by decide⟩
theorem witness_TxChecks_rejected : (ready State.reset.io).accepts ∧ (ready State.reset.io).status = .initOk ∧
    0x0002#16 ≠ 0x0000#16 ∧ ([] : List Byte).length = 0 ∧
    (ready State.reset.io).cfg.maxBuf < (List.replicate 117 0xAA#8).length :=
  ⟨ready_accepts _, rfl, by decide, rfl, by decide⟩
theorem witness_TxWritesTheFrame : (ready State.reset.io).accepts ∧
    (ready State.reset.io).status = .initOk ∧ 0xFFFF#16 ≠ 0x0000#16 ∧
    (List.replicate 116 0xAA#8).length ≠ 0 ∧
    (List.replicate 116 0xAA#8).length ≤ (ready State.reset.io).cfg.maxBuf ∧
    (ready State.reset.io).cfg.map.txFifoBase.toNat + 11 + (List.replicate 116 0xAA#8).length ≤ 1023 :=
  ⟨ready_accepts _, rfl, by decide, by decide, by decide, by decide⟩
theorem witness_TxRejected : ∃ t, exec (.tx 0x0000 none none [0xAA]) (ready State.reset.io) = .next t ∧
    t.answer ≠ some (.result .txCompleted) := ⟨_, rfl, by decide⟩
theorem witness_TxEmits : ∃ t, exec (.tx 0x0002 none none [0xAA]) (ready State.reset.io) = .next t ∧
    t.answer = some (.result .txCompleted) := ⟨_, rfl, rfl⟩
theorem witness_TxBeyond : readyShortHeader.accepts ∧ readyShortHeader.status = .initOk ∧
    0x0002#16 ≠ 0x0000#16 ∧ (List.replicate 116 0xAA#8).length ≠ 0 ∧
    (List.replicate 116 0xAA#8).length ≤ readyShortHeader.cfg.maxBuf ∧
    1023 < readyShortHeader.cfg.map.txFifoBase.toNat + 11 + (List.replicate 116 0xAA#8).length :=
  ⟨⟨by decide, rfl⟩, rfl, by decide, by decide, by decide, by decide⟩
theorem witness_Gated : State.reset.accepts ∧ State.reset.status ≠ .initOk := ⟨reset_accepts, by decide⟩

/-- A receive edge whose length byte is `flen`. -/
def rxEdge (flen : Byte) : Io := edge [] (bytes [flen]) [] []

theorem witness_RxDecodes : (ready (rxEdge 0x78)).accepts ∧ (ready (rxEdge 0x78)).status = .initOk ∧
    ((ready (rxEdge 0x78)).io.readAt 0).2.toNat = 116 + 4 ∧ 116 ≤ (ready (rxEdge 0x78)).cfg.maxBuf :=
  ⟨ready_accepts _, rfl, by decide, by decide⟩
theorem witness_RxRejects_short : (ready (rxEdge 0x03)).accepts ∧ (ready (rxEdge 0x03)).status = .initOk ∧
    ((ready (rxEdge 0x03)).io.readAt 0).2.toNat < 4 := ⟨ready_accepts _, rfl, by decide⟩
theorem witness_RxRejects_long : (ready (rxEdge 0x79)).accepts ∧ (ready (rxEdge 0x79)).status = .initOk ∧
    (ready (rxEdge 0x79)).cfg.maxBuf + 4 < ((ready (rxEdge 0x79)).io.readAt 0).2.toNat :=
  ⟨ready_accepts _, rfl, by decide⟩
theorem witness_RxPositions : Cfg.cfg0.wf = true ∧ 116 ≤ Cfg.cfg0.maxBuf ∧
    129 ∈ [0, 9, 8] ++ List.range' (Cfg.cfg0.hdrLen - 1) (116 + 4) := by decide
theorem witness_IsNew : (ready (edge [] [] [false] [])).accepts ∧
    (ready (edge [] [] [false] [])).status = .initOk := ⟨ready_accepts _, rfl⟩
theorem witness_GetLast : (ready State.reset.io).accepts ∧
    (∃ t, exec .isNew { ready State.reset.io with answer := some .okView } = .next t) ∧
    ∃ t, exec .rx { ready (rxEdge 0x03) with answer := some .okView } = .next t :=
  ⟨ready_accepts _, ⟨_, rfl⟩, _, rfl⟩
theorem witness_Discover : (ready State.reset.io).accepts ∧ (ready State.reset.io).status = .initOk :=
  ⟨ready_accepts _, rfl⟩

/-- A state in the middle of step 7 meets the invariant, and so does the ready state: both are states the
invariant says something about. -/
theorem inside_inv : Inv (inside .step7 100 (rxEdge 0xA0)) := by constructor <;> decide
theorem ready_inv : Inv (ready State.reset.io) := by constructor <;> decide
theorem witness_EveryStepKeepsTheInvariant : Inv (inside .step7 100 (rxEdge 0xA0)) ∧
    ∃ t, step (inside .step7 100 (rxEdge 0xA0)) = .next t := ⟨inside_inv, _, rfl⟩
theorem witness_EveryStepKeepsTheBrackets :
    (∀ e ∈ presented.cfg.pinPrologue, e ≠ .cs false) ∧ bracketed presented.io.calls ∧
    ∃ t, step presented = .next t := ⟨by decide, rfl, _, rfl⟩
theorem witness_OnlyInit : ∃ t, exec .rx (ready State.reset.io) = .next t ∧ Instr.rx ≠ .init :=
  ⟨_, rfl, by decide⟩
theorem witness_OperationsReturn : ∃ t, exec .rx (ready (rxEdge 0x03)) = .next t ∧
    t.resultPort = some Result.decodeError.code := ⟨_, rfl, rfl⟩
theorem witness_OperationsReturn_open : ∃ t, exec .init State.reset = .next t ∧ t.resultPort = none ∧
    t.stepReg = .step2 := ⟨_, rfl, rfl, rfl⟩
theorem witness_AddressUnits : (Instr.raSwr 0x2A 0x07).isAddressUnit = true ∧
    ∃ t, exec (.raSwr 0x2A 0x07) State.reset = .next t := ⟨rfl, _, rfl⟩
theorem witness_AccessTable : ∃ t, exec (.dlyWrite 5) State.reset = .next t := ⟨_, rfl⟩

/-- Edges that differ in the transport answers alone. -/
theorem witness_Transport : SameButOk (edge (good 2) [(true, 0x00)] [true] [7])
    (edge [false] [(false, 0x00)] [true] [7]) ∧ Instr.init.isRegAccess = false ∧
    ∃ t, exec .init (fresh (edge (good 2) [(true, 0x00)] [true] [7])) = .next t :=
  ⟨⟨rfl, rfl, rfl, rfl, rfl⟩, rfl, _, rfl⟩

/-- States that differ in the key and in the outbound frame. -/
theorem witness_KeyAndOutbound :
    SameButUnread State.reset
      { State.reset with id := { State.reset.id with key := Vector.replicate 16 0x5A }
                         txf := { State.reset.txf with len := 9 } } ∧
    ∃ t, exec .init State.reset = .next t :=
  ⟨⟨rfl, rfl, rfl, rfl, rfl, rfl, rfl, rfl, rfl, rfl, rfl, rfl, rfl⟩, _, rfl⟩

end Sys2Proof.Tests
end

section
/-! The address words and their two bytes as numbers (41_codec_regaccess.md section 3, 20_memory.md R59). -/

namespace Sys2Proof

/-- The byte that goes on the bus first, as a number. -/
theorem hi8_toNat (w : Half) : (hi8 w).toNat = w.toNat / 256 := by
  have hw : w.toNat / 256 < 256 := Nat.div_lt_of_lt_mul w.isLt
  rw [hi8, BitVec.extractLsb'_toNat, Nat.shiftRight_eq_div_pow]
  exact Nat.mod_eq_of_lt hw

/-- The byte that goes on the bus second, as a number. -/
theorem lo8_toNat (w : Half) : (lo8 w).toNat = w.toNat % 256 := by
  rw [lo8, BitVec.extractLsb'_toNat, Nat.shiftRight_zero]

theorem shortWriteWord_toNat_le (r : ShortAddr) : (shortWriteWord r).toNat ≤ 0x7F := by
  have hr : r.toNat < 64 := r.isLt
  rw [shortWriteWord_toNat]
  omega

theorem hi8_longReadWord_toNat (r : LongAddr) :
    (hi8 (longReadWord r)).toNat = 0x80 + r.toNat / 8 := by
  rw [hi8_toNat, longReadWord_toNat]
  omega

/-- Whether a long word reads or writes stands in its low byte alone. -/
theorem hi8_longWriteWord (r : LongAddr) : hi8 (longWriteWord r) = hi8 (longReadWord r) := by
  apply BitVec.eq_of_toNat_eq
  rw [hi8_toNat, hi8_toNat, longWriteWord_toNat, longReadWord_toNat]
  omega

theorem lo8_longReadWord_toNat (r : LongAddr) :
    (lo8 (longReadWord r)).toNat = 32 * (r.toNat % 8) := by
  rw [lo8_toNat, longReadWord_toNat]
  omega

theorem lo8_longWriteWord_toNat (r : LongAddr) :
    (lo8 (longWriteWord r)).toNat = 32 * (r.toNat % 8) + 16 := by
  rw [lo8_toNat, longWriteWord_toNat]
  omega

/-- Settles O4: each word is an affine function of its address, and the bytes of a long word are the
quotient and the remainder of that number by 256. -/
theorem addressWordImagesAreDisjoint : Obligations.AddressWordImagesAreDisjoint :=
  ⟨fun r => ⟨shortReadWord_toNat r, shortWriteWord_toNat r, shortWriteWord_toNat_le r⟩,
    fun r => ⟨longReadWord_toNat r, longWriteWord_toNat r, hi8_longReadWord_toNat r,
      hi8_longWriteWord r, lo8_longReadWord_toNat r, lo8_longWriteWord_toNat r⟩⟩

end Sys2Proof
end

section
/-! `DLY.INIT` and `DLY.WRITE` under a well-formed configuration (40_delay.md R111, R114). -/

namespace Sys2Proof.Machine

theorem exec_dlyInit_of_wf {d : Nat} {s : State} (hwf : s.cfg.wf = true) :
    exec (.dlyInit d) s =
      if d < 2 ^ s.cfg.tickW then .next ((s.delayInit d).give .done) else .refused .durationRange := by
  change execDlyInit d s = _
  rw [execDlyInit, unitOp_wf hwf]

theorem exec_dlyWrite_of_wf {d : Nat} {s : State} (hwf : s.cfg.wf = true) :
    exec (.dlyWrite d) s =
      if d < 2 ^ s.cfg.tickW then .next ((s.withDly { s.dly with duration := d }).give .done)
      else .refused .durationRange := by
  change execDlyWrite d s = _
  rw [execDlyWrite, unitOp_wf hwf]

/-- Settles O16: a duration in range runs `delayInit`, which takes the one tick, and the answer is given. -/
theorem delayInitCapturesTheTick : Obligations.DelayInitCapturesTheTick := by
  intro d s hwf hd
  refine ⟨?_, leBytes d s.cfg.tickBytes, rfl⟩
  rw [exec_dlyInit_of_wf hwf, if_pos hd, State.delayInit_eq]
  rfl

/-- Settles O20: a duration in range is stored in the one field `duration`, no tick is taken, and the answer
is given. -/
theorem delayWriteKeepsTheStart : Obligations.DelayWriteKeepsTheStart := by
  intro d s hwf hd
  refine ⟨?_, leBytes d s.cfg.tickBytes, rfl⟩
  rw [exec_dlyWrite_of_wf hwf, if_pos hd]
  rfl

end Sys2Proof.Machine
end

section
/-! The units `AC` and `RA` under a well-formed configuration (41_codec_regaccess.md R121 to R131). The
encoders hand back their word; a register access with a destination is one of the four transactions of
`Machine/Ops.lean`, whose edge and result `Laws/Io.lean` gives. -/

namespace Sys2Proof.Machine

/-! ### What each operation answers -/

section
variable {s : State}

theorem exec_encSr_of_wf (hwf : s.cfg.wf = true) (r : ShortAddr) :
    exec (.encSr r) s = .next (s.give (.shortWord (shortReadWord r))) := by
  simp only [exec, execEncSr, unitOp_wf hwf]

theorem exec_encSw_of_wf (hwf : s.cfg.wf = true) (r : ShortAddr) :
    exec (.encSw r) s = .next (s.give (.shortWord (shortWriteWord r))) := by
  simp only [exec, execEncSw, unitOp_wf hwf]

theorem exec_encLr_of_wf (hwf : s.cfg.wf = true) (r : LongAddr) :
    exec (.encLr r) s = .next (s.give (.longWord (longReadWord r))) := by
  simp only [exec, execEncLr, unitOp_wf hwf]

theorem exec_encLw_of_wf (hwf : s.cfg.wf = true) (r : LongAddr) :
    exec (.encLw r) s = .next (s.give (.longWord (longWriteWord r))) := by
  simp only [exec, execEncLw, unitOp_wf hwf]

theorem exec_raSwr_of_wf (hwf : s.cfg.wf = true) (a : ShortAddr) (v : Byte) :
    exec (.raSwr a v) s =
      .next ((s.withIo (s.io.shortWrite a v).2).ret (s.io.shortWrite a v).1) := by
  simp only [exec, execRaSwr, unitOp_wf hwf]

theorem exec_raLwr_of_wf (hwf : s.cfg.wf = true) (a : LongAddr) (v : Byte) :
    exec (.raLwr a v) s =
      .next ((s.withIo (s.io.longWrite a v).2).ret (s.io.longWrite a v).1) := by
  simp only [exec, execRaLwr, unitOp_wf hwf]

theorem exec_raSrd_null_of_wf (hwf : s.cfg.wf = true) (a : ShortAddr) :
    exec (.raSrd a true) s = .next (s.give (.read .invalidArg none)) := by
  simp only [exec, execRaSrd, unitOp_wf hwf, if_true]

theorem exec_raLrd_null_of_wf (hwf : s.cfg.wf = true) (a : LongAddr) :
    exec (.raLrd a true) s = .next (s.give (.read .invalidArg none)) := by
  simp only [exec, execRaLrd, unitOp_wf hwf, if_true]

theorem exec_raSrd_of_wf (hwf : s.cfg.wf = true) (a : ShortAddr) :
    exec (.raSrd a false) s =
      .next ((s.withIo (s.io.shortRead a).2).give
        (.read (s.io.shortRead a).1.1 (some (s.io.shortRead a).1.2))) := by
  simp only [exec, execRaSrd, unitOp_wf hwf, Bool.false_eq_true, if_false]

theorem exec_raLrd_of_wf (hwf : s.cfg.wf = true) (a : LongAddr) :
    exec (.raLrd a false) s =
      .next ((s.withIo (s.io.longRead a).2).give
        (.read (s.io.longRead a).1.1 (some (s.io.longRead a).1.2))) := by
  simp only [exec, execRaLrd, unitOp_wf hwf, Bool.false_eq_true, if_false]

end

/-- The result code of R131 with the two answers said as propositions. -/
theorem transferResult_eq_ite (ok1 ok2 : Bool) :
    transferResult ok1 ok2 = if ok1 = true ∧ ok2 = true then .ok else .transportFail := by
  simp only [transferResult, Bool.and_eq_true]

/-! ### The obligations -/

/-- Settles O24: of the four operations with a destination each is its transaction, whose two transfers both
take place whatever the first one answered. -/
theorem transferFailureCompletesTheCycle : Obligations.TransferFailureCompletesTheCycle := by
  intro i s hwf hreg hshort hlong
  match i, hreg with
  | .raSrd a true, _ => exact absurd rfl (hshort a)
  | .raLrd a true, _ => exact absurd rfl (hlong a)
  | .raSrd a false, _ =>
    rw [exec_raSrd_of_wf hwf, Io.shortRead_eq]
    exact ⟨_, .w1 (shortReadWord a) (s.io.okAt 0), .r1 (s.io.readAt 0).1 (s.io.readAt 0).2, _, _, rfl, rfl,
      .inl ⟨_, rfl⟩, .inr ⟨_, rfl⟩, .inl ⟨_, rfl⟩⟩
  | .raLrd a false, _ =>
    rw [exec_raLrd_of_wf hwf, Io.longRead_eq]
    exact ⟨_, .w2 (longReadWord a) (s.io.okAt 0), .r1 (s.io.readAt 0).1 (s.io.readAt 0).2, _, _, rfl, rfl,
      .inr ⟨_, rfl⟩, .inr ⟨_, rfl⟩, .inl ⟨_, rfl⟩⟩
  | .raSwr a v, _ =>
    rw [exec_raSwr_of_wf hwf, Io.shortWrite_eq]
    exact ⟨_, .w1 (shortWriteWord a) (s.io.okAt 0), .w1 v (s.io.okAt 1), _, _, rfl, rfl,
      .inl ⟨_, rfl⟩, .inl ⟨_, rfl⟩, .inr rfl⟩
  | .raLwr a v, _ =>
    rw [exec_raLwr_of_wf hwf, Io.longWrite_eq]
    exact ⟨_, .w2 (longWriteWord a) (s.io.okAt 0), .w1 v (s.io.okAt 1), _, _, rfl, rfl,
      .inr ⟨_, rfl⟩, .inl ⟨_, rfl⟩, .inr rfl⟩

/-- Settles O6: each encoder gives the word its formula defines, which is also the word it is encoded by. -/
theorem encodersAnswerTheFormulas : Obligations.EncodersAnswerTheFormulas := by
  intro s hwf
  refine ⟨fun r => ⟨shortReadWord r, ?_, rfl, shortReadWord_toNat r, rfl⟩,
    fun r => ⟨shortWriteWord r, ?_, rfl, shortWriteWord_toNat r, rfl⟩,
    fun r => ⟨longReadWord r, ?_, rfl, longReadWord_toNat r, rfl⟩,
    fun r => ⟨longWriteWord r, ?_, rfl, longWriteWord_toNat r, rfl⟩⟩
  · exact exec_encSr_of_wf hwf r
  · exact exec_encSw_of_wf hwf r
  · exact exec_encLr_of_wf hwf r
  · exact exec_encLw_of_wf hwf r

/-- Settles O22: a write is its transaction, and what it returns is the transaction's result code. -/
theorem registerWritesAreOneTransaction : Obligations.RegisterWritesAreOneTransaction := by
  intro s hwf
  refine ⟨fun a v => ⟨?_, _, rfl⟩, fun a v => ⟨?_, _, rfl⟩⟩
  · rw [exec_raSwr_of_wf hwf, Io.shortWrite_eq, transferResult_eq_ite]
    rfl
  · rw [exec_raLwr_of_wf hwf, Io.longWrite_eq, transferResult_eq_ite]
    rfl

/-- Settles O23: a read with a destination is its transaction, which delivers its byte with either result
code; a null destination is answered before any event. -/
theorem registerReadsAreOneTransaction : Obligations.RegisterReadsAreOneTransaction := by
  intro s hwf
  refine ⟨fun a => ⟨exec_raSrd_null_of_wf hwf a, ?_, fun _ => ⟨_, rfl⟩⟩,
    fun a => ⟨exec_raLrd_null_of_wf hwf a, ?_, fun _ => ⟨_, rfl⟩⟩⟩
  · rw [exec_raSrd_of_wf hwf, Io.shortRead_eq, transferResult_eq_ite]
    rfl
  · rw [exec_raLrd_of_wf hwf, Io.longRead_eq, transferResult_eq_ite]
    rfl

end Sys2Proof.Machine
end

section
/-! The setters of the unit `CS` on an accepting state (43_config.md R173 to R178). Each is `setter` with its
check and its one field; a rejecting check is read as the proposition it decides. -/

namespace Sys2Proof

theorem allZero_iff {bs : List Byte} : allZero bs = true ↔ ∀ b ∈ bs, b = 0#8 := by
  simp only [allZero, List.all_eq_true, beq_iff_eq, BitVec.ofNat_eq_ofNat]

end Sys2Proof

namespace Sys2Proof.Machine

section
variable {s : State}

/-- An accepted setter whose check turns away exactly the values with `P`: those change nothing, every other
is stored after the defaults (43_config.md R178). -/
theorem setter_accepts_unless {P : Prop} [Decidable P] {bad : State → Bool}
    {f : RadioIdentity → RadioIdentity} (h : s.accepts) (hbad : bad s = true ↔ P) :
    setter s (fun s => !bad s) f = .next (if P then { s with answer := some (.result .invalidValue) }
      else { s with id := f s.loadedId, answer := some (.result .ok) }) := by
  rw [setter_accepts h]
  by_cases hP : P
  · simp [hP, hbad.mpr hP]
  · simp [hP, Bool.eq_false_iff.mpr (mt hbad.mp hP)]

/-! ### What each setter answers -/

theorem exec_setPan_of_accepts (h : s.accepts) (pan : Half) :
    exec (.setPan pan) s = .next (if pan = s.cfg.broadcast
      then { s with answer := some (.result .invalidValue) }
      else { s with id := { s.loadedId with pan := pan }, answer := some (.result .ok) }) := by
  simp only [exec, execSetPan]
  exact setter_accepts_unless h beq_iff_eq

theorem exec_setAddr_of_accepts (h : s.accepts) (addr : Half) :
    exec (.setAddr addr) s = .next (if addr = s.cfg.broadcast
      then { s with answer := some (.result .invalidValue) }
      else { s with id := { s.loadedId with addr := addr }, answer := some (.result .ok) }) := by
  simp only [exec, execSetAddr]
  exact setter_accepts_unless h beq_iff_eq

theorem exec_setSeq_of_accepts (h : s.accepts) (seq : Byte) :
    exec (.setSeq seq) s =
      .next { s with id := { s.loadedId with seq := seq }, answer := some (.result .ok) } := by
  simp only [exec, execSetSeq, setter_accepts h, if_true]

theorem exec_setMac_of_accepts (h : s.accepts) (mac : Vector Byte 8) :
    exec (.setMac mac) s = .next (if (∀ b ∈ mac.toList, b = 0#8)
      then { s with answer := some (.result .invalidValue) }
      else { s with id := { s.loadedId with mac := mac }, answer := some (.result .ok) }) := by
  simp only [exec, execSetMac]
  exact setter_accepts_unless h allZero_iff

theorem exec_setKey_of_accepts (h : s.accepts) (key : Vector Byte 16) :
    exec (.setKey key) s = .next (if (∀ b ∈ key.toList, b = 0#8)
      then { s with answer := some (.result .invalidValue) }
      else { s with id := { s.loadedId with key := key }, answer := some (.result .ok) }) := by
  simp only [exec, execSetKey]
  exact setter_accepts_unless h allZero_iff

end

/-! ### The obligations -/

/-- Settles O27: both setters turn away the broadcast value by the same check and differ in the field they
store. -/
theorem setPanAndAddrRejectBroadcast : Obligations.SetPanAndAddrRejectBroadcast :=
  fun v _ h => ⟨exec_setPan_of_accepts h v, exec_setAddr_of_accepts h v, ⟨putHalf v, rfl⟩, putHalf v, rfl⟩

/-- Settles O28: the setter's check is always true. -/
theorem setSequenceAcceptsEveryValue : Obligations.SetSequenceAcceptsEveryValue :=
  fun v _ h => ⟨exec_setSeq_of_accepts h v, [v], rfl⟩

/-- Settles O29: both setters turn away an array by `allZero`, whatever its length. -/
theorem setMacAndKeyRejectAllZero : Obligations.SetMacAndKeyRejectAllZero :=
  ⟨fun mac _ h => ⟨exec_setMac_of_accepts h mac, mac.toList, rfl⟩,
    fun key _ h => ⟨exec_setKey_of_accepts h key, key.toList, rfl⟩⟩

end Sys2Proof.Machine
end

section
/-! `TX` on an accepting state (44_builder.md R190 to R195): the checks of R191 decide in their order, and past
them the block is `txAccepted`, whose edge is the frame's long writes and the trigger's short write. -/

namespace Sys2Proof.Machine

section
variable {s : State} {dst : Half} {dpan org : Option Half} {payload : List Byte}

/-! ### What `TX` answers -/

theorem exec_tx_of_notReady (h : s.accepts) (hr : s.status ≠ .initOk) :
    exec (.tx dst dpan org payload) s = .next (s.ret .notReady) := by
  simp only [exec, execTx, gated_notReady h hr]

/-- Past the gate: the three checks of the operands, and the model's bound on the last position [12]. -/
theorem exec_tx_of_ready (h : s.accepts) (hr : s.status = .initOk) :
    exec (.tx dst dpan org payload) s =
      if dst = 0#16 then .next (s.ret .noDest)
      else if payload.length = 0 then .next (s.ret .noPayload)
      else if s.cfg.maxBuf < payload.length then .next (s.ret .tooLong)
      else if positionOk s.cfg.map.txFifoBase (11 + payload.length) then
        .next (txAccepted s dst dpan org payload)
      else .refused .addressRange := by
  simp only [exec, execTx, gated_ready h hr]

theorem exec_tx_of_checked (h : s.accepts) (hr : s.status = .initOk) (hdst : dst ≠ 0#16)
    (hpos : payload.length ≠ 0) (hmax : payload.length ≤ s.cfg.maxBuf)
    (hfit : s.cfg.map.txFifoBase.toNat + 11 + payload.length ≤ 1023) :
    exec (.tx dst dpan org payload) s = .next (txAccepted s dst dpan org payload) := by
  have hok : positionOk s.cfg.map.txFifoBase (11 + payload.length) = true := by
    rwa [positionOk, decide_eq_true_iff, ← Nat.add_assoc]
  rw [exec_tx_of_ready h hr, if_neg hdst, if_neg hpos, if_neg (Nat.not_lt.mpr hmax), if_pos hok]

/-- A `TX` that answers without completing writes its result alone (44_builder.md R191). -/
theorem exec_tx_incomplete {t : State} (h : exec (.tx dst dpan org payload) s = .next t)
    (ht : t.answer ≠ some (.result .txCompleted)) : ∃ r, t = s.ret r := by
  obtain ⟨-, ⟨r, -, hret⟩ | ⟨-, -, -, -, -, rfl⟩⟩ := execTx_next h
  · exact ⟨r, hret⟩
  · exact absurd rfl ht

end

/-! ### What an accepted `TX` emits -/

/-- Bytes written at consecutive positions of a FIFO from its base, each with its index (20_memory.md R50). -/
theorem longWritesCalls_atPositions (base : LongAddr) (bs : List Byte) :
    longWritesCalls (atPositions base 0 bs) =
      bs.zipIdx.flatMap fun b => longWriteCalls (BitVec.ofNat 10 (base.toNat + b.2)) b.1 := by
  rw [longWritesCalls, atPositions_eq, List.flatMap_map]
  rfl

theorem txAccepted_calls (s : State) (dst : Half) (dpan org : Option Half) (payload : List Byte) :
    (txAccepted s dst dpan org payload).io.calls = s.io.calls ++
      ((s.txFrame dst dpan org payload).zipIdx.flatMap fun b =>
        longWriteCalls (BitVec.ofNat 10 (s.cfg.map.txFifoBase.toNat + b.2)) b.1) ++
      shortWriteCalls s.cfg.map.regTxnCon s.cfg.map.txnConTrigAck := by
  rw [txAccepted_eq, Io.sWrite_calls, Io.lWrites_calls, longWritesCalls_atPositions]

/-- An accepted `TX` takes no answer but the transfers' own (44_builder.md R193, R194). -/
theorem txAccepted_feeds (s : State) (dst : Half) (dpan org : Option Half) (payload : List Byte) :
    (txAccepted s dst dpan org payload).io.reads = s.io.reads ∧
      (txAccepted s dst dpan org payload).io.pins = s.io.pins ∧
      (txAccepted s dst dpan org payload).io.ticks = s.io.ticks := by
  simp only [txAccepted_eq, Io.sWrite_reads, Io.sWrite_pins, Io.sWrite_ticks, Io.lWrites_reads,
    Io.lWrites_pins, Io.lWrites_ticks, and_self]

/-! ### The obligations -/

/-- Settles O38: a `TX` past its checks is `txAccepted`, whose calls are those of its frame and the trigger;
one that does not complete writes its answer alone. -/
theorem txWritesTheFrame : Obligations.TxWritesTheFrame := by
  refine ⟨fun dst dpan org payload s h hr hdst hpos hmax hfit => ?_, fun dst dpan org payload s t ht hn => ?_⟩
  · obtain ⟨hreads, hpins, hticks⟩ := txAccepted_feeds s dst dpan org payload
    exact ⟨(txAccepted s dst dpan org payload).io, exec_tx_of_checked h hr hdst hpos hmax hfit,
      hreads, hpins, hticks, txAccepted_calls s dst dpan org payload, _, rfl⟩
  · obtain ⟨r, rfl⟩ := exec_tx_incomplete ht hn
    exact ⟨rfl, rfl, rfl⟩

/-- Settles O37: the gate and then the chain of checks, each clause one of its branches. -/
theorem txChecksInOrder : Obligations.TxChecksInOrder := by
  intro dst dpan org payload s h
  refine ⟨exec_tx_of_notReady h, fun hr hdst => ?_, fun hr hdst hpos => ?_, fun hr hdst hpos hlong => ?_,
    fun hr hdst hpos hmax hfit => ⟨_, exec_tx_of_checked h hr hdst hpos hmax hfit, rfl⟩⟩
  · rw [exec_tx_of_ready h hr, if_pos hdst]
    rfl
  · rw [exec_tx_of_ready h hr, if_neg hdst, if_pos hpos]
    rfl
  · rw [exec_tx_of_ready h hr, if_neg hdst, if_neg hpos, if_pos hlong]
    rfl

end Sys2Proof.Machine
end

section
/-! The shut gate (60_exceptions.md R232) at the commands that stand behind it: `RX`, `ISNEW` and `DISCOVER`
(45_parser.md R200, R202, R211) as at `TX` (44_builder.md R191). Each meaning is a body under `gated`, so
`gated_notReady` answers for it before its body takes a pin or a register. -/

namespace Sys2Proof.Machine

section
variable {s : State}

theorem exec_rx_of_notReady (h : s.accepts) (hr : s.status ≠ .initOk) :
    exec .rx s = .next (s.ret .notReady) := by
  simp only [exec, execRx, gated_notReady h hr]

theorem exec_isNew_of_notReady (h : s.accepts) (hr : s.status ≠ .initOk) :
    exec .isNew s = .next (s.ret .notReady) := by
  simp only [exec, execIsNew, gated_notReady h hr]

theorem exec_discover_of_notReady (h : s.accepts) (hr : s.status ≠ .initOk) :
    exec .discover s = .next (s.ret .notReady) := by
  simp only [exec, execDiscover, gated_notReady h hr]

end

/-- Settles O41: each of the four commands meets the shut gate, and returning a result writes the answer
alone. -/
theorem gatedCommandsAnswerNotReady : Obligations.GatedCommandsAnswerNotReady :=
  fun _ h hr => ⟨exec_rx_of_notReady h hr, exec_isNew_of_notReady h hr, exec_discover_of_notReady h hr,
    fun _ _ _ _ => exec_tx_of_notReady h hr⟩

end Sys2Proof.Machine
end

section
/-! Address words as numbers (30_encoding.md R81 to R87): `DEC` reads the quotients and the parity of a word's
number, so that it inverts the encoders, whose words are affine in the address, is arithmetic. -/

namespace Sys2Proof

theorem decShort_eq (b : Byte) :
    decShort b = if b.toNat < 128 then some (BitVec.ofNat 6 (b.toNat / 2), decide (b.toNat % 2 = 1))
      else none := by
  have hb := b.isLt
  have hr : b.extractLsb' 1 6 = BitVec.ofNat 6 (b.toNat / 2) := by
    apply BitVec.eq_of_toNat_eq
    rw [BitVec.extractLsb'_toNat, BitVec.toNat_ofNat, Nat.shiftRight_eq_div_pow, Nat.pow_one]
  have h7 : b.getLsbD 7 = decide (¬ b.toNat < 128) := by
    rw [BitVec.getLsbD, Nat.testBit_eq_decide_div_mod_eq, decide_eq_decide]
    omega
  have h0 : b.getLsbD 0 = decide (b.toNat % 2 = 1) := by
    rw [BitVec.getLsbD, Nat.testBit_eq_decide_div_mod_eq, Nat.pow_zero, Nat.div_one]
  rw [decShort, hr, h7, h0]
  by_cases h : b.toNat < 128 <;> simp only [h, decide_not, decide_true, decide_false, Bool.not_true,
    Bool.not_false, Bool.false_eq_true, if_true, if_false]

/-- `DEC.L` by a word's number without its low four bits. -/
theorem decLong_eq (w : Half) :
    decLong w = if 0x800 ≤ w.toNat / 16
      then some (BitVec.ofNat 10 (w.toNat / 16 / 2), decide (w.toNat / 16 % 2 = 1)) else none := by
  have hw := w.isLt
  have hr : w.extractLsb' 5 10 = BitVec.ofNat 10 (w.toNat / 16 / 2) := by
    apply BitVec.eq_of_toNat_eq
    rw [BitVec.extractLsb'_toNat, BitVec.toNat_ofNat, Nat.shiftRight_eq_div_pow, Nat.div_div_eq_div_mul]
  have h15 : w.getLsbD 15 = decide (0x800 ≤ w.toNat / 16) := by
    rw [BitVec.getLsbD, Nat.testBit_eq_decide_div_mod_eq, decide_eq_decide]
    omega
  have h4 : w.getLsbD 4 = decide (w.toNat / 16 % 2 = 1) := by
    rw [BitVec.getLsbD, Nat.testBit_eq_decide_div_mod_eq]
  simp only [decLong, hr, h15, h4, decide_eq_true_eq]

@[simp] theorem decShort_shortReadWord (r : ShortAddr) : decShort (shortReadWord r) = some (r, false) := by
  have hr := r.isLt
  rw [decShort_eq, shortReadWord_toNat, if_pos (by omega), Nat.mul_div_cancel_left _ (by omega),
    Nat.mul_mod_right, BitVec.ofNat_toNat, BitVec.setWidth_eq]
  rfl

@[simp] theorem decShort_shortWriteWord (r : ShortAddr) : decShort (shortWriteWord r) = some (r, true) := by
  have hr := r.isLt
  have hq : (2 * r.toNat + 1) / 2 = r.toNat := by omega
  have hp : (2 * r.toNat + 1) % 2 = 1 := by omega
  rw [decShort_eq, shortWriteWord_toNat, if_pos (by omega), hq, hp, BitVec.ofNat_toNat, BitVec.setWidth_eq]
  rfl

@[simp] theorem decLong_longReadWord (r : LongAddr) : decLong (longReadWord r) = some (r, false) := by
  have hq : (0x8000 + 32 * r.toNat) / 16 = 0x800 + 2 * r.toNat := by omega
  have hr : BitVec.ofNat 10 ((0x800 + 2 * r.toNat) / 2) = r := by
    apply BitVec.eq_of_toNat_eq
    rw [BitVec.toNat_ofNat]
    omega
  have hp : (0x800 + 2 * r.toNat) % 2 = 0 := by omega
  rw [decLong_eq, longReadWord_toNat, hq, if_pos (by omega), hr, hp]
  rfl

@[simp] theorem decLong_longWriteWord (r : LongAddr) : decLong (longWriteWord r) = some (r, true) := by
  have hq : (0x8010 + 32 * r.toNat) / 16 = 0x801 + 2 * r.toNat := by omega
  have hr : BitVec.ofNat 10 ((0x801 + 2 * r.toNat) / 2) = r := by
    apply BitVec.eq_of_toNat_eq
    rw [BitVec.toNat_ofNat]
    omega
  have hp : (0x801 + 2 * r.toNat) % 2 = 1 := by omega
  rw [decLong_eq, longWriteWord_toNat, hq, if_pos (by omega), hr, hp]
  rfl

/-- A short byte that `DEC.S` accepts is the encoder's word of what it decodes to. -/
theorem decShort_encodes {b : Byte} {r : ShortAddr} {write : Bool} (h : decShort b = some (r, write)) :
    (if write then shortWriteWord r else shortReadWord r) = b := by
  rw [decShort_eq, Option.ite_none_right_eq_some] at h
  obtain ⟨hb, h⟩ := h
  obtain ⟨rfl, rfl⟩ := Prod.mk.inj (Option.some.inj h)
  by_cases hp : b.toNat % 2 = 1 <;> simp only [hp, decide_true, decide_false, Bool.false_eq_true, if_true,
    if_false] <;> apply BitVec.eq_of_toNat_eq
  · rw [shortWriteWord_toNat, BitVec.toNat_ofNat]
    omega
  · rw [shortReadWord_toNat, BitVec.toNat_ofNat]
    omega

/-- A long word with its low four bits zero that `DEC.L` accepts is the encoder's word of what it decodes
to. -/
theorem decLong_encodes {w : Half} {r : LongAddr} {write : Bool} (h0 : w.extractLsb' 0 4 = 0#4)
    (h : decLong w = some (r, write)) : (if write then longWriteWord r else longReadWord r) = w := by
  have hw := w.isLt
  have h0 : w.toNat % 16 = 0 := by
    simpa [BitVec.extractLsb'_toNat] using congrArg BitVec.toNat h0
  rw [decLong_eq, Option.ite_none_right_eq_some] at h
  obtain ⟨hb, h⟩ := h
  obtain ⟨rfl, rfl⟩ := Prod.mk.inj (Option.some.inj h)
  by_cases hp : w.toNat / 16 % 2 = 1 <;> simp only [hp, decide_true, decide_false, Bool.false_eq_true,
    if_true, if_false] <;> apply BitVec.eq_of_toNat_eq
  · rw [longWriteWord_toNat, BitVec.toNat_ofNat]
    omega
  · rw [longReadWord_toNat, BitVec.toNat_ofNat]
    omega

/-- Settles O3: a word's number is affine in the address, and `DEC` reads the address and the direction back
off it; of a long word it reads the number without the low four bits. -/
theorem addressWordsDecodeBack : Obligations.AddressWordsDecodeBack := by
  refine ⟨fun r => ⟨decShort_shortWriteWord r, decShort_shortReadWord r⟩,
    fun r => ⟨decLong_longWriteWord r, decLong_longReadWord r⟩, fun b => ?_, fun w h0 => ?_,
    fun w w' h => ?_⟩
  · rcases hd : decShort b with _ | ⟨r, write⟩
    · exact .inl rfl
    · have he := decShort_encodes hd
      cases write
      · exact .inr ⟨r, .inr ⟨rfl, he⟩⟩
      · exact .inr ⟨r, .inl ⟨rfl, he⟩⟩
  · rcases hd : decLong w with _ | ⟨r, write⟩
    · exact .inl rfl
    · have he := decLong_encodes h0 hd
      cases write
      · exact .inr ⟨r, .inr ⟨rfl, he⟩⟩
      · exact .inr ⟨r, .inl ⟨rfl, he⟩⟩
  · have hn : w.toNat / 16 = w'.toNat / 16 := by
      simpa [Nat.shiftRight_eq_div_pow] using congrArg BitVec.toNat h
    rw [decLong_eq, decLong_eq, hn]

end Sys2Proof
end

section
/-! The operand lanes read back what was put on them (30_encoding.md R96, R97, R99), and so the decoder gives
back every well-formed operation. -/

namespace Sys2Proof

/-! ### Each operand -/

@[simp] theorem takeByte_cons (b : Byte) (rest : List Byte) : takeByte (b :: rest) = .ok (b, rest) := rfl

@[simp] theorem takeHalf_putHalf (h : Half) (rest : List Byte) :
    takeHalf (putHalf h ++ rest) = .ok (h, rest) := by
  simp only [putHalf, List.cons_append, List.nil_append, takeHalf, joinBytes_hi8_lo8]

@[simp] theorem takeFlag_putFlag (b : Bool) (rest : List Byte) :
    takeFlag (putFlag b ++ rest) = .ok (b, rest) := by
  cases b <;> rfl

@[simp] theorem takeOptHalf_putOptHalf (o : Option Half) (rest : List Byte) :
    takeOptHalf (putOptHalf o ++ rest) = .ok (o, rest) := by
  cases o with
  | none => rfl
  | some h =>
    have hf : takeFlag (putOptHalf (some h) ++ rest) = .ok (true, putHalf h ++ rest) := rfl
    simp only [takeOptHalf, hf, takeHalf_putHalf, if_true]

@[simp] theorem takeArray_toList {n : Nat} (v : Vector Byte n) : takeArray n v.toList = .ok (v, []) := by
  have hn : v.toList.length = n := Vector.length_toList
  rw [takeArray, dif_pos hn.ge, List.drop_of_length_le hn.le]
  congr 2
  rw [← Vector.toList_inj, Vector.toList_mk, List.take_of_length_le hn.le]

@[simp] theorem takeShortAddr_setWidth (a : ShortAddr) (rest : List Byte) :
    takeShortAddr (a.setWidth 8 :: rest) = .ok (a, rest) := by
  have ha : (a.setWidth 8).toNat ≤ 63 := by
    have := a.isLt
    rw [BitVec.toNat_setWidth]
    omega
  simp only [takeShortAddr, takeByte_cons, if_pos ha, BitVec.setWidth_setWidth_of_le a (by omega : 6 ≤ 8),
    BitVec.setWidth_eq]

@[simp] theorem takeLongAddr_putHalf (a : LongAddr) (rest : List Byte) :
    takeLongAddr (putHalf (a.setWidth 16) ++ rest) = .ok (a, rest) := by
  have ha : (a.setWidth 16).toNat ≤ 1023 := by
    have := a.isLt
    rw [BitVec.toNat_setWidth]
    omega
  simp only [takeLongAddr, takeHalf_putHalf, if_pos ha,
    BitVec.setWidth_setWidth_of_le a (by omega : 10 ≤ 16), BitVec.setWidth_eq]

theorem takeDuration_leBytes {c : Cfg} {d : Nat} (h : d < 2 ^ c.tickW) :
    takeDuration c (leBytes d c.tickBytes) = .ok d := by
  have hlen : (leBytes d c.tickBytes).length ≤ c.tickBytes := (leBytes_length d c.tickBytes).le
  have hd : leNat ((leBytes d c.tickBytes).take c.tickBytes) = d := by
    rw [List.take_of_length_le hlen, leNat_leBytes, Nat.mod_eq_of_lt (lt_tickBytes c h)]
  rw [takeDuration, if_pos (leBytes_length d c.tickBytes).ge, hd, if_pos h]

theorem takeTx_put (dst : Half) (dpan org : Option Half) {payload : List Byte} (h : payload.length < 256) :
    takeTx (putHalf dst ++ putOptHalf dpan ++ putOptHalf org ++
      BitVec.ofNat 8 payload.length :: payload) = .ok (.tx dst dpan org payload) := by
  have hlen : (BitVec.ofNat 8 payload.length).toNat = payload.length := by
    rw [BitVec.toNat_ofNat, Nat.mod_eq_of_lt h]
  simp only [takeTx, List.append_assoc, takeHalf_putHalf, takeOptHalf_putOptHalf, takeByte_cons, hlen,
    le_refl, if_true, List.take_length]

/-- An `RA` read whose address is read off its lanes, the flag left behind it. -/
theorem takeRead_of_take {α : Type} {take : List Byte → Except DecodeError (α × List Byte)} {bs : List Byte}
    {a : α} {null : Bool} (mk : α → Bool → Instr) (h : take bs = .ok (a, putFlag null)) :
    takeRead take mk bs = .ok (mk a null) := by
  rw [takeRead, h]
  cases null <;> rfl

/-- An `RA` write whose address is read off its lanes, the byte left behind it. -/
theorem takeWrite_of_take {α : Type} {take : List Byte → Except DecodeError (α × List Byte)} {bs : List Byte}
    {a : α} {v : Byte} (mk : α → Byte → Instr) (h : take bs = .ok (a, [v])) :
    takeWrite take mk bs = .ok (mk a v) := by
  rw [takeWrite, h]
  rfl

/-! ### The obligations -/

/-- Settles O1: at every port the operand lanes read back what was put on them, and on the bus `DEC` inverts
`ENC`. -/
theorem decodeOfEncodeIsTheInstruction : Obligations.DecodeOfEncodeIsTheInstruction := by
  intro c i hwf
  cases i with
  | init | isNew | rx | getLast | discover | dlyRead | dlyReset => rfl
  | setCh | setSeq => rfl
  | setPan v => exact congrArg (Except.map fun p => Instr.setPan p.1) (takeHalf_putHalf v [])
  | setAddr v => exact congrArg (Except.map fun p => Instr.setAddr p.1) (takeHalf_putHalf v [])
  | setMac mac => exact congrArg (Except.map fun p => Instr.setMac p.1) (takeArray_toList mac)
  | setKey key => exact congrArg (Except.map fun p => Instr.setKey p.1) (takeArray_toList key)
  | tx dst dpan org payload => exact takeTx_put dst dpan org (of_decide_eq_true hwf)
  | dlyInit d => exact congrArg (Except.map Instr.dlyInit) (takeDuration_leBytes (of_decide_eq_true hwf))
  | dlyWrite d => exact congrArg (Except.map Instr.dlyWrite) (takeDuration_leBytes (of_decide_eq_true hwf))
  | encSr r => simp [encode, decode, decodeBus]
  | encSw r => simp [encode, decode, decodeBus]
  | encLr r => simp [encode, decode, decodeBus]
  | encLw r => simp [encode, decode, decodeBus]
  | raSrd a null => exact takeRead_of_take .raSrd (takeShortAddr_setWidth a (putFlag null))
  | raSwr a v => exact takeWrite_of_take .raSwr (takeShortAddr_setWidth a [v])
  | raLrd a null => exact takeRead_of_take .raLrd (takeLongAddr_putHalf a (putFlag null))
  | raLwr a v => exact takeWrite_of_take .raLwr (takeLongAddr_putHalf a [v])

theorem exists_of_map_eq_ok {ε α β : Type} {f : α → β} {x : Except ε α} {b : β} (h : x.map f = .ok b) :
    ∃ a, b = f a := by
  cases x with
  | error e => cases h
  | ok a => exact ⟨a, (Except.ok.inj h).symm⟩

/-- Whatever a word at `AC`'s select decodes to is the encoder of the select's code. -/
theorem decodeAc_ok {sel : BitVec 2} {bs : List Byte} {i : Instr} (h : decodeAc sel bs = .ok i) :
    (∃ r, i = .encSr r ∧ sel = 0#2) ∨ (∃ r, i = .encSw r ∧ sel = 1#2) ∨
      (∃ l, i = .encLr l ∧ sel = 2#2) ∨ ∃ l, i = .encLw l ∧ sel = 3#2 := by
  obtain rfl | rfl | rfl | rfl : sel = 0#2 ∨ sel = 1#2 ∨ sel = 2#2 ∨ sel = 3#2 := by
    bv_omega
  · obtain ⟨p, rfl⟩ := exists_of_map_eq_ok (f := fun p : ShortAddr × List Byte => Instr.encSr p.1) h
    exact .inl ⟨p.1, rfl, rfl⟩
  · obtain ⟨p, rfl⟩ := exists_of_map_eq_ok (f := fun p : ShortAddr × List Byte => Instr.encSw p.1) h
    exact .inr (.inl ⟨p.1, rfl, rfl⟩)
  · obtain ⟨p, rfl⟩ := exists_of_map_eq_ok (f := fun p : LongAddr × List Byte => Instr.encLr p.1) h
    exact .inr (.inr (.inl ⟨p.1, rfl, rfl⟩))
  · obtain ⟨p, rfl⟩ := exists_of_map_eq_ok (f := fun p : LongAddr × List Byte => Instr.encLw p.1) h
    exact .inr (.inr (.inr ⟨p.1, rfl, rfl⟩))

/-- Settles O2: the address lanes of the select read back, and each of the four select codes decodes, if it
does, to its own encoder. -/
theorem acSelectNamesTheEncoders : Obligations.AcSelectNamesTheEncoders := by
  refine ⟨fun c i w h => ?_, fun c sel bs i h => ?_⟩
  · cases i with
    | encSr r =>
      cases h
      exact congrArg (Except.map fun p => Instr.encSr p.1) (takeShortAddr_setWidth r [])
    | encSw r =>
      cases h
      exact congrArg (Except.map fun p => Instr.encSw p.1) (takeShortAddr_setWidth r [])
    | encLr r =>
      cases h
      exact congrArg (Except.map fun p => Instr.encLr p.1) (takeLongAddr_putHalf r [])
    | encLw r =>
      cases h
      exact congrArg (Except.map fun p => Instr.encLw p.1) (takeLongAddr_putHalf r [])
    | _ => cases h
  · obtain ⟨r, hr⟩ | ⟨r, hr⟩ | ⟨l, hl⟩ | ⟨l, hl⟩ := decodeAc_ok h
    · exact ⟨r, .inl hr⟩
    · exact ⟨r, .inr (.inl hr)⟩
    · exact ⟨0#6, .inr (.inr ⟨l, .inl hl⟩)⟩
    · exact ⟨0#6, .inr (.inr ⟨l, .inr hl⟩)⟩

/-- Settles O5: each word is run through the decoder. -/
theorem sampleWordsDecode : Obligations.SampleWordsDecode := by
  unfold Obligations.SampleWordsDecode
  decide

/-! ### The rejections: no operand is rejected as a reserved command -/

/-- An operand's error handed on is not `reservedCommand` if the operand is not rejected so. -/
theorem error_ne_reserved {α β : Type} {x : Except DecodeError α} {e : DecodeError}
    (hx : x ≠ .error .reservedCommand) (he : x = .error e) :
    (.error e : Except DecodeError β) ≠ .error .reservedCommand :=
  fun h => hx (he.trans (congrArg Except.error (Except.error.inj h)))

theorem map_ne_reserved {α β : Type} {x : Except DecodeError α} (f : α → β)
    (hx : x ≠ .error .reservedCommand) : x.map f ≠ .error .reservedCommand := by
  cases x with
  | error e => exact error_ne_reserved hx rfl
  | ok a => exact fun h => by cases h

theorem takeByte_ne_reserved (bs : List Byte) : takeByte bs ≠ .error .reservedCommand := by
  rcases bs with _ | ⟨b, bs⟩ <;> exact fun h => by cases h

theorem takeHalf_ne_reserved (bs : List Byte) : takeHalf bs ≠ .error .reservedCommand := by
  rcases bs with _ | ⟨lo, _ | ⟨hi, bs⟩⟩ <;> exact fun h => by cases h

theorem takeFlag_ne_reserved (bs : List Byte) : takeFlag bs ≠ .error .reservedCommand := by
  rcases bs with _ | ⟨b, bs⟩
  · exact fun h => by cases h
  · rw [takeFlag]
    split
    · exact fun h => by cases h
    · split <;> exact fun h => by cases h

theorem takeOptHalf_ne_reserved (bs : List Byte) : takeOptHalf bs ≠ .error .reservedCommand := by
  rw [takeOptHalf]
  split
  · exact error_ne_reserved (takeFlag_ne_reserved bs) ‹_›
  · split
    · exact error_ne_reserved (takeHalf_ne_reserved _) ‹_›
    · exact fun h => by cases h

theorem takeArray_ne_reserved (n : Nat) (bs : List Byte) : takeArray n bs ≠ .error .reservedCommand := by
  rw [takeArray]
  split <;> exact fun h => by cases h

theorem takeTx_ne_reserved (bs : List Byte) : takeTx bs ≠ .error .reservedCommand := by
  rw [takeTx]
  split
  · exact error_ne_reserved (takeHalf_ne_reserved _) ‹_›
  split
  · exact error_ne_reserved (takeOptHalf_ne_reserved _) ‹_›
  split
  · exact error_ne_reserved (takeOptHalf_ne_reserved _) ‹_›
  split
  · exact error_ne_reserved (takeByte_ne_reserved _) ‹_›
  split <;> exact fun h => by cases h

/-- Settles O9: the twelve codes of commands reject an operand at most, under another name; the four codes
left are those of the last arm. -/
theorem reservedCommandsAreRejected : Obligations.ReservedCommandsAreRejected := by
  intro c cmd bs
  change decodeHost cmd bs = _ ↔ _
  unfold decodeHost
  split
  case h_2 | h_5 => exact iff_of_false (map_ne_reserved _ (takeByte_ne_reserved bs)) (by bv_omega)
  case h_3 | h_4 => exact iff_of_false (map_ne_reserved _ (takeHalf_ne_reserved bs)) (by bv_omega)
  case h_6 | h_7 => exact iff_of_false (map_ne_reserved _ (takeArray_ne_reserved _ bs)) (by bv_omega)
  case h_8 => exact iff_of_false (takeTx_ne_reserved bs) (by bv_omega)
  case h_13 => exact iff_of_true rfl (by revert cmd; decide)
  all_goals exact iff_of_false (fun h => by cases h) (by bv_omega)

end Sys2Proof
end

section
/-! The bus across an operation (20_memory.md R57, R58): every operation adds whole transactions and single
events between them to the trace. `Io.Grows` says it of two edges; each operation on the edge keeps it. -/

namespace Sys2Proof.Machine

/-- The edge `io'` is `io` with whole transactions, and events between them, added to its trace. -/
def Io.Grows (io io' : Io) : Prop :=
  ∃ more, io'.trace = io.trace ++ more ∧ bracketed (more.map Event.call)

section
variable {io io' : Io}

theorem Io.Grows.refl (io : Io) : io.Grows io := ⟨[], (List.append_nil _).symm, rfl⟩

/-- Events added to the trace, given by the list that is added. -/
theorem Io.Grows.add {io'' : Io} (h : io.Grows io') (more : List Event)
    (ht : io''.trace = io'.trace ++ more) (hb : bracketed (more.map Event.call)) : io.Grows io'' := by
  obtain ⟨first, hfirst, hb'⟩ := h
  refine ⟨first ++ more, by rw [ht, hfirst, List.append_assoc], ?_⟩
  rw [List.map_append]
  exact bracketed_append hb' hb

theorem Io.Grows.trans {io'' : Io} (h : io.Grows io') (h' : io'.Grows io'') : io.Grows io'' := by
  obtain ⟨more, ht, hb⟩ := h'
  exact h.add more ht hb

theorem Io.Grows.bracketed_calls (h : io.Grows io') (hb : bracketed io.calls) : bracketed io'.calls := by
  obtain ⟨more, ht, hm⟩ := h
  rw [Io.calls, ht, List.map_append]
  exact bracketed_append hb hm

/-! ### Each operation on the edge -/

theorem Io.Grows.now (h : io.Grows io') (w : Nat) : io.Grows (io'.now w).2 :=
  h.add [.now (io'.tickAt w 0)] (by rw [Io.now_eq]) rfl

theorem Io.Grows.int (h : io.Grows io') : io.Grows io'.int.2 :=
  h.add [.int (io'.pinAt 0)] (by rw [Io.int_eq]) rfl

theorem Io.Grows.shortWrite (h : io.Grows io') (a : ShortAddr) (v : Byte) :
    io.Grows (io'.shortWrite a v).2 :=
  h.add [.cs false, .w1 (shortWriteWord a) (io'.okAt 0), .w1 v (io'.okAt 1), .cs true]
    (by rw [Io.shortWrite_eq]) rfl

theorem Io.Grows.longWrite (h : io.Grows io') (a : LongAddr) (v : Byte) : io.Grows (io'.longWrite a v).2 :=
  h.add [.cs false, .w2 (longWriteWord a) (io'.okAt 0), .w1 v (io'.okAt 1), .cs true]
    (by rw [Io.longWrite_eq]) rfl

theorem Io.Grows.shortRead (h : io.Grows io') (a : ShortAddr) : io.Grows (io'.shortRead a).2 :=
  h.add [.cs false, .w1 (shortReadWord a) (io'.okAt 0), .r1 (io'.readAt 0).1 (io'.readAt 0).2, .cs true]
    (by rw [Io.shortRead_eq]) rfl

theorem Io.Grows.longRead (h : io.Grows io') (a : LongAddr) : io.Grows (io'.longRead a).2 :=
  h.add [.cs false, .w2 (longReadWord a) (io'.okAt 0), .r1 (io'.readAt 0).1 (io'.readAt 0).2, .cs true]
    (by rw [Io.longRead_eq]) rfl

theorem Io.Grows.sWrite (h : io.Grows io') (a : ShortAddr) (v : Byte) : io.Grows (io'.sWrite a v) :=
  h.shortWrite a v
theorem Io.Grows.lWrite (h : io.Grows io') (a : LongAddr) (v : Byte) : io.Grows (io'.lWrite a v) :=
  h.longWrite a v
theorem Io.Grows.sRead (h : io.Grows io') (a : ShortAddr) : io.Grows (io'.sRead a).2 := h.shortRead a
theorem Io.Grows.lRead (h : io.Grows io') (a : LongAddr) : io.Grows (io'.lRead a).2 := h.longRead a

theorem Io.Grows.sWrites (h : io.Grows io') (ws : List (ShortAddr × Byte)) : io.Grows (io'.sWrites ws) := by
  induction ws generalizing io' with
  | nil => exact h
  | cons w ws ih => exact ih (h.sWrite w.1 w.2)

theorem Io.Grows.lWrites (h : io.Grows io') (ws : List (LongAddr × Byte)) : io.Grows (io'.lWrites ws) := by
  induction ws generalizing io' with
  | nil => exact h
  | cons w ws ih => exact ih (h.lWrite w.1 w.2)

theorem Io.Grows.lReads (h : io.Grows io') (as : List LongAddr) : io.Grows (io'.lReads as).2 := by
  induction as generalizing io' with
  | nil => exact h
  | cons a as ih => exact ih (h.lRead a)

/-- A pin prologue that does not select the transceiver opens no transaction (42_init.md R143). -/
theorem Io.Grows.pinEvents {es : List PinEvent} (hes : ∀ e ∈ es, e ≠ .cs false) (h : io.Grows io') :
    io.Grows (es.foldl (fun io e => io.emit (PinEvent.event e)) io') := by
  induction es generalizing io' with
  | nil => exact h
  | cons e es ih =>
    refine ih (fun e' he' => hes e' (List.mem_cons_of_mem e he')) (h.add [PinEvent.event e] rfl ?_)
    have he := hes e List.mem_cons_self
    rcases e with (_ | _) | _ | _
    · exact absurd rfl he
    all_goals rfl

/-! ### Receiving and sending -/

theorem Io.Grows.rxHeader {s : State} (h : io.Grows s.io) : io.Grows (rxHeader s) :=
  (((h.sWrites _).lRead _).lRead _).lRead _

theorem Io.Grows.rxEpilogue (h : io.Grows io') (c : Cfg) : io.Grows (rxEpilogue c io') :=
  (h.sWrite _ _).sRead _

theorem Io.Grows.rxPayload (h : io.Grows io') (c : Cfg) (n : Nat) : io.Grows (rxPayload c n io').2 := by
  unfold Machine.rxPayload
  split
  · exact (h.lReads _).lReads _
  · exact h.lReads _

end

theorem rxRun_grows (s : State) : s.io.Grows (rxRun s).io := by
  have hh := (Io.Grows.refl s.io).rxHeader
  cases hb : badLength s.cfg (s.io.readAt 0).2
  · rw [rxRun_good hb]
    exact (hh.rxPayload _ _).rxEpilogue _
  · rw [rxRun_bad hb]
    exact hh.rxEpilogue _

theorem txAccepted_grows (s : State) (dst : Half) (dpan org : Option Half) (payload : List Byte) :
    s.io.Grows (txAccepted s dst dpan org payload).io :=
  ((Io.Grows.refl s.io).lWrites _).sWrite _ _

/-! ### The sequencer -/

section
variable {io : Io} {s : State}

theorem initStep2_grows (h : io.Grows s.io) : io.Grows (initStep2 (initStep1 s)).io :=
  (h.sWrite _ _).now _

theorem initStep7_grows (h : io.Grows s.io) : io.Grows (initStep7 (initStep6 s)).io :=
  ((h.lWrites _).sWrites _).now _

theorem initFrom4_grows (h : io.Grows s.io) : io.Grows (initFrom4 s).io :=
  initStep7_grows ((h.sWrites _).sWrites _)

theorem initStep9_grows (h : io.Grows s.io) : io.Grows (initStep9 (initStep8 s)).io :=
  (((h.sWrites _).lWrite _ _).sWrites _).now _

theorem initStep11_grows (h : io.Grows s.io) : io.Grows (initStep11 s).io := h.sRead _

theorem pollIteration_grows {read : Io → Byte × Io} {cond : Byte → Bool} {onReady : State → State}
    (hread : s.io.Grows (read s.io).2) (hon : ∀ u, s.io.Grows u.io → s.io.Grows (onReady u).io) :
    s.io.Grows (pollIteration read cond onReady s).io := by
  have hcheck : s.io.Grows (s.withIo (read s.io).2).delayRead.2.io := hread.now _
  rcases pollIteration_cases read cond onReady s with ⟨-, h⟩ | ⟨-, h⟩ | ⟨-, h⟩ <;> rw [h]
  · exact hon _ hcheck
  · exact hcheck
  · exact hcheck

theorem waitIteration_grows {onExpired : State → State}
    (hon : ∀ u, s.io.Grows u.io → s.io.Grows (onExpired u).io) :
    s.io.Grows (waitIteration onExpired s).io := by
  have hcheck : s.io.Grows s.delayRead.2.io := (Io.Grows.refl s.io).now _
  rcases waitIteration_cases onExpired s with ⟨-, h⟩ | ⟨-, h⟩ <;> rw [h]
  · exact hon _ hcheck
  · exact hcheck

end

theorem sequencerStep_grows (s : State) : s.io.Grows (sequencerStep s).io := by
  have h := Io.Grows.refl s.io
  cases hs : s.stepReg <;> simp only [sequencerStep, hs]
  case idle => exact h
  case step1 => exact initStep2_grows h
  case step2 => exact pollIteration_grows (h.sRead _) fun u hu => hu.now _
  case step3 => exact waitIteration_grows fun u hu => initFrom4_grows (hu.sWrite _ _)
  case step4 => exact initFrom4_grows h
  case step5 => exact initStep7_grows (h.sWrites _)
  case step6 => exact initStep7_grows h
  case step7 => exact pollIteration_grows (h.lRead _) fun u hu => initStep9_grows hu
  case step8 => exact initStep9_grows h
  case step9 => exact waitIteration_grows fun u hu => initStep11_grows (hu.sWrite _ _)
  case step10 => exact initStep11_grows (h.sWrite _ _)
  case step11 => exact initStep11_grows h

theorem sequencerRun_grows (n : Nat) (s : State) : s.io.Grows (sequencerRun n s).io :=
  sequencerRun_induct (P := fun u => s.io.Grows u.io) (fun u _ h => h.trans (sequencerStep_grows u)) n s
    (Io.Grows.refl s.io)

theorem initBegin_grows {s : State} (hp : ∀ e ∈ s.cfg.pinPrologue, e ≠ .cs false) :
    s.io.Grows (initBegin s).io := by
  have h : s.io.Grows (s.loadDef.withAnswer none).io := by
    rw [State.withAnswer_io, State.loadDef_io]
    exact Io.Grows.refl s.io
  exact initStep2_grows (h.pinEvents (by simpa using hp))

end Sys2Proof.Machine
end

section
/-! What an operation can do, said once for all of them: `ExecCase`. The statements about every operation are
read off it. -/

namespace Sys2Proof.Machine

/-- What a number an answer puts on the result port may be: one of the results listed for the operation, or
nothing for an operation that has none (30_encoding.md R96, 60_exceptions.md R221). -/
def Answers (i : Instr) (a : Answer) : Prop :=
  (∃ r ∈ results i, a.res = some r.code) ∨ a.res = none ∧ results i = []

/-- A store of one field that keeps what 10_state.md R22 asks of an identity. -/
structure StoreKeeps (c : Cfg) (f : RadioIdentity → RadioIdentity) : Prop where
  identity : ∀ v, identityOk c v = true → identityOk c (f v) = true
  channel : ∀ v, (f v).chan = v.chan ∨ isChannel c (f v).chan = true

/-- What an operation that answers a next state has done: it changed the answer alone (`answered`), the answer
and the edge (`moved`), a field of the identity (`stored`), or the delay (`delayed`), or it was one of the
three large commands. -/
inductive ExecCase (i : Instr) (s t : State) : Prop where
  | answered (a : Answer) (eq : t = s.give a) (res : Answers i a)
  | moved (a : Answer) (io : Io) (eq : t = (s.withIo io).give a) (grows : s.io.Grows io)
      (kind : i = .isNew ∨ i = .dlyRead ∨ i.isRegAccess = true) (res : Answers i a)
  | stored (f : RadioIdentity → RadioIdentity)
      (eq : t = { s with id := f s.loadedId, answer := some (.result .ok) })
      (kind : i.isSetter = true) (keeps : StoreKeeps s.cfg f)
  | delayed (d : DelayState) (io : Io) (eq : t = ((s.withIo io).withDly d).give .done)
      (grows : s.io.Grows io) (kind : i.writesDelay = true) (quiet : (∃ n, i = .dlyWrite n) → io = s.io)
      (res : results i = []) (start : d.start = s.dly.start ∨ d.start < 2 ^ s.cfg.tickW)
      (duration : d.duration = s.dly.duration ∨ d.duration < 2 ^ s.cfg.tickW)
  | init (eq : t = sequencerRun s.io.ticks.given.length (initBegin s)) (kind : i = .init)
      (accepts : s.accepts)
  | sent (dst : Half) (dpan org : Option Half) (payload : List Byte)
      (eq : t = txAccepted s dst dpan org payload) (kind : i = .tx dst dpan org payload)
      (fits : payload.length ≤ s.cfg.maxBuf)
  | received (eq : t = rxRun s) (kind : i = .rx)

/-! ### The cases of each kind of operation -/

theorem answers_result {i : Instr} {r : Result} (h : r ∈ results i) : Answers i (.result r) :=
  .inl ⟨r, h, rfl⟩

theorem answers_read {i : Instr} {r : Result} {b : Option Byte} (h : r ∈ results i) :
    Answers i (.read r b) := .inl ⟨r, h, rfl⟩

theorem answers_none {i : Instr} {a : Answer} (h : results i = []) (ha : a.res = none) : Answers i a :=
  .inr ⟨ha, h⟩

theorem identityOk_iff {c : Cfg} {v : RadioIdentity} :
    identityOk c v = true ↔ isChannel c v.chan = true ∧ (!(v.pan == c.broadcast)) = true ∧
      (!(v.addr == c.broadcast)) = true ∧ (!allZero v.mac.toList) = true ∧
      (!allZero v.key.toList) = true := by
  simp only [identityOk, Bool.and_eq_true, and_assoc]

theorem setter_case {i : Instr} {s t : State} {valid : State → Bool} {f : RadioIdentity → RadioIdentity}
    (h : setter s valid f = .next t) (hi : i.isSetter = true)
    (hr : valid s = false → .invalidValue ∈ results i) (hf : valid s = true → StoreKeeps s.cfg f) :
    ExecCase i s t := by
  obtain ⟨-, ⟨hv, rfl⟩ | ⟨hv, rfl⟩⟩ := setter_next.mp h
  · exact .stored f rfl hi (hf hv)
  · exact .answered _ rfl (answers_result (hr hv))

theorem transferResult_mem (ok1 ok2 : Bool) : transferResult ok1 ok2 ∈ [Result.ok, .transportFail] := by
  cases ok1 <;> cases ok2 <;> decide

/-- Every operation that answers a next state is in one of the cases of `ExecCase`. -/
theorem exec_cases {i : Instr} {s t : State} (h : exec i s = .next t) : ExecCase i s t := by
  have now : s.io.Grows (s.io.now s.cfg.tickW).2 := (Io.Grows.refl s.io).now _
  have tick : (s.io.now s.cfg.tickW).1 < 2 ^ s.cfg.tickW := by
    rw [Io.now_tick]
    exact Io.tickAt_lt _ _ _
  cases i with
  | init =>
    obtain ⟨ha, rfl⟩ := execInit_next.mp h
    exact .init rfl rfl ha
  | setCh ch =>
    simp only [exec, execSetCh] at h
    refine setter_case h rfl (fun _ => by simp [results]) fun hv => ⟨fun v hid => ?_, fun v => .inr hv⟩
    obtain ⟨-, hpan, haddr, hmac, hkey⟩ := identityOk_iff.mp hid
    exact identityOk_iff.mpr ⟨hv, hpan, haddr, hmac, hkey⟩
  | setPan pan =>
    simp only [exec, execSetPan] at h
    refine setter_case h rfl (fun _ => by simp [results]) fun hv => ⟨fun v hid => ?_, fun v => .inl rfl⟩
    obtain ⟨hchan, -, haddr, hmac, hkey⟩ := identityOk_iff.mp hid
    exact identityOk_iff.mpr ⟨hchan, hv, haddr, hmac, hkey⟩
  | setAddr addr =>
    simp only [exec, execSetAddr] at h
    refine setter_case h rfl (fun _ => by simp [results]) fun hv => ⟨fun v hid => ?_, fun v => .inl rfl⟩
    obtain ⟨hchan, hpan, -, hmac, hkey⟩ := identityOk_iff.mp hid
    exact identityOk_iff.mpr ⟨hchan, hpan, hv, hmac, hkey⟩
  | setSeq seq =>
    simp only [exec, execSetSeq] at h
    exact setter_case h rfl (fun hv => by cases hv) fun _ => ⟨fun v hid => hid, fun v => .inl rfl⟩
  | setMac mac =>
    simp only [exec, execSetMac] at h
    refine setter_case h rfl (fun _ => by simp [results]) fun hv => ⟨fun v hid => ?_, fun v => .inl rfl⟩
    obtain ⟨hchan, hpan, haddr, -, hkey⟩ := identityOk_iff.mp hid
    exact identityOk_iff.mpr ⟨hchan, hpan, haddr, hv, hkey⟩
  | setKey key =>
    simp only [exec, execSetKey] at h
    refine setter_case h rfl (fun _ => by simp [results]) fun hv => ⟨fun v hid => ?_, fun v => .inl rfl⟩
    obtain ⟨hchan, hpan, haddr, hmac, -⟩ := identityOk_iff.mp hid
    exact identityOk_iff.mpr ⟨hchan, hpan, haddr, hmac, hv⟩
  | tx dst dpan org payload =>
    obtain ⟨-, ⟨r, hr, rfl⟩ | ⟨-, -, -, hlen, -, rfl⟩⟩ := execTx_next h
    · exact .answered _ rfl (answers_result (List.mem_cons_of_mem _ hr))
    · exact .sent dst dpan org payload rfl rfl hlen
  | isNew =>
    obtain ⟨-, ⟨-, rfl⟩ | ⟨-, rfl⟩⟩ := execIsNew_next h
    · exact .answered _ rfl (answers_result (by decide))
    · refine .moved _ _ rfl (Io.Grows.refl s.io).int (.inl rfl) (answers_result ?_)
      cases s.io.int.1 <;> decide
  | rx =>
    obtain ⟨-, ⟨-, rfl⟩ | ⟨-, rfl⟩⟩ := execRx_next h
    · exact .answered _ rfl (answers_result (by decide))
    · exact .received rfl rfl
  | getLast =>
    obtain ⟨-, rfl⟩ := execGetLast_next h
    exact .answered _ rfl (.inl ⟨.ok, by decide, rfl⟩)
  | discover =>
    obtain ⟨-, ⟨-, rfl⟩ | ⟨-, rfl⟩⟩ := execDiscover_next h <;>
      exact .answered _ rfl (answers_result (by decide))
  | dlyInit d =>
    obtain ⟨-, hd, rfl⟩ := execDlyInit_next h
    exact .delayed ⟨_, d, true⟩ _ rfl now rfl (fun ⟨n, hn⟩ => by cases hn) rfl (.inr tick) (.inr hd)
  | dlyRead =>
    obtain ⟨-, -, rfl⟩ := execDlyRead_next h
    exact .moved _ _ rfl now (.inr (.inl rfl)) (answers_none rfl rfl)
  | dlyReset =>
    obtain ⟨-, rfl⟩ := execDlyReset_next h
    exact .delayed ⟨_, s.dly.duration, true⟩ _ rfl now rfl (fun ⟨n, hn⟩ => by cases hn) rfl (.inr tick)
      (.inl rfl)
  | dlyWrite d =>
    obtain ⟨-, hd, rfl⟩ := execDlyWrite_next h
    exact .delayed ⟨s.dly.start, d, s.dly.running⟩ s.io rfl (Io.Grows.refl s.io) rfl (fun _ => rfl) rfl
      (.inl rfl) (.inr hd)
  | encSr r =>
    obtain ⟨-, rfl⟩ := execEncSr_next h
    exact .answered _ rfl (answers_none rfl rfl)
  | encSw r =>
    obtain ⟨-, rfl⟩ := execEncSw_next h
    exact .answered _ rfl (answers_none rfl rfl)
  | encLr r =>
    obtain ⟨-, rfl⟩ := execEncLr_next h
    exact .answered _ rfl (answers_none rfl rfl)
  | encLw r =>
    obtain ⟨-, rfl⟩ := execEncLw_next h
    exact .answered _ rfl (answers_none rfl rfl)
  | raSrd a null =>
    obtain ⟨-, ⟨-, rfl⟩ | ⟨-, rfl⟩⟩ := execRaSrd_next h
    · exact .answered _ rfl (answers_read (by simp [results]))
    · refine .moved _ _ rfl ((Io.Grows.refl s.io).shortRead a) (.inr (.inr rfl)) (answers_read ?_)
      exact List.mem_append_left [.invalidArg] (transferResult_mem _ _)
  | raSwr a v =>
    obtain ⟨-, rfl⟩ := execRaSwr_next h
    exact .moved _ _ rfl ((Io.Grows.refl s.io).shortWrite a v) (.inr (.inr rfl))
      (answers_result (transferResult_mem _ _))
  | raLrd a null =>
    obtain ⟨-, ⟨-, rfl⟩ | ⟨-, rfl⟩⟩ := execRaLrd_next h
    · exact .answered _ rfl (answers_read (by simp [results]))
    · refine .moved _ _ rfl ((Io.Grows.refl s.io).longRead a) (.inr (.inr rfl)) (answers_read ?_)
      exact List.mem_append_left [.invalidArg] (transferResult_mem _ _)
  | raLwr a v =>
    obtain ⟨-, rfl⟩ := execRaLwr_next h
    exact .moved _ _ rfl ((Io.Grows.refl s.io).longWrite a v) (.inr (.inr rfl))
      (answers_result (transferResult_mem _ _))

end Sys2Proof.Machine
end

section
/-! The statements about every operation, read off `ExecCase`: who writes what (10_state.md R31), which results
an operation returns (30_encoding.md R96), and what the sentinel and the view of `GETLAST` then are. -/

namespace Sys2Proof.Machine

section
variable {i : Instr} {s t : State}

/-! ### Kinds of operations -/

/-- What an operation of `AC` or `RA` is not. -/
structure AddressUnitKind (i : Instr) : Prop where
  setter : i.isSetter = false
  delay : i.writesDelay = false
  init : i ≠ .init
  rx : i ≠ .rx
  tx : ∀ dst dpan org payload, i ≠ .tx dst dpan org payload

theorem addressUnitKind (h : i.isAddressUnit = true) : AddressUnitKind i := by
  refine ⟨?_, ?_, ?_, ?_, fun dst dpan org payload => ?_⟩
  · cases i <;> simp_all [Instr.isAddressUnit, Instr.isSetter]
  · cases i <;> simp_all [Instr.isAddressUnit, Instr.writesDelay]
  all_goals
    rintro rfl
    cases h

/-- The operations whose meaning takes nothing from the edge and emits nothing (10_state.md R31). -/
def IsQuiet (i : Instr) : Prop :=
  i.isSetter = true ∨ i = .getLast ∨ i = .discover ∨ (∃ r, i = .encSr r ∨ i = .encSw r) ∨
    (∃ r, i = .encLr r ∨ i = .encLw r) ∨ ∃ d, i = .dlyWrite d

/-- What a quiet operation is not, and which one writes the delay. -/
structure QuietKind (i : Instr) : Prop where
  regAccess : i.isRegAccess = false
  delay : i.writesDelay = true → ∃ d, i = .dlyWrite d
  isNew : i ≠ .isNew
  dlyRead : i ≠ .dlyRead
  init : i ≠ .init
  rx : i ≠ .rx
  tx : ∀ dst dpan org payload, i ≠ .tx dst dpan org payload

theorem IsQuiet.kind (h : IsQuiet i) : QuietKind i := by
  refine ⟨?_, ?_, ?_, ?_, ?_, ?_, fun dst dpan org payload => ?_⟩
  · cases i <;> simp_all [IsQuiet, Instr.isSetter, Instr.isRegAccess]
  · cases i <;> simp_all [IsQuiet, Instr.isSetter, Instr.writesDelay]
  all_goals
    rintro rfl
    simp [IsQuiet, Instr.isSetter] at h

theorem isSetter_not_tx (h : i.isSetter = true) (dst : Half) (dpan org : Option Half) (payload : List Byte) :
    i ≠ .tx dst dpan org payload := by
  rintro rfl
  cases h

end

/-! ### What an `INIT` leaves, started by its exec -/

theorem initRun_frame (n : Nat) (s : State) :
    (sequencerRun n (initBegin s)).cfg = s.cfg ∧ (sequencerRun n (initBegin s)).id = s.loadedId ∧
      (sequencerRun n (initBegin s)).txf = s.txf ∧ (sequencerRun n (initBegin s)).rxf = s.rxf ∧
      (sequencerRun n (initBegin s)).inbox = s.inbox ∧
      (sequencerRun n (initBegin s)).io.pins = s.io.pins := by
  obtain ⟨hcfg, hid, htxf, hrxf, hinbox, -, -, -, -, -, hpins, -⟩ := initBegin_fields s
  obtain ⟨hcfg', hid', htxf', hrxf', hinbox', hpins'⟩ := sequencerRun_frame n (initBegin s)
  exact ⟨hcfg'.trans hcfg, hid'.trans hid, htxf'.trans htxf, hrxf'.trans hrxf, hinbox'.trans hinbox,
    hpins'.trans hpins⟩

/-! ### What an `RX` leaves -/

theorem rxRun_answer (s : State) :
    ∃ r ∈ results .rx, (rxRun s).answer = some (.result r) := by
  cases h : badLength s.cfg (s.io.readAt 0).2
  · exact ⟨.ok, by decide, by rw [rxRun_good h]⟩
  · exact ⟨.decodeError, by decide, by rw [rxRun_bad h]⟩

theorem rxRun_src (s : State) : (rxRun s).rxf.src = joinBytes (s.io.readAt 1).2 (s.io.readAt 2).2 := by
  cases h : badLength s.cfg (s.io.readAt 0).2
  · rw [rxRun_good h]
  · rw [rxRun_bad h]

/-! ### Who writes what -/

/-- Settles O51: no case but that of `INIT` writes `status` or the step register. -/
theorem onlyInitChangesTheMode : Obligations.OnlyInitChangesTheMode := by
  intro i s t h hi
  cases exec_cases h with
  | init _ hk => exact absurd hk hi
  | received heq =>
    obtain ⟨-, -, -, hstatus, hstep, -⟩ := rxRun_frame s
    rw [heq]
    exact ⟨hstatus, hstep⟩
  | answered _ heq | moved _ _ heq | stored _ heq | delayed _ _ heq | sent _ _ _ _ heq =>
    subst heq
    exact ⟨rfl, rfl⟩

/-- Settles O53: an operation of `AC` or `RA` is in one of the two cases that write no register. -/
theorem addressUnitsWriteNoRegister : Obligations.AddressUnitsWriteNoRegister := by
  intro i s t hi h
  have kind := addressUnitKind hi
  cases exec_cases h with
  | answered _ heq | moved _ _ heq => rw [heq]; rfl
  | stored _ _ hk => exact absurd hk (by simp [kind.setter])
  | delayed _ _ _ _ hk => exact absurd hk (by simp [kind.delay])
  | init _ hk => exact absurd hk kind.init
  | sent _ _ _ _ _ hk => exact absurd hk (kind.tx _ _ _ _)
  | received _ hk => exact absurd hk kind.rx

/-- Settles O52: each case of an operation names what it writes; the kinds tell the cases apart. -/
theorem accessTable : Obligations.AccessTable := by
  intro i s t h
  cases exec_cases h with
  | answered _ heq =>
    subst heq
    exact ⟨rfl, rfl, fun _ _ _ => rfl, fun _ => rfl, fun _ => rfl, fun _ => rfl, fun _ => rfl, fun _ => rfl⟩
  | moved _ _ heq _ hk =>
    subst heq
    refine ⟨rfl, rfl, fun _ _ _ => rfl, fun _ => rfl, fun _ => rfl, fun _ => rfl, fun _ => rfl, fun hq => ?_⟩
    have kind := IsQuiet.kind hq
    exact absurd hk (by simp [kind.isNew, kind.dlyRead, kind.regAccess])
  | stored _ heq hk =>
    subst heq
    exact ⟨rfl, rfl, fun hset => absurd hk (by simp [hset]),
      fun ⟨_, _, _, _, htx⟩ => absurd htx (isSetter_not_tx hk _ _ _ _),
      fun _ => rfl, fun _ => rfl, fun _ => rfl, fun _ => rfl⟩
  | delayed _ _ heq _ hk hio =>
    subst heq
    exact ⟨rfl, rfl, fun _ _ _ => rfl, fun _ => rfl, fun _ => rfl, fun _ => rfl,
      fun hdly => absurd hk (by simp [hdly]), fun hq => hio ((IsQuiet.kind hq).delay hk)⟩
  | init heq hk =>
    subst heq hk
    obtain ⟨hcfg, -, htxf, hrxf, hinbox, -⟩ := initRun_frame s.io.ticks.given.length s
    exact ⟨hcfg, hinbox, fun _ hne => absurd rfl hne, fun ⟨_, _, _, _, htx⟩ => (by cases htx), fun _ => htxf,
      fun _ => hrxf, fun hdly => (by cases hdly), fun hq => absurd rfl (IsQuiet.kind hq).init⟩
  | sent _ _ _ _ heq hk =>
    subst heq hk
    exact ⟨rfl, rfl, fun _ _ hne => absurd rfl (hne _ _ _ _), fun _ => rfl,
      fun hne => absurd rfl (hne _ _ _ _), fun _ => rfl, fun _ => rfl,
      fun hq => absurd rfl ((IsQuiet.kind hq).tx _ _ _ _)⟩
  | received heq hk =>
    subst heq hk
    obtain ⟨hcfg, hid, htxf, -, -, hdly, hinbox, -⟩ := rxRun_frame s
    exact ⟨hcfg, hinbox, fun _ _ _ => hid, fun ⟨_, _, _, _, htx⟩ => (by cases htx), fun _ => htxf,
      fun hne => absurd rfl hne, fun _ => hdly, fun hq => absurd rfl (IsQuiet.kind hq).rx⟩

/-! ### Results -/

/-- The two results of the transport are no host command's (60_exceptions.md R223). -/
theorem command_results {i : Instr} {r : Result} (hi : i.isCommand = true) (hr : r ∈ results i) :
    r ≠ .invalidArg ∧ r ≠ .transportFail := by
  constructor <;> rintro rfl <;> cases i <;> simp_all [results, Instr.isCommand]

/-- The two numbers of the transport's results belong to no other result, and two belong to none (decision
D2). -/
theorem Result.code_ne {r : Result} (h : r ≠ .invalidArg ∧ r ≠ .transportFail) :
    r.code ≠ 0x6#4 ∧ r.code ≠ 0x7#4 ∧ r.code ≠ 0xE#4 ∧ r.code ≠ 0xF#4 := by
  cases r <;> simp_all [Result.code]

theorem setter_results {i : Instr} (h : i.isSetter = true) : .ok ∈ results i := by
  cases i <;> simp_all [Instr.isSetter, results]

/-- What stands on the result port after an operation: a listed result, or nothing for an operation that has
none and for an `INIT` in one of its loops [9]. -/
def PortShows (i : Instr) (t : State) : Prop :=
  (∃ r ∈ results i, t.resultPort = some r.code) ∨
    t.resultPort = none ∧ (results i = [] ∨ i = .init ∧ t.stepReg ≠ .idle)

theorem portShows_of_answers {i : Instr} {t : State} {a : Answer} (ha : t.answer = some a)
    (hres : Answers i a) : PortShows i t := by
  have hport : t.resultPort = a.res := by
    rw [State.resultPort, ha]
    rfl
  rw [PortShows, hport]
  exact hres.imp_right fun ⟨hnone, hi⟩ => ⟨hnone, .inl hi⟩

theorem exec_resultPort {i : Instr} {s t : State} (h : exec i s = .next t) : PortShows i t := by
  cases exec_cases h with
  | answered a heq hres => exact portShows_of_answers (by rw [heq]; rfl) hres
  | moved a _ heq _ _ hres => exact portShows_of_answers (by rw [heq]; rfl) hres
  | stored _ heq hk => exact portShows_of_answers (by rw [heq]) (answers_result (setter_results hk))
  | delayed _ _ heq _ _ _ hres =>
    exact portShows_of_answers (a := .done) (by rw [heq]; rfl) (answers_none hres rfl)
  | sent _ _ _ _ heq hk =>
    exact portShows_of_answers (a := .result .txCompleted) (by rw [heq]; rfl)
      (answers_result (by rw [hk]; simp [results]))
  | received heq hk =>
    obtain ⟨r, hr, hans⟩ := rxRun_answer s
    exact portShows_of_answers (by rw [heq]; exact hans) (answers_result (by rw [hk]; exact hr))
  | init heq hk =>
    have hend := initRun_end s.io.ticks.given.length s
    rw [← heq] at hend
    by_cases hidle : t.stepReg = .idle
    · rcases hend.ended hidle with ⟨-, hans⟩ | ⟨-, hans⟩ <;>
        exact portShows_of_answers hans (answers_result (by rw [hk]; simp [results]))
    · obtain ⟨-, hans, -⟩ := hend.looping hidle
      exact .inr ⟨by rw [State.resultPort, hans]; rfl, .inr ⟨hk, hidle⟩⟩

/-- Settles O14: a number on the port is a listed result's, and no listed result of a command has one of the
four numbers. -/
theorem operationsReturnOnlyTheirResults : Obligations.OperationsReturnOnlyTheirResults := by
  intro i s t h
  refine ⟨exec_resultPort h, fun hi => ?_⟩
  rcases exec_resultPort h with ⟨r, hr, hp⟩ | ⟨hp, -⟩
  · simpa only [hp, ne_eq, Option.some.injEq] using Result.code_ne (command_results hi hr)
  · simp [hp]

/-! ### Operations under an ill-formed configuration -/

section
variable {s : State} {body : State → Out}

theorem unitOp_illFormed (h : s.cfg.wf = false) : unitOp s body = .refused .illFormedCfg := by
  rw [unitOp, h]
  rfl

theorem command_illFormed (h : s.cfg.wf = false) : command s body = .refused .illFormedCfg := by
  rw [command, h]
  rfl

/-- A command in progress turns every host command away (20_memory.md R66). -/
theorem command_busy (h : s.cfg.wf = true) (hb : s.stepReg ≠ .idle) :
    command s body = .refused .busy := by
  have hi : s.isIdle = false := beq_eq_false_iff_ne.mpr hb
  rw [command, h, hi]
  rfl

end

/-- Every host command's meaning stands under `command`. -/
theorem exec_eq_command {i : Instr} (hi : i.isCommand = true) (s : State) :
    ∃ body, exec i s = command s body := by
  cases i with
  | init | getLast => simp only [exec]; exact ⟨_, rfl⟩
  | setCh | setPan | setAddr | setSeq | setMac | setKey =>
    simp only [exec, execSetCh, execSetPan, execSetAddr, execSetSeq, execSetMac, execSetKey]
    exact ⟨_, rfl⟩
  | tx | isNew | rx | discover =>
    simp only [exec, execTx, execIsNew, execRx, execDiscover]
    exact ⟨_, rfl⟩
  | _ => cases hi

/-- Every other operation's meaning stands under `unitOp`. -/
theorem exec_eq_unitOp {i : Instr} (hi : i.isCommand = false) (s : State) :
    ∃ body, exec i s = unitOp s body := by
  cases i with
  | dlyInit | dlyRead | dlyReset | dlyWrite | encSr | encSw | encLr | encLw | raSrd | raSwr | raLrd
    | raLwr => simp only [exec]; exact ⟨_, rfl⟩
  | _ => cases hi

/-- Settles O10: both guards ask for a well-formed configuration first. -/
theorem illFormedCfgIsRefused : Obligations.IllFormedCfgIsRefused := by
  intro i s h
  cases hi : i.isCommand with
  | false =>
    obtain ⟨_, hbody⟩ := exec_eq_unitOp hi s
    rw [hbody, unitOp_illFormed h]
  | true =>
    obtain ⟨_, hbody⟩ := exec_eq_command hi s
    rw [hbody, command_illFormed h]

theorem exec_next_wf {i : Instr} {s t : State} (h : exec i s = .next t) : s.cfg.wf = true := by
  by_contra hw
  rw [illFormedCfgIsRefused i s (Bool.eq_false_iff.mpr hw)] at h
  cases h

/-- A word presented while a command is in progress is not even decoded (70_reset_and_hazards.md R266). -/
theorem nextAction_busy {s : State} {w : PortWord} {rest : List Input} (hw : s.cfg.wf = true)
    (hb : s.stepReg ≠ .idle) (hin : s.inbox = .request w :: rest) : nextAction s = .busy := by
  rw [nextAction, if_pos hw, hin]
  exact if_neg fun hidle => hb (beq_iff_eq.mp hidle)

/-- Settles O11: `command` asks whether the block is idle, and so does a step before it decodes. -/
theorem commandWhileBusyIsRefused : Obligations.CommandWhileBusyIsRefused := by
  refine ⟨fun i s hw hb hi => ?_, fun s w rest hw hb hin => ?_⟩
  · obtain ⟨_, hbody⟩ := exec_eq_command hi s
    rw [hbody, command_busy hw hb]
  · rw [step, nextAction_busy hw hb hin]

/-! ### The sentinel -/

theorem State.loadedId_of_ne {s : State} (h : s.id.chan ≠ s.cfg.chUnset) : s.loadedId = s.id := if_neg h

theorem State.loadedId_of_eq {s : State} (h : s.id.chan = s.cfg.chUnset) :
    s.loadedId = factoryId s.cfg := if_pos h

/-- Loaded defaults leave a channel that is no sentinel (43_config.md R171). -/
theorem State.loadedId_chan {s : State} (hw : s.cfg.wf = true) : s.loadedId.chan ≠ s.cfg.chUnset := by
  by_cases h : s.id.chan = s.cfg.chUnset
  · rw [State.loadedId_of_eq h]
    obtain ⟨hdef, hne⟩ := Cfg.wf_channel hw
    exact hne _ hdef
  · rwa [State.loadedId_of_ne h]

theorem StoreKeeps.chan_ne {c : Cfg} {f : RadioIdentity → RadioIdentity} (hf : StoreKeeps c f)
    (hw : c.wf = true) {v : RadioIdentity} (hv : v.chan ≠ c.chUnset) : (f v).chan ≠ c.chUnset := by
  rcases hf.channel v with h | h
  · rwa [h]
  · exact (Cfg.wf_channel hw).2 _ h

/-- No operation makes the channel the sentinel (10_state.md section 2). -/
theorem exec_chan_ne {i : Instr} {s t : State} (h : exec i s = .next t) (hs : s.id.chan ≠ s.cfg.chUnset) :
    t.id.chan ≠ t.cfg.chUnset := by
  have hw := exec_next_wf h
  cases exec_cases h with
  | answered _ heq | moved _ _ heq | delayed _ _ heq | sent _ _ _ _ heq =>
    subst heq
    exact hs
  | stored _ heq _ hf =>
    subst heq
    exact hf.chan_ne hw (State.loadedId_chan hw)
  | init heq =>
    obtain ⟨hcfg, hid, -⟩ := initRun_frame s.io.ticks.given.length s
    rw [heq, hcfg, hid]
    exact State.loadedId_chan hw
  | received heq =>
    obtain ⟨hcfg, hid, -⟩ := rxRun_frame s
    rw [heq, hcfg, hid]
    exact hs

/-- Settles O25: the loader writes while the channel is the sentinel and leaves it none, so a second run and
every operation after it find none. -/
theorem defaultsAreLoadedOnce : Obligations.DefaultsAreLoadedOnce := by
  refine ⟨fun s hw => ⟨fun h => ?_, fun h => ?_, ?_, ?_⟩, fun i s t h hs => exec_chan_ne h hs⟩
  · rw [State.loadDef_eq, State.loadedId_of_eq h]
    rfl
  · rw [State.loadDef_eq, State.loadedId_of_ne h]
    rfl
  · have hset : s.loadDef.id.chan ≠ s.loadDef.cfg.chUnset := by
      rw [State.loadDef_id, State.loadDef_cfg]
      exact State.loadedId_chan hw
    rw [State.loadDef_eq s.loadDef, State.loadedId_of_ne hset]
    rfl
  · rw [State.loadDef_id]
    exact State.loadedId_chan hw

/-! ### The view of `GETLAST` -/

theorem exec_getLast_of_accepts {s : State} (h : s.accepts) : exec .getLast s = .next (s.give .okView) := by
  simp only [exec, execGetLast, command_accepts h]

/-- Settles O46: `GETLAST` writes its answer alone; the view is `rxf`, which by the access table only `RX`
writes. -/
theorem getLastGivesTheLiveFrame : Obligations.GetLastGivesTheLiveFrame := by
  intro s ha
  refine ⟨exec_getLast_of_accepts ha, rfl, fun i t h => ⟨fun hi => ?_, fun hi hr => ?_⟩⟩
  · obtain ⟨-, -, -, -, -, hrxf, -⟩ := accessTable i _ t h
    rw [State.lastFrame, hrxf hi]
  · subst hi
    obtain ⟨-, ⟨hn, -⟩ | ⟨-, rfl⟩⟩ := execRx_next h
    · exact absurd hr hn
    · exact rxRun_src _

end Sys2Proof.Machine
end

section
/-! What every step of the machine keeps: the discipline of the bus (20_memory.md section 3) and the invariant
of the registers (10_state.md sections 2 to 4). -/

namespace Sys2Proof.Machine

/-! ### The bus -/

theorem exec_grows {i : Instr} {s t : State} (hp : ∀ e ∈ s.cfg.pinPrologue, e ≠ .cs false)
    (h : exec i s = .next t) : s.io.Grows t.io := by
  cases exec_cases h with
  | answered _ heq | stored _ heq => rw [heq]; exact Io.Grows.refl s.io
  | moved _ _ heq hg | delayed _ _ heq hg => rw [heq]; exact hg
  | init heq => rw [heq]; exact (initBegin_grows hp).trans (sequencerRun_grows _ _)
  | sent _ _ _ _ heq => rw [heq]; exact txAccepted_grows _ _ _ _ _
  | received heq => rw [heq]; exact rxRun_grows s

/-- A step adds whole transactions to the trace and leaves the configuration. -/
theorem step_grows {s t : State} (hp : ∀ e ∈ s.cfg.pinPrologue, e ≠ .cs false) (h : step s = .next t) :
    s.io.Grows t.io ∧ t.cfg = s.cfg := by
  obtain ⟨-, hcase⟩ := step_cases h
  cases hcase with
  | reset _ _ heq | awaited _ _ _ heq | idle _ _ heq => rw [heq]; exact ⟨Io.Grows.refl s.io, rfl⟩
  | sequencer _ heq => rw [heq]; exact ⟨sequencerStep_grows s, (sequencerStep_frame s).cfg⟩
  | run w rest i _ _ _ heq =>
    obtain ⟨hcfg, -⟩ := accessTable i _ t heq
    exact ⟨exec_grows (s := s.withInbox rest) hp heq, hcfg⟩

/-- Settles O50: whatever a step does, what it adds to the trace is bracketed by itself. -/
theorem everyStepKeepsTheBrackets : Obligations.EveryStepKeepsTheBrackets := by
  intro s t hp hb h
  obtain ⟨hgrows, hcfg⟩ := step_grows hp h
  have hcalls := hgrows.bracketed_calls hb
  obtain ⟨more, htrace, -⟩ := hgrows
  exact ⟨hcalls, hcfg, more, htrace⟩

/-! ### The delay inside an `INIT` -/

theorem Cfg.wf_durations {c : Cfg} (h : c.wf = true) :
    c.timeoutTicks < 2 ^ c.tickW ∧ c.settle1Ticks < 2 ^ c.tickW ∧ c.settle2Ticks < 2 ^ c.tickW := by
  obtain ⟨hticks, -⟩ := Cfg.wf_lines h
  simp only [Cfg.wfTicks, Bool.and_eq_true, decide_eq_true_eq] at hticks
  obtain ⟨⟨⟨-, ht⟩, h1⟩, h2⟩ := hticks
  exact ⟨ht, h1, h2⟩

/-- The timer runs, with its registers in the counter's range (10_state.md R29). -/
structure Timed (s : State) : Prop where
  running : s.dly.running = true
  start : s.dly.start < 2 ^ s.cfg.tickW
  duration : s.dly.duration < 2 ^ s.cfg.tickW

theorem timed_delayInit {d : Nat} {s : State} (hd : d < 2 ^ s.cfg.tickW) : Timed (s.delayInit d) := by
  constructor <;> rw [State.delayInit_dly]
  · exact Io.tickAt_lt _ _ _
  · exact hd

theorem timed_pollIteration {read : Io → Byte × Io} {cond : Byte → Bool} {onReady : State → State} {s : State}
    (h : Timed s) (hon : ∀ u, u.cfg = s.cfg → Timed (onReady u)) :
    Timed (pollIteration read cond onReady s) := by
  rcases pollIteration_cases read cond onReady s with ⟨-, heq⟩ | ⟨-, heq⟩ | ⟨-, heq⟩ <;> rw [heq]
  · exact hon _ rfl
  · exact ⟨h.running, h.start, h.duration⟩
  · exact ⟨h.running, h.start, h.duration⟩

theorem timed_waitIteration {onExpired : State → State} {s : State} (h : Timed s)
    (hon : ∀ u, u.cfg = s.cfg → Timed u → Timed (onExpired u)) : Timed (waitIteration onExpired s) := by
  have hcheck : Timed s.delayRead.2 := ⟨h.running, h.start, h.duration⟩
  rcases waitIteration_cases onExpired s with ⟨-, heq⟩ | ⟨-, heq⟩ <;> rw [heq]
  · exact hon _ rfl hcheck
  · exact hcheck

/-- A move of the sequencer starts a delay of one of the configuration's durations, or leaves the timer. -/
theorem sequencerStep_timed {s : State} (hw : s.cfg.wf = true) (h : Timed s) : Timed (sequencerStep s) := by
  obtain ⟨ht, h1, h2⟩ := Cfg.wf_durations hw
  cases hs : s.stepReg <;> simp only [sequencerStep, hs]
  case idle => exact h
  case step2 => exact timed_pollIteration h fun u hu => timed_delayInit (by rw [← hu] at h1; exact h1)
  case step3 => exact timed_waitIteration h fun u hu _ => timed_delayInit (by rw [← hu] at ht; exact ht)
  case step7 => exact timed_pollIteration h fun u hu => timed_delayInit (by rw [← hu] at h2; exact h2)
  case step9 => exact timed_waitIteration h fun u _ hu' => ⟨hu'.running, hu'.start, hu'.duration⟩
  case step8 => exact timed_delayInit h2
  case step10 | step11 => exact ⟨h.running, h.start, h.duration⟩
  all_goals exact timed_delayInit ht

/-! ### The invariant -/

/-- The identity's clause rules out the sentinel (00_scope.md R8 line 5). -/
theorem identityOk_chan {c : Cfg} {v : RadioIdentity} (hw : c.wf = true) (h : identityOk c v = true) :
    v.chan ≠ c.chUnset := by
  obtain ⟨hchan, -⟩ := identityOk_iff.mp h
  exact (Cfg.wf_channel hw).2 _ hchan

theorem defaultsUnset_eq_false {s : State} : s.defaultsUnset = false ↔ s.id.chan ≠ s.cfg.chUnset :=
  beq_eq_false_iff_ne

theorem Inv.loadedId {s : State} (h : Inv s) : identityOk s.cfg s.loadedId = true := by
  by_cases hc : s.id.chan = s.cfg.chUnset
  · rw [State.loadedId_of_eq hc]
    exact Cfg.wf_factory h.cfg_ok
  · rw [State.loadedId_of_ne hc]
    exact h.id_ok (defaultsUnset_eq_false.mpr hc)

/-- A move of the sequencer keeps the invariant. -/
theorem Inv.sequencerStep {s : State} (h : Inv s) (hb : s.stepReg ≠ .idle) : Inv (sequencerStep s) := by
  obtain ⟨hset, hrun, -⟩ := h.busy_ok (beq_eq_false_iff_ne.mpr hb)
  obtain ⟨hrunning, hstart, hduration⟩ :=
    sequencerStep_timed h.cfg_ok ⟨hrun, h.dly_start, h.dly_duration⟩
  obtain ⟨hcfg, hid, htxf, hrxf, -, -⟩ := sequencerStep_frame s
  have hset' : (Machine.sequencerStep s).defaultsUnset = false := by
    rw [State.defaultsUnset, hid, hcfg]
    exact hset
  refine ⟨?_, fun _ => ?_, fun _ => hset', fun hbusy => ⟨hset', hrunning, ?_⟩, ?_, ?_, ?_, ?_, hstart,
    hduration⟩
  · rw [hcfg]; exact h.cfg_ok
  · rw [hid, hcfg]; exact h.id_ok hset
  · rcases sequencerStep_end s hb with ⟨hloop, -, -⟩ | ⟨hidle, -, -⟩ | ⟨hidle, -, -⟩
    · exact hloop
    · exact absurd hidle (beq_eq_false_iff_ne.mp hbusy)
    · exact absurd hidle (beq_eq_false_iff_ne.mp hbusy)
  · rw [htxf, hcfg]; exact h.txf_buf
  · rw [hrxf, hcfg]; exact h.rxf_buf
  · rw [htxf, hcfg]; exact h.txf_len
  · rw [hrxf, hcfg]; exact h.rxf_len

theorem Inv.initBegin {s : State} (h : Inv s) : Inv (initBegin s) := by
  obtain ⟨hcfg, hid, htxf, hrxf, -, -, hstep, -, hdly, -⟩ := initBegin_fields s
  obtain ⟨ht, -⟩ := Cfg.wf_durations h.cfg_ok
  have hset : (Machine.initBegin s).defaultsUnset = false := by
    rw [defaultsUnset_eq_false, hid, hcfg]
    exact State.loadedId_chan h.cfg_ok
  refine ⟨?_, fun _ => ?_, fun _ => hset, fun _ => ⟨hset, ?_, ?_⟩, ?_, ?_, ?_, ?_, ?_, ?_⟩
  · rw [hcfg]; exact h.cfg_ok
  · rw [hid, hcfg]; exact h.loadedId
  · rw [hdly]
  · rw [hstep]; decide
  · rw [htxf, hcfg]; exact h.txf_buf
  · rw [hrxf, hcfg]; exact h.rxf_buf
  · rw [htxf, hcfg]; exact h.txf_len
  · rw [hrxf, hcfg]; exact h.rxf_len
  · rw [hdly, hcfg]; exact Io.tickAt_lt _ _ _
  · rw [hdly, hcfg]; exact ht

/-- The length byte of a payload that fits the buffer is within its capacity. -/
theorem ofNat_length_le {n m : Nat} (h : n ≤ m) : (BitVec.ofNat 8 n).toNat ≤ m := by
  rw [BitVec.toNat_ofNat]
  exact (Nat.mod_le _ _).trans h

theorem Inv.rxRun {s : State} (h : Inv s) : Inv (rxRun s) := by
  cases hb : badLength s.cfg (s.io.readAt 0).2
  · rw [rxRun_good hb]
    have hlen := badLength_le hb
    refine { h with rxf_buf := ?_, rxf_len := ofNat_length_le hlen }
    rw [overlay_length _ _ (by rw [rxPayload_length, h.rxf_buf]; exact hlen)]
    exact h.rxf_buf
  · rw [rxRun_bad hb]
    exact { h with rxf_buf := h.rxf_buf, rxf_len := Nat.zero_le _ }

/-- An operation taken by an idle block keeps the invariant. -/
theorem Inv.exec {i : Instr} {s t : State} (h : Inv s) (hidle : s.stepReg = .idle)
    (he : exec i s = .next t) : Inv t := by
  cases exec_cases he with
  | answered _ heq | moved _ _ heq => rw [heq]; exact { h with }
  | stored f heq _ hf =>
    have hid := hf.identity _ h.loadedId
    rw [heq]
    refine { h with
      id_ok := fun _ => hid
      gate_ok := fun _ => defaultsUnset_eq_false.mpr (identityOk_chan h.cfg_ok hid)
      busy_ok := fun hb => absurd hidle (beq_eq_false_iff_ne.mp hb) }
  | delayed d _ heq _ _ _ _ hstart hduration =>
    rw [heq]
    refine { h with
      busy_ok := fun hb => absurd hidle (beq_eq_false_iff_ne.mp hb)
      dly_start := ?_
      dly_duration := ?_ }
    · exact hstart.elim (fun hd => hd ▸ h.dly_start) id
    · exact hduration.elim (fun hd => hd ▸ h.dly_duration) id
  | init heq =>
    rw [heq]
    exact sequencerRun_induct (P := Inv) (fun u hu hI => hI.sequencerStep hu) _ _ h.initBegin
  | sent _ _ _ payload heq _ hfits =>
    rw [heq]
    refine { h with txf_buf := ?_, txf_len := ofNat_length_le hfits }
    exact (overlay_length _ _ (by rw [h.txf_buf]; exact hfits)).trans h.txf_buf
  | received heq => rw [heq]; exact h.rxRun

/-- Just after power-on under a well-formed configuration the invariant holds, with the registers the spec
leaves unspecified at the model's values [3]. -/
theorem inv_powerOn {c : Cfg} (hw : c.wf = true) : Inv (State.powerOn c) where
  cfg_ok := hw
  id_ok h := absurd rfl (defaultsUnset_eq_false.mp h)
  gate_ok h := by cases h
  busy_ok h := by cases h
  txf_buf := List.length_replicate
  rxf_buf := List.length_replicate
  txf_len := Nat.zero_le _
  rxf_len := Nat.zero_le _
  dly_start := Nat.two_pow_pos _
  dly_duration := Nat.two_pow_pos _

/-- Settles O48: power-on under the default configuration. -/
theorem invariantHoldsAtReset : Obligations.InvariantHoldsAtReset := inv_powerOn Tests.test_cfg0_wf

/-- Settles O49: by the cases of a step; the operations and the sequencer's moves keep it, and a reset pulse
establishes it again. -/
theorem everyStepKeepsTheInvariant : Obligations.EveryStepKeepsTheInvariant := by
  intro s t h hstep
  obtain ⟨hw, hcase⟩ := step_cases hstep
  cases hcase with
  | reset _ _ heq => rw [heq]; exact { inv_powerOn hw with }
  | sequencer hb heq => rw [heq]; exact h.sequencerStep hb
  | idle _ _ heq => rw [heq]; exact h
  | awaited _ _ _ heq => rw [heq]; exact { h with }
  | run _ rest _ hidle _ _ heq =>
    have hrest : Inv (s.withInbox rest) := { h with }
    exact hrest.exec hidle heq

end Sys2Proof.Machine
end

section
/-! Two runs that differ only in what the block does not look at. What may differ is a `Hidden`: a relation on
the security key, one on the outbound frame and one on the edge. Every operation takes states alike up to it to
outcomes alike up to it (`exec_alike`), so it gives both statements of this kind: of the transport
answers (60_exceptions.md section 1), and of the key and the outbound frame (10_state.md sections 2 and 3). -/

namespace Sys2Proof.Machine

/-! ### Edges alike -/

/-- A relation of edges that show the same bytes, pin levels and ticks, and that every operation on the edge
keeps. -/
structure EdgeClosed (R : Io → Io → Prop) : Prop where
  bytes : ∀ {io io'}, R io io' → ∀ k, (io.readAt k).2 = (io'.readAt k).2
  ticks : ∀ {io io'}, R io io' → io.ticks = io'.ticks
  pins : ∀ {io io'}, R io io' → io.pins = io'.pins
  emit : ∀ {io io'} e, R io io' → R (io.emit e) (io'.emit e)
  now : ∀ {io io'} w, R io io' → R (io.now w).2 (io'.now w).2
  int : ∀ {io io'}, R io io' → R io.int.2 io'.int.2
  sWrite : ∀ {io io'} a v, R io io' → R (io.sWrite a v) (io'.sWrite a v)
  lWrite : ∀ {io io'} a v, R io io' → R (io.lWrite a v) (io'.lWrite a v)
  sRead : ∀ {io io'} a, R io io' → R (io.sRead a).2 (io'.sRead a).2
  lRead : ∀ {io io'} a, R io io' → R (io.lRead a).2 (io'.lRead a).2

section
variable {R : Io → Io → Prop} {io io' : Io}

theorem EdgeClosed.sWrites (hR : EdgeClosed R) (ws : List (ShortAddr × Byte)) (h : R io io') :
    R (io.sWrites ws) (io'.sWrites ws) := by
  induction ws generalizing io io' with
  | nil => exact h
  | cons w ws ih => exact ih (hR.sWrite w.1 w.2 h)

theorem EdgeClosed.lWrites (hR : EdgeClosed R) (ws : List (LongAddr × Byte)) (h : R io io') :
    R (io.lWrites ws) (io'.lWrites ws) := by
  induction ws generalizing io io' with
  | nil => exact h
  | cons w ws ih => exact ih (hR.lWrite w.1 w.2 h)

theorem EdgeClosed.lReads (hR : EdgeClosed R) (as : List LongAddr) (h : R io io') :
    R (io.lReads as).2 (io'.lReads as).2 := by
  induction as generalizing io io' with
  | nil => exact h
  | cons a as ih => exact ih (hR.lRead a h)

theorem EdgeClosed.pinEvents (hR : EdgeClosed R) (es : List PinEvent) (h : R io io') :
    R (es.foldl (fun io e => io.emit (PinEvent.event e)) io)
      (es.foldl (fun io e => io.emit (PinEvent.event e)) io') := by
  induction es generalizing io io' with
  | nil => exact h
  | cons e es ih => exact ih (hR.emit _ h)

theorem EdgeClosed.rxEpilogue (hR : EdgeClosed R) (c : Cfg) (h : R io io') :
    R (rxEpilogue c io) (rxEpilogue c io') := hR.sRead _ (hR.sWrite _ _ h)

theorem EdgeClosed.rxPayload (hR : EdgeClosed R) (c : Cfg) (n : Nat) (h : R io io') :
    R (rxPayload c n io).2 (rxPayload c n io').2 := by
  cases ht : c.trailerRead <;>
    simp only [Machine.rxPayload, ht, Bool.false_eq_true, if_true, if_false]
  · exact hR.lReads _ h
  · exact hR.lReads _ (hR.lReads _ h)

theorem EdgeClosed.rxPayload_bytes (hR : EdgeClosed R) (c : Cfg) (n : Nat) (h : R io io') :
    (Machine.rxPayload c n io).1 = (Machine.rxPayload c n io').1 := by
  simp only [Machine.rxPayload_bytes, hR.bytes h]

theorem edgeClosed_eq : EdgeClosed Eq where
  bytes h k := by rw [h]
  ticks h := by rw [h]
  pins h := by rw [h]
  emit e h := by rw [h]
  now w h := by rw [h]
  int h := by rw [h]
  sWrite a v h := by rw [h]
  lWrite a v h := by rw [h]
  sRead a h := by rw [h]
  lRead a h := by rw [h]

end

/-! ### States alike -/

/-- What two runs may differ in. -/
structure Hidden where
  key : Vector Byte 16 → Vector Byte 16 → Prop
  txf : OutboundFrame → OutboundFrame → Prop
  io : Io → Io → Prop

/-- A difference that lasts: a key stored by both runs is no difference, a frame built by both is none but
what `txf` already was, and the edges are closed. -/
structure Hidden.Closed (H : Hidden) : Prop where
  key : ∀ k, H.key k k
  txf : ∀ {f f'} dst dpan org payload, H.txf f f' →
    H.txf (builtFrame f dst dpan org payload) (builtFrame f' dst dpan org payload)
  io : EdgeClosed H.io

/-- Identities alike but for the key. -/
structure IdAlike (H : Hidden) (v v' : RadioIdentity) : Prop where
  mac : v.mac = v'.mac
  key : H.key v.key v'.key
  pan : v.pan = v'.pan
  addr : v.addr = v'.addr
  seq : v.seq = v'.seq
  chan : v.chan = v'.chan

/-- States alike but for what is hidden. -/
structure Alike (H : Hidden) (s s' : State) : Prop where
  cfg : s.cfg = s'.cfg
  id : IdAlike H s.id s'.id
  txf : H.txf s.txf s'.txf
  rxf : s.rxf = s'.rxf
  status : s.status = s'.status
  stepReg : s.stepReg = s'.stepReg
  dly : s.dly = s'.dly
  inbox : s.inbox = s'.inbox
  answer : s.answer = s'.answer
  io : H.io s.io s'.io

/-- Outcomes alike: next states alike, or the same refusal. -/
inductive OutAlike (H : Hidden) : Out → Out → Prop
  | next {t t' : State} (h : Alike H t t') : OutAlike H (.next t) (.next t')
  | refused (r : Refusal) : OutAlike H (.refused r) (.refused r)

section
variable {H : Hidden} {s s' : State}

/-! ### Updates of one register -/

theorem Alike.withIo {io io' : Io} (h : Alike H s s') (hio : H.io io io') :
    Alike H (s.withIo io) (s'.withIo io') := { h with io := hio }
theorem Alike.withId {v v' : RadioIdentity} (h : Alike H s s') (hv : IdAlike H v v') :
    Alike H (s.withId v) (s'.withId v') := { h with id := hv }
theorem Alike.withStatus (h : Alike H s s') (v : DriverStatus) :
    Alike H (s.withStatus v) (s'.withStatus v) := { h with status := rfl }
theorem Alike.withStep (h : Alike H s s') (v : SeqStep) :
    Alike H (s.withStep v) (s'.withStep v) := { h with stepReg := rfl }
theorem Alike.withDly (h : Alike H s s') (v : DelayState) :
    Alike H (s.withDly v) (s'.withDly v) := { h with dly := rfl }
theorem Alike.withAnswer (h : Alike H s s') (v : Option Answer) :
    Alike H (s.withAnswer v) (s'.withAnswer v) := { h with answer := rfl }
theorem Alike.give (h : Alike H s s') (a : Answer) : Alike H (s.give a) (s'.give a) := h.withAnswer _
theorem Alike.ret (h : Alike H s s') (r : Result) : Alike H (s.ret r) (s'.ret r) := h.give _

/-! ### Guards -/

theorem OutAlike.unitOp {body : State → Out} (h : Alike H s s') (hb : OutAlike H (body s) (body s')) :
    OutAlike H (unitOp s body) (unitOp s' body) := by
  unfold Machine.unitOp
  rw [h.cfg]
  split
  · exact hb
  · exact .refused _

theorem OutAlike.command {body : State → Out} (h : Alike H s s') (hb : OutAlike H (body s) (body s')) :
    OutAlike H (command s body) (command s' body) := by
  unfold Machine.command State.isIdle
  rw [h.cfg, h.stepReg]
  split
  · split
    · exact hb
    · exact .refused _
  · exact .refused _

theorem OutAlike.gated {body : State → Out} (h : Alike H s s') (hb : OutAlike H (body s) (body s')) :
    OutAlike H (gated s body) (gated s' body) := by
  refine .command h ?_
  unfold State.ready
  rw [h.status]
  split
  · exact hb
  · exact .next (h.ret _)

/-! ### The delay, the loader and the setters -/

theorem Alike.tick (hH : H.Closed) (h : Alike H s s') :
    (s.io.now s.cfg.tickW).1 = (s'.io.now s'.cfg.tickW).1 := by
  rw [Io.now_tick, Io.now_tick, h.cfg, Io.tickAt_congr _ (hH.io.ticks h.io)]

theorem Alike.now (hH : H.Closed) (h : Alike H s s') :
    Alike H (s.withIo (s.io.now s.cfg.tickW).2) (s'.withIo (s'.io.now s'.cfg.tickW).2) := by
  rw [h.cfg]
  exact h.withIo (hH.io.now _ h.io)

theorem Alike.delayInit (hH : H.Closed) (h : Alike H s s') (d : Nat) :
    Alike H (s.delayInit d) (s'.delayInit d) :=
  { h.now hH with dly := by rw [State.delayInit_dly, State.delayInit_dly, ← Io.now_tick, ← Io.now_tick,
      h.tick hH] }

theorem Alike.delayReset (hH : H.Closed) (h : Alike H s s') : Alike H s.delayReset s'.delayReset := by
  refine { h.now hH with dly := ?_ }
  rw [State.delayReset_eq, State.delayReset_eq, ← Io.now_tick, ← Io.now_tick, h.tick hH, h.dly]

theorem Alike.expired (hH : H.Closed) (h : Alike H s s') : s.delayRead.1 = s'.delayRead.1 := by
  unfold State.delayRead
  simp only [h.tick hH]
  rw [h.dly, h.cfg]

theorem Alike.delayRead (hH : H.Closed) (h : Alike H s s') : Alike H s.delayRead.2 s'.delayRead.2 :=
  h.now hH

theorem Alike.loadedId (hH : H.Closed) (h : Alike H s s') : IdAlike H s.loadedId s'.loadedId := by
  unfold State.loadedId
  rw [h.id.chan, h.cfg]
  split
  · exact ⟨rfl, hH.key _, rfl, rfl, rfl, rfl⟩
  · exact h.id

theorem OutAlike.setter (hH : H.Closed) (h : Alike H s s') {valid : State → Bool}
    {f : RadioIdentity → RadioIdentity} (hv : valid s = valid s')
    (hf : ∀ v v', IdAlike H v v' → IdAlike H (f v) (f v')) :
    OutAlike H (setter s valid f) (setter s' valid f) := by
  refine .command h ?_
  simp only [hv, State.store_eq]
  split
  · exact .next { h with id := hf _ _ (h.loadedId hH), answer := rfl }
  · exact .next (h.ret _)

/-! ### The sequencer -/

theorem Alike.edge {f f' : Io → Io} (h : Alike H s s') (hf : H.io (f s.io) (f' s'.io)) :
    Alike H (s.edge f) (s'.edge f') := h.withIo hf

theorem Alike.pollIteration (hH : H.Closed) (h : Alike H s s') {read : Io → Byte × Io} {cond : Byte → Bool}
    {onReady : State → State} (hbyte : (read s.io).1 = (read s'.io).1)
    (hio : H.io (read s.io).2 (read s'.io).2)
    (hon : ∀ u u', Alike H u u' → Alike H (onReady u) (onReady u')) :
    Alike H (pollIteration read cond onReady s) (pollIteration read cond onReady s') := by
  have hread := h.withIo hio
  unfold Machine.pollIteration
  simp only [hbyte, hread.expired hH, h.cfg]
  split
  · exact hon _ _ (hread.delayRead hH)
  · exact (((hread.delayRead hH).withStatus _).withStep _).ret _
  · exact hread.delayRead hH

theorem Alike.waitIteration (hH : H.Closed) (h : Alike H s s') {onExpired : State → State}
    (hon : ∀ u u', Alike H u u' → Alike H (onExpired u) (onExpired u')) :
    Alike H (waitIteration onExpired s) (waitIteration onExpired s') := by
  unfold Machine.waitIteration
  simp only [h.expired hH]
  split
  · exact hon _ _ (h.delayRead hH)
  · exact h.delayRead hH

theorem Alike.initStep2 (hH : H.Closed) (h : Alike H s s') :
    Alike H (initStep2 (initStep1 s)) (initStep2 (initStep1 s')) := by
  unfold Machine.initStep2 Machine.initStep1
  simp only [State.edge_cfg, State.withStep_cfg, h.cfg]
  exact (((h.withStep _).edge (hH.io.sWrite _ _ h.io)).withStep _).delayInit hH _

theorem Alike.initStep3 (hH : H.Closed) (h : Alike H s s') : Alike H (initStep3 s) (initStep3 s') := by
  unfold Machine.initStep3
  rw [h.cfg]
  exact (h.withStep _).delayInit hH _

theorem Alike.initStep7 (hH : H.Closed) (h : Alike H s s') :
    Alike H (initStep7 (initStep6 s)) (initStep7 (initStep6 s')) := by
  have h6 : Alike H (initStep6 s) (initStep6 s') := by
    unfold initStep6
    rw [h.cfg]
    exact (h.withStep _).edge (hH.io.sWrites _ (hH.io.lWrites _ h.io))
  unfold Machine.initStep7
  rw [h6.cfg]
  exact (h6.withStep _).delayInit hH _

theorem Alike.initStep5 (hH : H.Closed) (h : Alike H s s') : Alike H (initStep5 s) (initStep5 s') := by
  unfold Machine.initStep5
  rw [h.cfg, h.id.mac]
  exact (h.withStep _).edge (hH.io.sWrites _ h.io)

theorem Alike.initFrom4 (hH : H.Closed) (h : Alike H s s') : Alike H (initFrom4 s) (initFrom4 s') := by
  have h4 : Alike H (initStep4 s) (initStep4 s') := by
    unfold initStep4
    rw [h.cfg, h.id.pan, h.id.addr]
    exact (h.withStep _).edge (hH.io.sWrites _ h.io)
  exact (h4.initStep5 hH).initStep7 hH

theorem Alike.initStep9 (hH : H.Closed) (h : Alike H s s') :
    Alike H (initStep9 (initStep8 s)) (initStep9 (initStep8 s')) := by
  have h8 : Alike H (initStep8 s) (initStep8 s') := by
    unfold initStep8
    rw [h.cfg]
    exact (h.withStep _).edge (hH.io.sWrites _ h.io)
  unfold Machine.initStep9
  rw [h8.cfg, h8.id.chan]
  refine Alike.delayInit hH ?_ _
  exact (h8.withStep _).edge (hH.io.sWrites _ (hH.io.lWrite _ _ h8.io))

theorem Alike.initStep10 (hH : H.Closed) (h : Alike H s s') : Alike H (initStep10 s) (initStep10 s') := by
  unfold Machine.initStep10
  rw [h.cfg]
  exact (h.withStep _).edge (hH.io.sWrite _ _ h.io)

theorem Alike.initStep11 (hH : H.Closed) (h : Alike H s s') : Alike H (initStep11 s) (initStep11 s') := by
  unfold Machine.initStep11
  rw [h.cfg]
  exact ((((h.withStep _).edge (hH.io.sRead _ h.io)).withStatus _).withStep _).ret _

theorem Alike.initStep3Flush (hH : H.Closed) (h : Alike H s s') :
    Alike H (initStep3Flush s) (initStep3Flush s') := by
  unfold Machine.initStep3Flush
  rw [h.cfg]
  exact h.edge (hH.io.sWrite _ _ h.io)

theorem Alike.sequencerStep (hH : H.Closed) (h : Alike H s s') :
    Alike H (sequencerStep s) (sequencerStep s') := by
  have hs' := h.stepReg
  have hbyte := hH.io.bytes h.io 0
  cases hs : s.stepReg <;> rw [hs] at hs' <;> simp only [Machine.sequencerStep, hs, ← hs']
  case idle => exact h
  case step1 => exact h.initStep2 hH
  case step2 =>
    rw [h.cfg]
    exact h.pollIteration hH (by simpa using hbyte) (hH.io.sRead _ h.io) fun u u' hu => hu.initStep3 hH
  case step3 => exact h.waitIteration hH fun u u' hu => (hu.initStep3Flush hH).initFrom4 hH
  case step4 => exact h.initFrom4 hH
  case step5 => exact (h.initStep5 hH).initStep7 hH
  case step6 => exact h.initStep7 hH
  case step7 =>
    rw [h.cfg]
    exact h.pollIteration hH (by simpa using hbyte) (hH.io.lRead _ h.io) fun u u' hu => hu.initStep9 hH
  case step8 => exact h.initStep9 hH
  case step9 => exact h.waitIteration hH fun u u' hu => (hu.initStep10 hH).initStep11 hH
  case step10 => exact (h.initStep10 hH).initStep11 hH
  case step11 => exact h.initStep11 hH

theorem Alike.sequencerRun (hH : H.Closed) (n : Nat) (h : Alike H s s') :
    Alike H (sequencerRun n s) (sequencerRun n s') := by
  induction n generalizing s s' with
  | zero => exact h
  | succ n ih =>
    unfold Machine.sequencerRun State.isIdle
    rw [h.stepReg]
    split
    · exact h
    · exact ih (h.sequencerStep hH)

theorem Alike.initBegin (hH : H.Closed) (h : Alike H s s') : Alike H (initBegin s) (initBegin s') := by
  have hload : Alike H (s.loadDef.withAnswer none) (s'.loadDef.withAnswer none) := by
    rw [State.loadDef_eq, State.loadDef_eq]
    exact (h.withId (h.loadedId hH)).withAnswer none
  refine Alike.initStep2 hH ?_
  unfold pinPrologue
  rw [hload.cfg]
  exact hload.edge (hH.io.pinEvents _ hload.io)

/-! ### Frames sent and received -/

theorem Alike.txAccepted (hH : H.Closed) (h : Alike H s s') (dst : Half) (dpan org : Option Half)
    (payload : List Byte) :
    Alike H (txAccepted s dst dpan org payload) (txAccepted s' dst dpan org payload) := by
  have hframe : s.txFrame dst dpan org payload = s'.txFrame dst dpan org payload := by
    unfold State.txFrame
    rw [h.cfg, h.id.seq, h.id.pan, h.id.addr]
  rw [txAccepted_eq, txAccepted_eq, hframe, h.cfg]
  exact { h with
    cfg := rfl
    id := { h.id with seq := congrArg (· + 1#8) h.id.seq }
    txf := hH.txf dst dpan org payload h.txf
    answer := rfl
    io := hH.io.sWrite _ _ (hH.io.lWrites _ h.io) }

theorem Alike.rxHeader (hH : H.Closed) (h : Alike H s s') : H.io (rxHeader s) (rxHeader s') := by
  unfold Machine.rxHeader
  rw [h.cfg]
  exact hH.io.lRead _ (hH.io.lRead _ (hH.io.lRead _ (hH.io.sWrites _ h.io)))

theorem Alike.rxRun (hH : H.Closed) (h : Alike H s s') : Alike H (rxRun s) (rxRun s') := by
  have hbyte := hH.io.bytes h.io
  have hheader := h.rxHeader hH
  cases hb : badLength s.cfg (s.io.readAt 0).2
  · have hb' := hb
    rw [h.cfg, hbyte] at hb'
    rw [rxRun_good hb, rxRun_good hb', hbyte, hbyte, hbyte, h.cfg, h.rxf,
      hH.io.rxPayload_bytes _ _ hheader]
    exact { h with
      cfg := rfl
      rxf := rfl
      answer := rfl
      io := hH.io.rxEpilogue _ (hH.io.rxPayload _ _ hheader) }
  · have hb' := hb
    rw [h.cfg, hbyte] at hb'
    rw [rxRun_bad hb, rxRun_bad hb', hbyte, hbyte, h.cfg, h.rxf]
    exact { h with
      cfg := rfl
      rxf := rfl
      answer := rfl
      io := hH.io.rxEpilogue _ hheader }

/-! ### Every operation -/

theorem Alike.isNew (hH : H.Closed) (h : Alike H s s') :
    Alike H ((s.withIo s.io.int.2).ret (pendingResult s.io.int.1))
      ((s'.withIo s'.io.int.2).ret (pendingResult s'.io.int.1)) := by
  have hpin : s.io.int.1 = s'.io.int.1 := by
    rw [Io.int_eq, Io.int_eq, Io.pinAt, Io.pinAt, hH.io.pins h.io]
  rw [hpin]
  exact (h.withIo (hH.io.int h.io)).ret _

/-- What a register access hands back and where it leaves the edge, when both edges are the same. -/
theorem Alike.access (h : Alike H s s') (hio : s.io = s'.io) {f : Io → Io} (g : Io → Answer)
    (hf : H.io (f s.io) (f s'.io)) :
    Alike H ((s.withIo (f s.io)).give (g s.io)) ((s'.withIo (f s'.io)).give (g s'.io)) := by
  have hg : g s.io = g s'.io := congrArg g hio
  rw [hg]
  exact (h.withIo hf).give _

/-- Runs of an operation from states alike end alike; a register access, which hands the transport's result
back, needs the edges to be the same. -/
theorem exec_alike (hH : H.Closed) (h : Alike H s s') (i : Instr)
    (hra : i.isRegAccess = true → s.io = s'.io) : OutAlike H (exec i s) (exec i s') := by
  cases i with
  | init =>
    simp only [exec, execInit]
    refine .command h (.next ?_)
    rw [hH.io.ticks h.io]
    exact (h.initBegin hH).sequencerRun hH _
  | setCh ch =>
    simp only [exec, execSetCh]
    exact .setter hH h (by rw [h.cfg]) fun _ _ hv => { hv with chan := rfl }
  | setPan pan =>
    simp only [exec, execSetPan]
    exact .setter hH h (by rw [h.cfg]) fun _ _ hv => { hv with pan := rfl }
  | setAddr addr =>
    simp only [exec, execSetAddr]
    exact .setter hH h (by rw [h.cfg]) fun _ _ hv => { hv with addr := rfl }
  | setSeq seq =>
    simp only [exec, execSetSeq]
    exact .setter hH h rfl fun _ _ hv => { hv with seq := rfl }
  | setMac mac =>
    simp only [exec, execSetMac]
    exact .setter hH h rfl fun _ _ hv => { hv with mac := rfl }
  | setKey key =>
    simp only [exec, execSetKey]
    exact .setter hH h rfl fun _ _ hv => { hv with key := hH.key key }
  | tx dst dpan org payload =>
    simp only [exec, execTx]
    refine .gated h ?_
    rw [h.cfg]
    split_ifs
    · exact .next (h.ret _)
    · exact .next (h.ret _)
    · exact .next (h.ret _)
    · exact .next (h.txAccepted hH _ _ _ _)
    · exact .refused _
  | isNew =>
    simp only [exec, execIsNew]
    exact .gated h (.next (h.isNew hH))
  | rx =>
    simp only [exec, execRx]
    exact .gated h (.next (h.rxRun hH))
  | getLast =>
    simp only [exec, execGetLast]
    exact .command h (.next (h.give _))
  | discover =>
    simp only [exec, execDiscover]
    exact .gated h (.next (h.ret _))
  | dlyInit d =>
    simp only [exec, execDlyInit]
    refine .unitOp h ?_
    rw [h.cfg]
    split
    · exact .next ((h.delayInit hH d).give _)
    · exact .refused _
  | dlyRead =>
    simp only [exec, execDlyRead]
    refine .unitOp h ?_
    rw [h.dly, h.expired hH]
    split
    · exact .next ((h.delayRead hH).give _)
    · exact .refused _
  | dlyReset =>
    simp only [exec, execDlyReset]
    exact .unitOp h (.next ((h.delayReset hH).give _))
  | dlyWrite d =>
    simp only [exec, execDlyWrite]
    refine .unitOp h ?_
    rw [h.cfg, h.dly]
    split
    · exact .next ((h.withDly _).give _)
    · exact .refused _
  | encSr | encSw | encLr | encLw =>
    simp only [exec, execEncSr, execEncSw, execEncLr, execEncLw]
    exact .unitOp h (.next (h.give _))
  | raSrd a null =>
    simp only [exec, execRaSrd]
    refine .unitOp h ?_
    split
    · exact .next (h.give _)
    · exact .next (h.access (hra rfl) (f := fun io => (io.shortRead a).2)
        (fun io => .read (io.shortRead a).1.1 (some (io.shortRead a).1.2)) (hH.io.sRead a h.io))
  | raSwr a v =>
    simp only [exec, execRaSwr]
    exact .unitOp h (.next (h.access (hra rfl) (f := fun io => (io.shortWrite a v).2)
      (fun io => .result (io.shortWrite a v).1) (hH.io.sWrite a v h.io)))
  | raLrd a null =>
    simp only [exec, execRaLrd]
    refine .unitOp h ?_
    split
    · exact .next (h.give _)
    · exact .next (h.access (hra rfl) (f := fun io => (io.longRead a).2)
        (fun io => .read (io.longRead a).1.1 (some (io.longRead a).1.2)) (hH.io.lRead a h.io))
  | raLwr a v =>
    simp only [exec, execRaLwr]
    exact .unitOp h (.next (h.access (hra rfl) (f := fun io => (io.longWrite a v).2)
      (fun io => .result (io.longWrite a v).1) (hH.io.lWrite a v h.io)))

theorem OutAlike.next_left {t : State} {o : Out} (h : OutAlike H (.next t) o) :
    ∃ t', o = .next t' ∧ Alike H t t' := by
  cases h with
  | next h => exact ⟨_, rfl, h⟩

end

/-! ### The key and the outbound frame -/

/-- Runs that differ in the key and in the outbound frame. -/
def hiddenUnread : Hidden := ⟨fun _ _ => True, fun _ _ => True, Eq⟩

theorem hiddenUnread_closed : hiddenUnread.Closed := ⟨fun _ => trivial, fun _ _ _ _ _ => trivial, edgeClosed_eq⟩

theorem sameButUnread_iff {s s' : State} : SameButUnread s s' ↔ Alike hiddenUnread s s' := by
  constructor <;> intro h
  · exact { h with id := { h with key := trivial }, txf := trivial }
  · exact { h with mac := h.id.mac, pan := h.id.pan, addr := h.id.addr, seq := h.id.seq, chan := h.id.chan }

/-- Settles O55: only the key and the outbound frame differ, the edges are the same. -/
theorem keyAndOutboundFrameAreNeverRead : Obligations.KeyAndOutboundFrameAreNeverRead := by
  intro i s s' t h he
  have hout := exec_alike hiddenUnread_closed (sameButUnread_iff.mp h) i fun _ => h.io
  rw [he] at hout
  obtain ⟨t', ht', hal⟩ := hout.next_left
  exact ⟨t', ht', sameButUnread_iff.mpr hal⟩

/-! ### The transport answers -/

/-- Feeds of read answers with the same bytes to come, whatever their `ok` is. -/
structure SameBytes (q q' : Feed (Bool × Byte)) : Prop where
  bytes : q.given.map Prod.snd = q'.given.map Prod.snd
  drawn : q.drawn = q'.drawn

theorem SameBytes.length {q q' : Feed (Bool × Byte)} (h : SameBytes q q') :
    q.given.length = q'.given.length := by
  simpa using congrArg List.length h.bytes

theorem SameBytes.nth {q q' : Feed (Bool × Byte)} (h : SameBytes q q') (k : Nat) :
    (q.nth Config.freeRead k).2 = (q'.nth Config.freeRead k).2 := by
  have hk : q.given[k]?.map Prod.snd = q'.given[k]?.map Prod.snd := by
    simpa using congrArg (·[k]?) h.bytes
  unfold Feed.nth
  rw [h.length, h.drawn]
  rcases hq : q.given[k]? with _ | a <;> rcases hq' : q'.given[k]? with _ | a' <;>
    simp only [hq, hq', Option.map_none, Option.map_some, reduceCtorEq, Option.some.injEq] at hk ⊢
  exact hk

theorem SameBytes.skip {q q' : Feed (Bool × Byte)} (h : SameBytes q q') (k : Nat) :
    SameBytes (q.skip k) (q'.skip k) := by
  constructor
  · simp only [Feed.skip, List.map_drop, h.bytes]
  · simp only [Feed.skip, h.drawn, h.length]

theorem SameButOk.reads {io io' : Io} (h : SameButOk io io') : SameBytes io.reads io'.reads :=
  ⟨h.bytes, h.drawn⟩

theorem sameButOk_of {io io' : Io} (reads : SameBytes io.reads io'.reads) (pins : io.pins = io'.pins)
    (ticks : io.ticks = io'.ticks) (calls : io.calls = io'.calls) : SameButOk io io' :=
  ⟨reads.bytes, reads.drawn, pins, ticks, calls⟩

theorem Io.emit_calls (e : Event) (io : Io) : (io.emit e).calls = io.calls ++ [e.call] := by
  simp [Io.calls]

theorem edgeClosed_sameButOk : EdgeClosed SameButOk where
  bytes h := h.reads.nth
  ticks h := h.ticks
  pins h := h.pins
  emit e h := { h with calls := by rw [Io.emit_calls, Io.emit_calls, h.calls] }
  now w h := sameButOk_of (by simpa using h.reads) (by simp [h.pins]) (by simp [h.ticks]) (by simp [h.calls])
  int h := by
    rw [Io.int_eq, Io.int_eq]
    exact sameButOk_of h.reads (by simp [h.pins]) h.ticks (by simpa [Io.calls, Event.call] using h.calls)
  sWrite a v h :=
    sameButOk_of (by simpa using h.reads) (by simp [h.pins]) (by simp [h.ticks]) (by simp [h.calls])
  lWrite a v h :=
    sameButOk_of (by simpa using h.reads) (by simp [h.pins]) (by simp [h.ticks]) (by simp [h.calls])
  sRead a h :=
    sameButOk_of (by simpa using h.reads.skip 1) (by simp [h.pins]) (by simp [h.ticks]) (by simp [h.calls])
  lRead a h :=
    sameButOk_of (by simpa using h.reads.skip 1) (by simp [h.pins]) (by simp [h.ticks]) (by simp [h.calls])

/-- Runs that differ in the transport answers. -/
def hiddenOk : Hidden := ⟨Eq, Eq, SameButOk⟩

theorem hiddenOk_closed : hiddenOk.Closed :=
  ⟨fun _ => rfl, fun _ _ _ _ h => congrArg (builtFrame · _ _ _ _) h, edgeClosed_sameButOk⟩

theorem IdAlike.eq {v v' : RadioIdentity} (h : IdAlike hiddenOk v v') : v = v' := by
  cases v
  cases v'
  exact RadioIdentity.mk.injEq .. ▸ ⟨h.mac, h.key, h.pan, h.addr, h.seq, h.chan⟩

/-- Such runs have the same registers and the same answer. -/
theorem Alike.eq_withIo {t t' : State} (h : Alike hiddenOk t t') : t' = { t with io := t'.io } := by
  exact State.eq_of_fields h.cfg.symm h.id.eq.symm h.txf.symm h.rxf.symm h.status.symm h.stepReg.symm h.dly.symm
    h.inbox.symm h.answer.symm rfl

/-- Settles O54: only the transport answers of the two edges differ. -/
theorem transportAnswersChangeNoResult : Obligations.TransportAnswersChangeNoResult := by
  intro i s io' t hi h he
  have hs : Alike hiddenOk s { s with io := io' } :=
    ⟨rfl, ⟨rfl, rfl, rfl, rfl, rfl, rfl⟩, rfl, rfl, rfl, rfl, rfl, rfl, rfl, h⟩
  have hout := exec_alike hiddenOk_closed hs i fun hra => absurd hra (by simp [hi])
  rw [he] at hout
  obtain ⟨t', ht', hal⟩ := hout.next_left
  exact ⟨t'.io, by rw [ht', ← hal.eq_withIo], hal.io⟩

end Sys2Proof.Machine
end

section
/-! What a step does by what is presented to it (20_memory.md section 7, 70_reset_and_hazards.md section 1),
and the state a reset leaves (10_state.md R34). -/

namespace Sys2Proof.Machine

section
variable {s : State} {rest : List Input}

theorem isIdle_of_accepts (h : s.accepts) : s.isIdle = true := beq_iff_eq.mpr h.2

theorem nextAction_request (h : s.accepts) {w : PortWord} (hin : s.inbox = .request w :: rest) :
    nextAction s = present w (s.withInbox rest) := by
  simp only [nextAction, h.1, hin, isIdle_of_accepts h, if_true]

theorem step_run (h : s.accepts) {w : PortWord} {i : Instr} (hin : s.inbox = .request w :: rest)
    (hd : decode s.cfg w = .ok i) : step s = exec i (s.withInbox rest) := by
  simp only [step, nextAction_request h hin, present, State.withInbox_cfg, hd]

theorem step_rejected (h : s.accepts) {w : PortWord} {why : DecodeError} (hin : s.inbox = .request w :: rest)
    (hd : decode s.cfg w = .error why) : step s = .refused (.rejectedWord why) := by
  simp only [step, nextAction_request h hin, present, State.withInbox_cfg, hd]

theorem step_idle (h : s.accepts) (hin : s.inbox = []) : step s = .next s := by
  simp only [step, nextAction, h.1, hin, isIdle_of_accepts h, if_true]

theorem step_await (h : s.accepts) (hin : s.inbox = .await :: rest) :
    step s = .next (s.withInbox rest) := by
  simp only [step, nextAction, h.1, hin, isIdle_of_accepts h, if_true]

theorem step_reset (hw : s.cfg.wf = true) (hin : s.inbox = .reset :: rest) :
    step s = .next (s.withInbox rest).resetInput := by
  simp only [step, nextAction, hw, hin, if_true]

theorem step_illFormed (hw : s.cfg.wf = false) : step s = .refused .illFormedCfg := by
  simp only [step, nextAction, hw, Bool.false_eq_true, if_false]

end

/-- Settles O7: the word is taken from the inbox before it is run. -/
theorem stepRunsTheDecodedInstruction : Obligations.StepRunsTheDecodedInstruction :=
  fun _ _ _ _ h hin hd => step_run h hin hd

/-- Settles O8: one clause for each other thing a step finds to do. -/
theorem stepOtherwise : Obligations.StepOtherwise :=
  fun _ => ⟨step_idle, fun _ => step_await, fun _ _ _ h hin hd => step_rejected h hin hd, step_busy,
    step_illFormed⟩

/-- Settles O15: the pulse leaves power-on, with the edge and the inputs still to come put back. -/
theorem resetInputResets : Obligations.ResetInputResets :=
  fun _ _ hw hin => ⟨_, step_reset hw hin, rfl, rfl, rfl, rfl, rfl, rfl, rfl, rfl, rfl⟩

/-- Settles O12: power-on's fields; the two arrays hold copies of the zero byte. -/
theorem resetState : Obligations.ResetState := by
  have hzero : ∀ n, ∀ b ∈ (Vector.replicate n 0#8).toList, b = 0#8 := fun n b hb => by
    rw [Vector.toList_replicate] at hb
    exact List.eq_of_mem_replicate hb
  exact ⟨rfl, rfl, rfl, rfl, rfl, rfl, rfl, rfl, hzero 8, hzero 16, rfl, rfl, rfl, rfl, rfl, rfl, rfl, rfl, rfl,
    rfl, rfl, rfl, rfl, rfl, rfl, rfl, rfl⟩

/-- Settles O13: the codes are read off their tables; their bounds hold code by code. -/
theorem numbersOfResultsStatusAndStep : Obligations.NumbersOfResultsStatusAndStep := by
  have hresult : ∀ r : Result, r.code.toNat ≤ 0xD := fun r => by cases r <;> decide
  have hstep : ∀ n : SeqStep, n.code.toNat ≤ 11 := fun n => by cases n <;> decide
  exact ⟨⟨rfl, rfl, rfl, rfl, rfl, rfl, rfl, rfl, rfl, rfl, rfl, rfl, rfl, rfl, hresult⟩, ⟨rfl, rfl, rfl⟩,
    ⟨rfl, rfl, rfl, rfl, rfl, rfl, rfl, rfl, rfl, rfl, rfl, rfl, hstep⟩, fun _ => rfl, rfl, fun _ _ => rfl, rfl,
    fun _ => rfl, fun _ => rfl, fun _ => rfl⟩

end Sys2Proof.Machine
end

section
/-! `DLY.READ`, `DLY.RESET` and durations out of range (40_delay.md R112 to R116), `SET.CH` (43_config.md
R172), and the operations behind the gate that need no loop. -/

namespace Sys2Proof.Machine

section
variable {s : State}

theorem exec_dlyRead_of_running (hwf : s.cfg.wf = true) (hr : s.dly.running = true) :
    exec .dlyRead s = .next (s.delayRead.2.give (.expired s.delayRead.1)) := by
  simp only [exec, execDlyRead, unitOp_wf hwf, hr, if_true]

theorem exec_dlyRead_of_not_running (hwf : s.cfg.wf = true) (hr : s.dly.running = false) :
    exec .dlyRead s = .refused .delayNotRunning := by
  simp only [exec, execDlyRead, unitOp_wf hwf, hr, Bool.false_eq_true, if_false]

theorem exec_dlyReset_of_wf (hwf : s.cfg.wf = true) :
    exec .dlyReset s = .next (s.delayReset.give .done) := by
  simp only [exec, execDlyReset, unitOp_wf hwf]

/-- The answer of an elapsed check, its start tick in the counter's range. -/
theorem delayRead_expired (hs : s.dly.start < 2 ^ s.cfg.tickW) :
    s.delayRead.1 = decide (s.dly.duration ≤
      (s.io.tickAt s.cfg.tickW 0 + 2 ^ s.cfg.tickW - s.dly.start) % 2 ^ s.cfg.tickW) := by
  rw [State.delayRead_eq, DelayState.expiredAt, tickSub_of_lt _ hs]

theorem exec_setCh_of_accepts (h : s.accepts) (ch : Byte) :
    exec (.setCh ch) s = .next (if ch ∈ s.cfg.chanValues.toList
      then { s with id := { s.loadedId with chan := ch }, answer := some (.result .ok) }
      else { s with answer := some (.result .invalidValue) }) := by
  simp only [exec, execSetCh, setter_accepts h, isChannel, List.contains_iff_mem]

end

/-- Settles O17: the one tick taken is compared modulo the counter's width. -/
theorem delayReadTellsExpiry : Obligations.DelayReadTellsExpiry := by
  refine fun s hwf hs => ⟨fun hr => ?_, exec_dlyRead_of_not_running hwf, rfl⟩
  rw [exec_dlyRead_of_running hwf hr, delayRead_expired hs, State.delayRead_eq]
  rfl

/-- Settles O18: the elapsed count is the one `e` below the counter's range with the given remainder. -/
theorem delayReadIsRightAcrossOverflow : Obligations.DelayReadIsRightAcrossOverflow := by
  intro s e hwf hr hs he htick
  have helapsed :
      ((s.dly.start + e) % 2 ^ s.cfg.tickW + 2 ^ s.cfg.tickW - s.dly.start) % 2 ^ s.cfg.tickW = e := by
    rw [Nat.add_sub_assoc hs.le, Nat.mod_add_mod,
      show s.dly.start + e + (2 ^ s.cfg.tickW - s.dly.start) = e + 2 ^ s.cfg.tickW by omega,
      Nat.add_mod_right, Nat.mod_eq_of_lt he]
  refine ⟨_, exec_dlyRead_of_running hwf hr, ?_, rfl⟩
  rw [State.give_answer, delayRead_expired hs, htick, helapsed]

/-- Settles O19: the tick is captured again and the duration stays. -/
theorem delayResetKeepsTheDuration : Obligations.DelayResetKeepsTheDuration := by
  refine fun s hwf => ⟨?_, rfl⟩
  rw [exec_dlyReset_of_wf hwf, State.delayReset_eq]
  rfl

/-- Settles O21: both operations check their duration first. -/
theorem durationOutOfRangeIsRefused : Obligations.DurationOutOfRangeIsRefused := by
  intro d s hwf hd
  rw [exec_dlyInit_of_wf hwf, exec_dlyWrite_of_wf hwf, if_neg (Nat.not_lt.mpr hd), if_neg (Nat.not_lt.mpr hd)]
  exact ⟨rfl, rfl⟩

/-- Settles O26: the setter's check is membership in the enumeration. -/
theorem setChannelAcceptsTheSixteenValues : Obligations.SetChannelAcceptsTheSixteenValues :=
  fun ch _ h => ⟨exec_setCh_of_accepts h ch, [ch], rfl⟩

/-- Settles O45: past the gate the pin's one answer is mapped to the result. -/
theorem isNewSamplesThePinOnce : Obligations.IsNewSamplesThePinOnce := by
  refine fun s h hr => ⟨?_, rfl⟩
  simp only [exec, execIsNew, gated_ready h hr, Io.int_eq]
  rfl

/-- Settles O47: past the gate the body is the answer alone. -/
theorem discoverDoesNothing : Obligations.DiscoverDoesNothing := by
  refine fun s h hr => ⟨?_, rfl⟩
  simp only [exec, execDiscover, gated_ready h hr]
  rfl

/-! ### `TX` -/

/-- The transmit FIFO's bound (00_scope.md R8 line 3). -/
theorem Cfg.wf_txFifo {c : Cfg} (h : c.wf = true) : c.map.txFifoBase.toNat + c.hdrLen + c.maxBuf ≤ 1023 := by
  obtain ⟨-, -, htx, -⟩ := Cfg.wf_lines h
  simp only [Cfg.wfTx, Bool.and_eq_true, decide_eq_true_eq] at htx
  exact htx.2

/-- Settles O40: the checks pass and the position does not, which line 3 of R8 leaves room for only under a
short header. -/
theorem txBeyondTheLongSpaceIsRefused : Obligations.TxBeyondTheLongSpaceIsRefused := by
  intro dst dpan org payload s h hr hdst hpos hmax hfar
  have hbound := Cfg.wf_txFifo h.1
  have hbad : ¬ positionOk s.cfg.map.txFifoBase (11 + payload.length) = true := by
    rw [positionOk, decide_eq_true_iff]
    omega
  refine ⟨?_, by omega⟩
  rw [exec_tx_of_ready h hr, if_neg hdst, if_neg hpos, if_neg (Nat.not_lt.mpr hmax), if_neg hbad]

theorem Io.lWrites_trace_length (ws : List (LongAddr × Byte)) (io : Io) :
    (io.lWrites ws).trace.length = io.trace.length + 4 * ws.length := by
  induction ws generalizing io with
  | nil => rfl
  | cons w ws ih =>
    have hw : (io.lWrite w.1 w.2).trace.length = io.trace.length + 4 := by
      rw [Io.lWrite, Io.longWrite_eq, List.length_append]
      rfl
    rw [Io.lWrites, ih, hw, List.length_cons]
    omega

theorem Io.sWrite_trace_length (a : ShortAddr) (v : Byte) (io : Io) :
    (io.sWrite a v).trace.length = io.trace.length + 4 := by
  rw [Io.sWrite, Io.shortWrite_eq, List.length_append]
  rfl

/-- Settles O39: twelve bytes and the payload, each a long write, and the trigger: four events each. -/
theorem txEmitsFiftyTwoAndFourPerByte : Obligations.TxEmitsFiftyTwoAndFourPerByte := by
  intro dst dpan org payload s t h ht
  obtain ⟨-, ⟨r, hr, rfl⟩ | ⟨-, -, -, -, -, rfl⟩⟩ := execTx_next h
  · rw [State.ret_answer, Option.some.injEq, Answer.result.injEq] at ht
    subst ht
    exact absurd hr (by decide)
  · obtain ⟨hreads, -⟩ := txAccepted_feeds s dst dpan org payload
    refine ⟨?_, hreads⟩
    rw [txAccepted_eq, Io.sWrite_trace_length, Io.lWrites_trace_length, atPositions_length, State.txFrame,
      frameBytes_length]
    omega

end Sys2Proof.Machine
end

section
/-! `RX` past its gate (45_parser.md R203 to R208): the frame by its read answers, the calls by the positions
they read. -/

namespace Sys2Proof.Machine

section
variable {s : State}

theorem exec_rx_of_ready (h : s.accepts) (hr : s.status = .initOk) : exec .rx s = .next (rxRun s) := by
  simp only [exec, execRx, gated_ready h hr]

/-- Long reads at FIFO positions (20_memory.md R50). -/
theorem longReadsCalls_map_position (base : LongAddr) (ps : List Nat) :
    longReadsCalls (ps.map (position base)) =
      ps.flatMap fun p => longReadCalls (BitVec.ofNat 10 (base.toNat + p)) := by
  rw [longReadsCalls, List.flatMap_map]
  rfl

/-- The calls of `RX` before its length check. -/
theorem rxHeader_position_calls (s : State) :
    (rxHeader s).calls = s.io.calls ++ shortWriteCalls s.cfg.map.regBbReg1 s.cfg.map.rxDecInvOn ++
      shortWriteCalls s.cfg.map.regRxFlush s.cfg.map.rxFlushRx ++
      [0, 9, 8].flatMap (fun p => longReadCalls (BitVec.ofNat 10 (s.cfg.map.rxFifoBase.toNat + p))) := by
  rw [rxHeader_calls, rxPrologue_calls, longReadsCalls_map_position]
  simp only [List.append_assoc]

theorem rxPayload_position_calls (c : Cfg) (n : Nat) (io : Io) :
    (rxPayload c n io).2.calls = io.calls ++ (List.range' (c.hdrLen - 1) (rxReads c n)).flatMap
      fun p => longReadCalls (BitVec.ofNat 10 (c.map.rxFifoBase.toNat + p)) := by
  rw [rxPayload_calls, positions_eq, longReadsCalls_map_position]

/-- The payload of `RX`: the read answers after the three of the header. -/
theorem rxPayload_rxHeader_bytes (s : State) (n : Nat) :
    (rxPayload s.cfg n (rxHeader s)).1 = (List.range n).map fun k => (s.io.readAt (3 + k)).2 := by
  simp only [rxPayload_bytes, Io.readAt_skip (rxHeader_reads s)]

end

/-- Settles O43: the epilogue follows the header at once, and the buffer is kept. -/
theorem rxRejectsABadLength : Obligations.RxRejectsABadLength := by
  intro s h hr hlen
  refine ⟨rxEpilogue s.cfg (rxHeader s), ?_, ?_, ?_, ?_, ?_⟩
  · rw [exec_rx_of_ready h hr, rxRun_bad (badLength_true hlen)]
    rfl
  · rw [rxEpilogue_pins, rxHeader_pins]
  · rw [rxEpilogue_ticks, rxHeader_ticks]
  · rw [rxEpilogue_reads, rxHeader_reads, Feed.skip_skip]
  · rw [rxEpilogue_calls, rxHeader_position_calls]
    simp only [List.append_assoc]

/-- Settles O42: the payload follows the header, read from consecutive positions that the trailer's reads
continue. -/
theorem rxDecodesTheFrame : Obligations.RxDecodesTheFrame := by
  intro s n h hr hlen hn
  have hsub : (s.io.readAt 0).2.toNat - trailerLen = n := Nat.sub_eq_of_eq_add hlen
  have hreads : rxReads s.cfg n = if s.cfg.trailerRead then n + 4 else n := rfl
  refine ⟨rxEpilogue s.cfg (rxPayload s.cfg n (rxHeader s)).2, ?_, ?_, ?_, ?_, ?_, rfl⟩
  · rw [exec_rx_of_ready h hr, rxRun_good (badLength_false hlen hn), hsub, overlay, rxPayload_length,
      rxPayload_rxHeader_bytes]
    rfl
  · rw [rxEpilogue_pins, rxPayload_pins, rxHeader_pins]
  · rw [rxEpilogue_ticks, rxPayload_ticks, rxHeader_ticks]
  · rw [rxEpilogue_reads, rxPayload_reads, rxHeader_reads, Feed.skip_skip, Feed.skip_skip, hreads]
    congr 1
    split <;> omega
  · rw [rxEpilogue_calls, rxPayload_position_calls, rxHeader_position_calls, hreads, List.flatMap_append]
    simp only [List.append_assoc]

/-- Settles O44: line 4 of R8 bounds every position read, so none wraps. -/
theorem rxPositionsAreLongAddresses : Obligations.RxPositionsAreLongAddresses := by
  intro c n p hw hn hp
  obtain ⟨-, -, -, hrx, -⟩ := Cfg.wf_lines hw
  simp only [Cfg.wfRx, Bool.and_eq_true, decide_eq_true_eq] at hrx
  have htrailer : trailerLen = 4 := rfl
  have hle : c.map.rxFifoBase.toNat + p ≤ 1023 := by
    simp only [List.cons_append, List.nil_append, List.mem_cons, List.mem_range'_1] at hp
    omega
  rw [position, BitVec.toNat_ofNat]
  exact Nat.mod_eq_of_lt (by omega)

end Sys2Proof.Machine
end

section
/-! `INIT` by one move: how every command and every move ends (42_init.md, terminal outcomes), and what one
iteration of a poll or of a settle wait does, whatever the environment answers. -/

namespace Sys2Proof.Machine

/-! ### Endings -/

theorem exec_init_of_accepts {s : State} (h : s.accepts) :
    exec .init s = .next (sequencerRun s.io.ticks.given.length (initBegin s)) := by
  simp only [exec, execInit, command_accepts h]

/-- Settles O33: what a run of the sequencer leaves alone, and how it ends. -/
theorem initEndsInSuccessOrTimeout : Obligations.InitEndsInSuccessOrTimeout := by
  intro s h
  obtain ⟨hcfg, hid, htxf, hrxf, hinbox, hpins⟩ := initRun_frame s.io.ticks.given.length s
  have hend := initRun_end s.io.ticks.given.length s
  refine ⟨_, exec_init_of_accepts h, hid, hcfg, htxf, hrxf, hinbox, hpins, hend.ended, fun hb => ?_⟩
  obtain ⟨hstatus, hanswer, -⟩ := hend.looping hb
  exact ⟨hstatus, hanswer⟩

/-- Settles O34: a step inside an `INIT` is one move, which ends in one of the three ways of `SeqEnd`. -/
theorem statusIsWrittenAtTheEndOfInit : Obligations.StatusIsWrittenAtTheEndOfInit := by
  intro s hw hb hu
  obtain ⟨hcfg, hid, htxf, hrxf, hinbox, hpins⟩ := sequencerStep_frame s
  refine ⟨_, step_busy hw hb hu, hid, hcfg, htxf, hrxf, hinbox, hpins, ?_⟩
  rcases sequencerStep_end s hb with ⟨hloop, hstatus, hanswer⟩ | ⟨hidle, hstatus, hanswer⟩ |
    ⟨hidle, hstatus, hanswer⟩
  · exact ⟨fun hidle => by simp [hidle] at hloop, fun _ => ⟨hstatus, hanswer⟩⟩
  · exact ⟨fun _ => .inl ⟨hstatus, hanswer⟩, fun hne => absurd hidle hne⟩
  · exact ⟨fun _ => .inr ⟨hstatus, hanswer⟩, fun hne => absurd hidle hne⟩

/-! ### One iteration -/

theorem sequencerStep_step2 {s : State} (h : s.stepReg = .step2) :
    sequencerStep s = pollIteration (Io.sRead s.cfg.map.regSoftRst) (resetClear s.cfg) initStep3 s := by
  simp only [sequencerStep, h]

theorem sequencerStep_step3 {s : State} (h : s.stepReg = .step3) :
    sequencerStep s = waitIteration toPoll7 s := by
  simp only [sequencerStep, h]
  rfl

theorem sequencerStep_step7 {s : State} (h : s.stepReg = .step7) :
    sequencerStep s = pollIteration (Io.lRead s.cfg.map.regRfState) (rxStateReady s.cfg) toWait9 s := by
  simp only [sequencerStep, h]
  rfl

theorem sequencerStep_step9 {s : State} (h : s.stepReg = .step9) :
    sequencerStep s = waitIteration toEnd s := by
  simp only [sequencerStep, h]
  rfl

/-- Whether the next tick shows the delay expired (40_delay.md R112). -/
def State.nextExpired (s : State) : Bool :=
  decide (s.dly.duration ≤
    (s.io.tickAt s.cfg.tickW 0 + 2 ^ s.cfg.tickW - s.dly.start) % 2 ^ s.cfg.tickW)

/-- One poll iteration: the read and the elapsed check, then what its outcome says. -/
theorem pollIteration_next {read : Io → Byte × Io} {cs : List Call} (hr : PollRead read cs)
    (cond : Byte → Bool) (onReady : State → State) {s : State} (hs : s.dly.start < 2 ^ s.cfg.tickW) :
    ∃ io, io.calls = s.io.calls ++ cs ++ [.now] ∧ pollIteration read cond onReady s =
      pollEnd onReady (pollOutcome s.cfg.pollTie (cond (s.io.readAt 0).2) s.nextExpired) (s.withIo io) := by
  refine ⟨((read s.io).2.now s.cfg.tickW).2, by rw [Io.now_calls, hr.calls], ?_⟩
  have hexpired : (s.withIo (read s.io).2).delayRead.1 = s.nextExpired := by
    rw [delayRead_expired (s := s.withIo (read s.io).2) hs, State.nextExpired, State.withIo_io, State.withIo_cfg,
      Io.tickAt_congr _ (hr.ticks s.io)]
    rfl
  unfold pollIteration
  simp only [hexpired, hr.byte]
  rfl

/-- One elapsed check of a settle wait. -/
theorem waitIteration_next (onExpired : State → State) {s : State} (hs : s.dly.start < 2 ^ s.cfg.tickW) :
    ∃ io, io.calls = s.io.calls ++ [.now] ∧
      waitIteration onExpired s = waitEnd onExpired s.nextExpired (s.withIo io) := by
  refine ⟨(s.io.now s.cfg.tickW).2, Io.now_calls _ _, ?_⟩
  unfold waitIteration
  simp only [delayRead_expired hs]
  rfl

/-- The outcome of an iteration (42_init.md R145, R146). -/
theorem pollOutcome_eq (tie : PollTie) (ready expired : Bool) :
    pollOutcome tie ready expired =
      if ready = true ∧ (expired = false ∨ tie = .readyWins) then .ready
      else if expired = true then .timedOut else .waiting := by
  cases tie <;> cases ready <;> cases expired <;> rfl

theorem Io.Grows.calls {io io' : Io} (h : io.Grows io') : ∃ more, io'.calls = io.calls ++ more := by
  obtain ⟨more, ht, -⟩ := h
  exact ⟨more.map Event.call, by rw [Io.calls, ht, List.map_append]; rfl⟩

theorem toPoll7_grows (s : State) : s.io.Grows (toPoll7 s).io :=
  initFrom4_grows (s := initStep3Flush s) ((Io.Grows.refl s.io).sWrite _ _)

theorem toWait9_grows (s : State) : s.io.Grows (toWait9 s).io := initStep9_grows (Io.Grows.refl s.io)

/-- Settles O35: an iteration's outcome is `pollOutcome` of what it read, and each outcome has its end. -/
theorem pollIterationOutcomes : Obligations.PollIterationOutcomes := by
  intro s clear expired ready hw hu hstart hclear hready hexpired
  refine ⟨fun hs => ?_, fun hs => ?_⟩
  · obtain ⟨io, hcalls, heq⟩ :=
      pollIteration_next (pollRead_short s.cfg.map.regSoftRst) (resetClear s.cfg) initStep3 hstart
    have hcond : resetClear s.cfg (s.io.readAt 0).2 = clear := hclear.symm
    have hexp : s.nextExpired = expired := hexpired.symm
    rw [step_busy hw (by rw [hs]; decide) hu, sequencerStep_step2 hs, heq, hcond, hexp, pollOutcome_eq]
    split_ifs
    · exact ⟨_, [.now], rfl, by simp [pollEnd, hcalls], rfl, rfl, rfl⟩
    · exact ⟨_, [], rfl, by simp [pollEnd, hcalls], rfl, rfl, rfl, rfl⟩
    · exact ⟨_, [], rfl, by simp [pollEnd, hcalls], rfl, io, rfl⟩
  · obtain ⟨io, hcalls, heq⟩ :=
      pollIteration_next (pollRead_long s.cfg.map.regRfState) (rxStateReady s.cfg) toWait9 hstart
    have hcond : rxStateReady s.cfg (s.io.readAt 0).2 = ready := hready.symm
    have hexp : s.nextExpired = expired := hexpired.symm
    rw [step_busy hw (by rw [hs]; decide) hu, sequencerStep_step7 hs, heq, hcond, hexp, pollOutcome_eq]
    split_ifs
    · obtain ⟨more, hmore⟩ := (toWait9_grows (s.withIo io)).calls
      refine ⟨_, more, rfl, by simpa [pollEnd, hcalls] using hmore, ?_⟩
      rw [pollEnd, toWait9_eq]
      exact ⟨rfl, rfl⟩
    · exact ⟨_, [], rfl, by simp [pollEnd, hcalls], rfl, rfl, rfl, rfl⟩
    · exact ⟨_, [], rfl, by simp [pollEnd, hcalls], rfl, io, rfl⟩

/-- Settles O36: an elapsed check is one `NOW`, and the wait goes on or ends by what it shows. -/
theorem settleWaitHoldsUntilExpired : Obligations.SettleWaitHoldsUntilExpired := by
  intro s expired hw hu hstart hexpired hs
  have hexp : s.nextExpired = expired := hexpired.symm
  have hb : s.stepReg ≠ .idle := by rcases hs with h | h <;> rw [h] <;> decide
  rw [step_busy hw hb hu]
  rcases hs with hs | hs
  · obtain ⟨io, hcalls, heq⟩ := waitIteration_next toPoll7 hstart
    rw [sequencerStep_step3 hs, heq, hexp]
    cases expired
    · exact ⟨_, [], rfl, hcalls, rfl, io, rfl⟩
    · obtain ⟨more, hmore⟩ := (toPoll7_grows (s.withIo io)).calls
      refine ⟨_, more, rfl, by simpa [waitEnd, hcalls] using hmore, ?_⟩
      rw [if_neg (by decide), if_pos hs, waitEnd, if_pos rfl, toPoll7_eq]
      exact ⟨rfl, rfl⟩
  · obtain ⟨io, hcalls, heq⟩ := waitIteration_next toEnd hstart
    rw [sequencerStep_step9 hs, heq, hexp]
    cases expired
    · exact ⟨_, [], rfl, hcalls, rfl, io, rfl⟩
    · refine ⟨_, shortWriteCalls s.cfg.map.regRxMcr 0x00#8 ++ shortReadCalls s.cfg.map.regIntStat, rfl,
        ?_, ?_⟩
      · simp [waitEnd, toEnd, initStep11, initStep10, hcalls]
      · rw [if_neg (by decide), if_neg (by rw [hs]; decide)]
        exact ⟨rfl, rfl, rfl, rfl⟩

end Sys2Proof.Machine
end

section
/-! A whole `INIT` whose answers are supplied (42_init.md): its beginning, its four loops and the straight lines
between them, each taking a state of a loop to a state of the next (`State.inLoop`). -/

namespace Sys2Proof.Machine

/-- `s` inside an `INIT` it has accepted, at a loop whose delay of `duration` was started at tick `start`. -/
def State.inLoop (s : State) (loop : SeqStep) (start duration : Nat) (io : Io) : State :=
  { s with
    id := s.loadedId
    stepReg := loop
    dly := { start := start, duration := duration, running := true }
    answer := none
    io := io }

theorem State.inLoop_withIo (s : State) (loop : SeqStep) (start duration : Nat) (io io' : Io) :
    (s.inLoop loop start duration io).withIo io' = s.inLoop loop start duration io' := rfl

/-- `s` after an `INIT` that ended with status `status` and result `r`. -/
def State.initEnded (s : State) (status : DriverStatus) (r : Result) (start duration : Nat) (io : Io) :
    State :=
  { s with
    id := s.loadedId
    status := status
    stepReg := .idle
    dly := { start := start, duration := duration, running := true }
    answer := some (.result r)
    io := io }

/-! ### Steps 10 and 11 take one read answer and no tick (42_init.md R158, R159) -/

theorem toEnd_io_reads (s : State) : (toEnd s).io.reads = s.io.reads.skip 1 := by
  simp [toEnd, initStep11, initStep10]
theorem toEnd_io_ticks (s : State) : (toEnd s).io.ticks = s.io.ticks := by
  simp [toEnd, initStep11, initStep10]
theorem toEnd_io_pins (s : State) : (toEnd s).io.pins = s.io.pins := by
  simp [toEnd, initStep11, initStep10]

/-- One part of a run after another. -/
theorem LoopEdge.trans {io io' io'' : Io} {reads reads' : List (Bool × Byte)} {ticks ticks' : List Nat}
    {calls calls' : List Call} (h : LoopEdge io io' reads ticks calls)
    (h' : LoopEdge io' io'' reads' ticks' calls') : LoopEdge io io'' reads' ticks' (calls ++ calls') :=
  ⟨h'.reads, h'.ticks, h'.pins.trans h.pins, by rw [h'.calls, h.calls, List.append_assoc]⟩

section
variable {s : State} {x : InitAnswers} {io : Io} {restReads : List (Bool × Byte)} {restTicks : List Nat}

/-- Up to step 2's poll. -/
theorem initBegin_inLoop (hticks : s.io.ticks.given = x.start2 :: restTicks)
    (hstart : x.start2 < 2 ^ s.cfg.tickW) :
    ∃ io, LoopEdge s.io io s.io.reads.given restTicks (callsToPoll2 s.cfg) ∧
      initBegin s = s.inLoop .step2 x.start2 s.cfg.timeoutTicks io := by
  obtain ⟨hcfg, hid, htxf, hrxf, hinbox, hstatus, hstep, hanswer, hdly, hreads, hpins, hticks', hcalls⟩ :=
    initBegin_fields s
  have hrest : (initBegin s).io.ticks.given = restTicks := by
    rw [hticks', Feed.skip_given, hticks]
    rfl
  refine ⟨(initBegin s).io, ⟨congrArg Feed.given hreads, hrest, hpins, hcalls⟩, ?_⟩
  rw [Io.tickAt_cons hticks hstart] at hdly
  exact State.eq_of_fields hcfg hid htxf hrxf hstatus hstep hdly hinbox hanswer rfl

/-- Step 2's poll. -/
theorem poll2_run {last : PollOutcome} (hx : x.poll2 s.cfg last)
    (hreads : io.reads.given = x.reads2 ++ restReads) (hticks : io.ticks.given = x.ticks2 ++ restTicks) :
    ∃ io', LoopEdge io io' restReads restTicks (poll2Calls s.cfg x.ticks2.length) ∧
      sequencerRun x.ticks2.length (s.inLoop .step2 x.start2 s.cfg.timeoutTicks io) =
        pollEnd initStep3 last (s.inLoop .step2 x.start2 s.cfg.timeoutTicks io') := by
  obtain ⟨hrange, hlen, k, hout⟩ := hx
  exact poll_run (pollRead_short s.cfg.map.regSoftRst) (resetClear s.cfg) initStep3 .step2 (by decide) s.cfg
    (fun u hc hu => hc ▸ sequencerStep_step2 hu) last k
    (s.inLoop .step2 x.start2 s.cfg.timeoutTicks io) _ _ _ _ rfl rfl hlen hreads hticks
    (fun t ht => hrange t (List.mem_cons_of_mem _ ht)) hout

/-- Step 7's poll. -/
theorem poll7_run {last : PollOutcome} (hx : x.poll7 s.cfg last)
    (hreads : io.reads.given = x.reads7 ++ restReads) (hticks : io.ticks.given = x.ticks7 ++ restTicks) :
    ∃ io', LoopEdge io io' restReads restTicks (poll7Calls s.cfg x.ticks7.length) ∧
      sequencerRun x.ticks7.length (s.inLoop .step7 x.start7 s.cfg.timeoutTicks io) =
        pollEnd toWait9 last (s.inLoop .step7 x.start7 s.cfg.timeoutTicks io') := by
  obtain ⟨hrange, hlen, k, hout⟩ := hx
  exact poll_run (pollRead_long s.cfg.map.regRfState) (rxStateReady s.cfg) toWait9 .step7 (by decide) s.cfg
    (fun u hc hu => hc ▸ sequencerStep_step7 hu) last k
    (s.inLoop .step7 x.start7 s.cfg.timeoutTicks io) _ _ _ _ rfl rfl hlen hreads hticks
    (fun t ht => hrange t (List.mem_cons_of_mem _ ht)) hout

/-! ### The straight lines: each starts the next loop's delay at the tick supplied -/

section
variable {start duration t : Nat} (hticks : io.ticks.given = t :: restTicks) (ht : t < 2 ^ s.cfg.tickW)
include hticks ht

theorem initStep3_inLoop :
    initStep3 (s.inLoop .step2 start duration io) =
      s.inLoop .step3 t s.cfg.settle1Ticks (initStep3 (s.inLoop .step2 start duration io)).io := by
  rw [initStep3_eq, ← Io.tickAt_cons hticks ht]
  rfl

theorem toPoll7_inLoop :
    toPoll7 (s.inLoop .step3 start duration io) =
      s.inLoop .step7 t s.cfg.timeoutTicks (toPoll7 (s.inLoop .step3 start duration io)).io := by
  rw [toPoll7_eq, ← Io.tickAt_cons hticks ht]
  rfl

theorem toWait9_inLoop :
    toWait9 (s.inLoop .step7 start duration io) =
      s.inLoop .step9 t s.cfg.settle2Ticks (toWait9 (s.inLoop .step7 start duration io)).io := by
  rw [toWait9_eq, ← Io.tickAt_cons hticks ht]
  rfl

end

/-- Step 3's wait, with the straight lines before it and after it, up to step 7's poll. -/
theorem wait3_run {start duration : Nat} (hx : x.wait3 s.cfg) (hstart7 : x.start7 < 2 ^ s.cfg.tickW)
    (hticks : io.ticks.given = x.start3 :: (x.ticks3 ++ x.start7 :: restTicks)) :
    ∃ io', LoopEdge io io' io.reads.given restTicks (callsToPoll7 s.cfg s.loadedId x.ticks3.length) ∧
      sequencerRun x.ticks3.length (initStep3 (s.inLoop .step2 start duration io)) =
        s.inLoop .step7 x.start7 s.cfg.timeoutTicks io' := by
  obtain ⟨hrange, k, hout⟩ := hx
  have hin := initStep3_inLoop (start := start) (duration := duration) hticks (hrange _ List.mem_cons_self)
  have hrest : (initStep3 (s.inLoop .step2 start duration io)).io.ticks.given =
      x.ticks3 ++ x.start7 :: restTicks := by
    rw [initStep3_ticks, Feed.skip_given]
    exact congrArg (List.drop 1) hticks
  obtain ⟨io', hio', hrun⟩ := wait_run toPoll7 .step3 (by decide) s.cfg
    (fun u _ hu => sequencerStep_step3 hu) k (s.inLoop .step3 x.start3 s.cfg.settle1Ticks
      (initStep3 (s.inLoop .step2 start duration io)).io) x.ticks3 (x.start7 :: restTicks) rfl rfl hrest
    (fun t ht => hrange t (List.mem_cons_of_mem _ ht)) hout
  have hcalls := toPoll7_initStep3_calls (s.inLoop .step2 start duration io) io' _ hio'.calls
  rw [hin, State.inLoop_withIo] at hcalls
  rw [State.inLoop_withIo] at hrun
  refine ⟨_, ⟨?_, ?_, ?_, ?_⟩, by rw [hin, hrun]; exact toPoll7_inLoop hio'.ticks hstart7⟩
  · rw [toPoll7_io_reads]
    exact hio'.reads.trans (congrArg Feed.given (initStep3_reads _))
  · rw [toPoll7_io_ticks, Feed.skip_given]
    exact congrArg (List.drop 1) hio'.ticks
  · rw [toPoll7_io_pins]
    exact hio'.pins.trans (initStep3_pins _)
  · exact hcalls

/-- Step 9's wait, with the straight lines before it and after it, up to the end. -/
theorem wait9_run {start duration : Nat} (hx : x.wait9 s.cfg)
    (hreads : io.reads.given = x.last :: restReads)
    (hticks : io.ticks.given = x.start9 :: (x.ticks9 ++ restTicks)) :
    ∃ io', LoopEdge io io' restReads restTicks (callsToEnd s.cfg s.loadedId x.ticks9.length) ∧
      sequencerRun x.ticks9.length (toWait9 (s.inLoop .step7 start duration io)) =
        s.initEnded .initOk .initOk x.start9 s.cfg.settle2Ticks io' := by
  obtain ⟨hrange, k, hout⟩ := hx
  have hin := toWait9_inLoop (start := start) (duration := duration) hticks (hrange _ List.mem_cons_self)
  have hrest : (toWait9 (s.inLoop .step7 start duration io)).io.ticks.given = x.ticks9 ++ restTicks := by
    rw [toWait9_io_ticks, Feed.skip_given]
    exact congrArg (List.drop 1) hticks
  obtain ⟨io', hio', hrun⟩ := wait_run toEnd .step9 (by decide) s.cfg
    (fun u _ hu => sequencerStep_step9 hu) k (s.inLoop .step9 x.start9 s.cfg.settle2Ticks
      (toWait9 (s.inLoop .step7 start duration io)).io) x.ticks9 restTicks rfl rfl hrest
    (fun t ht => hrange t (List.mem_cons_of_mem _ ht)) hout
  have hcalls := toEnd_toWait9_calls (s.inLoop .step7 start duration io) io' _ hio'.calls
  rw [hin, State.inLoop_withIo] at hcalls
  rw [State.inLoop_withIo] at hrun
  refine ⟨_, ⟨?_, ?_, ?_, ?_⟩, by rw [hin, hrun]; exact toEnd_eq _⟩
  · have hlast : io'.reads.given = x.last :: restReads := by
      rw [hio'.reads, ← hreads]
      exact congrArg Feed.given (toWait9_io_reads _)
    rw [toEnd_io_reads, Feed.skip_given]
    exact congrArg (List.drop 1) hlast
  · rw [toEnd_io_ticks]
    exact hio'.ticks
  · rw [toEnd_io_pins]
    exact hio'.pins.trans (toWait9_io_pins _)
  · exact hcalls

theorem InitAnswers.poll2.start_lt {c : Cfg} {last : PollOutcome} (hx : x.poll2 c last) :
    x.start2 < 2 ^ c.tickW := hx.1 _ List.mem_cons_self

theorem InitAnswers.poll7.start_lt {c : Cfg} {last : PollOutcome} (hx : x.poll7 c last) :
    x.start7 < 2 ^ c.tickW := hx.1 _ List.mem_cons_self

/-! ### Runs that end -/

/-- A run that ends within the supplied ticks is the whole command, and leaves the step register as the
accepting state had it. -/
theorem exec_init_of_run (h : s.accepts) {m start duration : Nat} {status : DriverStatus} {r : Result}
    (hm : m ≤ s.io.ticks.given.length)
    (hrun : sequencerRun m (initBegin s) = s.initEnded status r start duration io) :
    exec .init s = .next { s with
      id := s.loadedId
      status := status
      dly := { start := start, duration := duration, running := true }
      answer := some (.result r)
      io := io } := by
  rw [exec_init_of_accepts h, ← Nat.add_sub_cancel' hm, sequencerRun_add, hrun, sequencerRun_idle _ _ rfl]
  exact congrArg Host.Outcome.next (State.eq_of_fields rfl rfl rfl rfl rfl h.2.symm rfl rfl rfl rfl)

theorem pollEnd_timedOut (onReady : State → State) (loop : SeqStep) (start duration : Nat) :
    pollEnd onReady .timedOut (s.inLoop loop start duration io) =
      s.initEnded .timeout .timeout start duration io := rfl

end

/-- Settles O31: the beginning, and step 2's poll up to the iteration that ends it. -/
theorem initTimesOutInStep2 : Obligations.InitTimesOutInStep2 := by
  intro s x restTicks restReads h hticks hreads hpoll2
  obtain ⟨io1, hio1, hbegin⟩ := initBegin_inLoop hticks hpoll2.start_lt
  obtain ⟨io2, hio2, hrun2⟩ := poll2_run hpoll2 (hio1.reads.trans hreads) hio1.ticks
  obtain ⟨hreads', hticks', hpins, hcalls⟩ := hio1.trans hio2
  have hlen : x.ticks2.length ≤ s.io.ticks.given.length := by
    simp only [hticks, List.cons_append, List.length_cons, List.length_append]
    omega
  refine ⟨io2, exec_init_of_run h hlen ?_, hpins, hticks', hreads',
    by simpa only [List.append_assoc] using hcalls⟩
  rw [hbegin, hrun2, pollEnd_timedOut]

/-- Settles O32: the same with step 3's wait and step 7's poll after it. -/
theorem initTimesOutInStep7 : Obligations.InitTimesOutInStep7 := by
  intro s x restTicks restReads h hticks hreads hpoll2 hwait3 hpoll7
  simp only [List.append_assoc, List.cons_append] at hticks hreads
  obtain ⟨io1, hio1, hbegin⟩ := initBegin_inLoop hticks hpoll2.start_lt
  obtain ⟨io2, hio2, hrun2⟩ := poll2_run hpoll2 (hio1.reads.trans hreads) hio1.ticks
  obtain ⟨io3, hio3, hrun3⟩ := wait3_run hwait3 hpoll7.start_lt hio2.ticks
  obtain ⟨io7, hio7, hrun7⟩ := poll7_run hpoll7 (hio3.reads.trans hio2.reads) hio3.ticks
  obtain ⟨hreads', hticks', hpins, hcalls⟩ := ((hio1.trans hio2).trans hio3).trans hio7
  have hlen : x.ticks2.length + (x.ticks3.length + x.ticks7.length) ≤ s.io.ticks.given.length := by
    simp only [hticks, List.length_cons, List.length_append]
    omega
  refine ⟨io7, exec_init_of_run h hlen ?_, hpins, hticks', hreads',
    by simpa only [List.append_assoc] using hcalls⟩
  rw [hbegin, sequencerRun_add, hrun2, pollEnd, sequencerRun_add, hrun3, hrun7, pollEnd_timedOut]

/-- Settles O30: the beginning, the four loops each up to the iteration that ends it, and the straight lines
between them. -/
theorem initRunsToSuccess : Obligations.InitRunsToSuccess := by
  intro s x restTicks restReads h hticks hreads hpoll2 hwait3 hpoll7 hwait9
  simp only [List.append_assoc, List.cons_append] at hticks hreads
  obtain ⟨io1, hio1, hbegin⟩ := initBegin_inLoop hticks hpoll2.start_lt
  obtain ⟨io2, hio2, hrun2⟩ := poll2_run hpoll2 (hio1.reads.trans hreads) hio1.ticks
  obtain ⟨io3, hio3, hrun3⟩ := wait3_run hwait3 hpoll7.start_lt hio2.ticks
  obtain ⟨io7, hio7, hrun7⟩ := poll7_run hpoll7 (hio3.reads.trans hio2.reads) hio3.ticks
  obtain ⟨io9, hio9, hrun9⟩ := wait9_run hwait9 hio7.reads hio7.ticks
  obtain ⟨hreads', hticks', hpins, hcalls⟩ := (((hio1.trans hio2).trans hio3).trans hio7).trans hio9
  have hlen : x.ticks2.length + (x.ticks3.length + (x.ticks7.length + x.ticks9.length)) ≤
      s.io.ticks.given.length := by
    simp only [hticks, List.length_cons, List.length_append]
    omega
  refine ⟨io9, exec_init_of_run h hlen ?_, hpins, hticks', hreads',
    by simpa only [List.append_assoc] using hcalls, rfl⟩
  rw [hbegin, sequencerRun_add, hrun2, pollEnd, sequencerRun_add, hrun3, sequencerRun_add, hrun7, pollEnd, hrun9]

end Sys2Proof.Machine
end
